-- ==== Sys2Proof/Word.lean ====
section
/-! DEFINITION. The word types of SUB005-CORE: bytes, descriptor words and context numbers
(00_scope.md R8 and R9, 30_encoding.md R91). -/

namespace Sys2Proof

/-- A byte of the buffer memory or of a byte string (R8). -/
abbrev Byte := BitVec 8

/-- A descriptor word: `SRC`, `SLEN`, `DST`, `DCAP` and `IMM` are each one (R91). -/
abbrev Word := BitVec 32

/-- A context number, the 4-bit field `CTX` or `CTX2` (R91). -/
abbrev Ctx := BitVec 4

end Sys2Proof
end

