-- ==== Sys2Proof/Syntax.lean ====
section
/-! DEFINITION. The command set of SUB005-CORE: one constructor of `Instr` per row of
opcode_table.json (30_encoding.md R94), and the descriptor the host presents (R90, R91). -/

namespace Sys2Proof

/-- The three padding schemes, `VAR` of the PAD commands and of `CBC.INIT` (40_pad.md R120). -/
inductive Scheme where
  | zero
  | pkcs7
  | iso7816
deriving DecidableEq, Repr, Inhabited

/-- The four stream ciphers a handle can hold (10_state.md R29). -/
inductive Cipher where
  | chacha20
  | salsa20
  | xchacha20
  | xsalsa20
deriving DecidableEq, Repr, Inhabited

/-- The three Ascon AEAD variants (44_ascon.md R231). -/
inductive AscVar where
  | ascon128
  | ascon128a
  | ascon80pq
deriving DecidableEq, Repr, Inhabited

/-- The two Ascon hash variants (44_ascon.md R231). -/
inductive AshVar where
  | hash
  | xof
deriving DecidableEq, Repr, Inhabited

/-- The 46 commands (R94). The operands of a constructor are the fields its format uses (R92),
in the order context, second context, variant, source, destination, immediate. -/
inductive Instr where
  | padszZ (slen imm : Word)
  | padszP7 (slen imm : Word)
  | padszI4 (slen imm : Word)
  | padZ (src slen dst dcap imm : Word)
  | padP7 (src slen dst dcap imm : Word)
  | padI4 (src slen dst dcap imm : Word)
  | unpadZ (src slen dst dcap : Word)
  | unpadP7 (src slen dst dcap : Word)
  | unpadI4 (src slen dst dcap : Word)
  | cbcInit (c : Ctx) (scheme : Scheme) (src slen : Word)
  | cbcEncsz (c : Ctx) (slen : Word)
  | cbcEnc (c : Ctx) (src slen dst dcap : Word)
  | cbcDec (c : Ctx) (src slen dst dcap : Word)
  | p13Init (c : Ctx) (src slen : Word)
  | p13Initsc (c h : Ctx)
  | p13Write (c : Ctx) (src slen : Word)
  | p13Sumin (c : Ctx) (dst dcap : Word)
  | p13Sum (c : Ctx) (dst dcap : Word)
  | p13Clone (c d : Ctx)
  | scInitCc20 (h : Ctx) (src slen : Word)
  | scInitSs20 (h : Ctx) (src slen : Word)
  | scInitXcc20 (h : Ctx) (src slen : Word)
  | scInitXss20 (h : Ctx) (src slen : Word)
  | aeadInit (c h : Ctx)
  | aeadWrad (c : Ctx) (src slen : Word)
  | aeadEnc (c : Ctx) (src slen dst dcap : Word)
  | aeadDec (c : Ctx) (src slen dst dcap : Word)
  | aeadFin (c : Ctx) (dst dcap : Word)
  | aeadVfy (c : Ctx) (src slen : Word)
  | aeadEncsz (c : Ctx) (slen : Word)
  | ascInit128 (c : Ctx) (src slen : Word)
  | ascInit128a (c : Ctx) (src slen : Word)
  | ascInit80pq (c : Ctx) (src slen : Word)
  | ascWrad (c : Ctx) (src slen : Word)
  | ascEnc (c : Ctx) (src slen dst dcap : Word)
  | ascDec (c : Ctx) (src slen dst dcap : Word)
  | ascFin (c : Ctx) (dst dcap : Word)
  | ascVfy (c : Ctx) (src slen : Word)
  | ascEncsz (c : Ctx) (slen : Word)
  | ascClone (c d : Ctx)
  | ashInitHash (c : Ctx)
  | ashInitXof (c : Ctx) (imm : Word)
  | ashWrite (c : Ctx) (src slen : Word)
  | ashSumin (c : Ctx) (dst dcap : Word)
  | ashSum (c : Ctx) (dst dcap : Word)
  | ashClone (c d : Ctx)
deriving DecidableEq, Repr

/-- The six words of a command, `W0` to `W5` (R90). -/
structure Descriptor where
  w0 : Word
  w1 : Word
  w2 : Word
  w3 : Word
  w4 : Word
  w5 : Word
deriving DecidableEq, Repr

end Sys2Proof
end

