-- ==== Sys2Proof/WellFormed.lean ====
section
/-! DEFINITION. Which commands are well formed on an implementation with `nctx` contexts:
every context number a command names is below `nctx` (30_encoding.md R93, step 4 of R95).
Every other operand is admitted at every value of its field. -/

namespace Sys2Proof

/-- The context numbers a command names: `CTX`, and `CTX2` where its format uses it (R92). -/
def Instr.contexts : Instr → List Ctx
  | .padszZ _ _ => []
  | .padszP7 _ _ => []
  | .padszI4 _ _ => []
  | .padZ _ _ _ _ _ => []
  | .padP7 _ _ _ _ _ => []
  | .padI4 _ _ _ _ _ => []
  | .unpadZ _ _ _ _ => []
  | .unpadP7 _ _ _ _ => []
  | .unpadI4 _ _ _ _ => []
  | .cbcInit c _ _ _ => [c]
  | .cbcEncsz c _ => [c]
  | .cbcEnc c _ _ _ _ => [c]
  | .cbcDec c _ _ _ _ => [c]
  | .p13Init c _ _ => [c]
  | .p13Initsc c h => [c, h]
  | .p13Write c _ _ => [c]
  | .p13Sumin c _ _ => [c]
  | .p13Sum c _ _ => [c]
  | .p13Clone c d => [c, d]
  | .scInitCc20 h _ _ => [h]
  | .scInitSs20 h _ _ => [h]
  | .scInitXcc20 h _ _ => [h]
  | .scInitXss20 h _ _ => [h]
  | .aeadInit c h => [c, h]
  | .aeadWrad c _ _ => [c]
  | .aeadEnc c _ _ _ _ => [c]
  | .aeadDec c _ _ _ _ => [c]
  | .aeadFin c _ _ => [c]
  | .aeadVfy c _ _ => [c]
  | .aeadEncsz c _ => [c]
  | .ascInit128 c _ _ => [c]
  | .ascInit128a c _ _ => [c]
  | .ascInit80pq c _ _ => [c]
  | .ascWrad c _ _ => [c]
  | .ascEnc c _ _ _ _ => [c]
  | .ascDec c _ _ _ _ => [c]
  | .ascFin c _ _ => [c]
  | .ascVfy c _ _ => [c]
  | .ascEncsz c _ => [c]
  | .ascClone c d => [c, d]
  | .ashInitHash c => [c]
  | .ashInitXof c _ => [c]
  | .ashWrite c _ _ => [c]
  | .ashSumin c _ _ => [c]
  | .ashSum c _ _ => [c]
  | .ashClone c d => [c, d]

/-- Step (4) of R95: every context number named is below `nctx`. -/
def Instr.wellFormed (nctx : Nat) (i : Instr) : Bool :=
  i.contexts.all fun c => c.toNat < nctx

end Sys2Proof
end

