-- ==== Sys2Proof/Decode.lean ====
section
/-! DEFINITION. The command encoding (30_encoding.md R90 to R96): the fields of a descriptor,
the decoder, total on any six words and refusing by name, the encoder after it, and the decoder
read on a table word. Step (4) of R95, `CTX` and `CTX2` below `NCTX`, needs the parameter `NCTX`
and is made by every meaning before its other checks (`State.hasCtx`, log 10). -/

namespace Sys2Proof

/-- `w[hi:lo]` as a number (00_scope.md R9). -/
def Word.bits (w : Word) (hi lo : Nat) : Nat := w.toNat / 2 ^ lo % 2 ^ (hi + 1 - lo)

/-- `UNIT`, bits 31:28 of `W0` (R91). -/
def Descriptor.unit (d : Descriptor) : Nat := d.w0.bits 31 28
/-- `OP`, bits 27:24 of `W0` (R91). -/
def Descriptor.op (d : Descriptor) : Nat := d.w0.bits 27 24
/-- `CTX`, bits 23:20 of `W0` (R91). -/
def Descriptor.ctx (d : Descriptor) : Ctx := BitVec.ofNat 4 (d.w0.bits 23 20)
/-- `CTX2`, bits 19:16 of `W0` (R91). -/
def Descriptor.ctx2 (d : Descriptor) : Ctx := BitVec.ofNat 4 (d.w0.bits 19 16)
/-- `VAR`, bits 15:8 of `W0` (R91). -/
def Descriptor.var (d : Descriptor) : Nat := d.w0.bits 15 8
/-- `RSV`, bits 7:0 of `W0` (R91). -/
def Descriptor.rsv (d : Descriptor) : Nat := d.w0.bits 7 0

/-- The opcode of a descriptor as one number, hexadecimal digits `UNIT OP VAR VAR`. -/
def Descriptor.opcode (d : Descriptor) : Nat := d.unit * 4096 + d.op * 256 + d.var

/-- Why a descriptor is illegal, steps (1) to (3) of R95. -/
inductive Illegal where
  /-- `RSV` is not 0. -/
  | reservedBits
  /-- No row of R94 has this `UNIT`, `OP` and `VAR`. -/
  | noSuchCommand
  /-- A field the row's format does not use is not 0. -/
  | unusedField
deriving DecidableEq, Repr

/-- Step (3) of R95: the command, if every unused field is 0. -/
def accept (unusedAreZero : Bool) (i : Instr) : Except Illegal Instr :=
  if unusedAreZero then .ok i else .error .unusedField

/-- Format `C` (R92). -/
def Descriptor.formatC (d : Descriptor) (mk : Ctx → Instr) : Except Illegal Instr :=
  accept (d.ctx2 == 0 && d.w1 == 0 && d.w2 == 0 && d.w3 == 0 && d.w4 == 0 && d.w5 == 0) (mk d.ctx)
/-- Format `CC` (R92). -/
def Descriptor.formatCC (d : Descriptor) (mk : Ctx → Ctx → Instr) : Except Illegal Instr :=
  accept (d.w1 == 0 && d.w2 == 0 && d.w3 == 0 && d.w4 == 0 && d.w5 == 0) (mk d.ctx d.ctx2)
/-- Format `CI` (R92). -/
def Descriptor.formatCI (d : Descriptor) (mk : Ctx → Word → Instr) : Except Illegal Instr :=
  accept (d.ctx2 == 0 && d.w1 == 0 && d.w2 == 0 && d.w3 == 0 && d.w4 == 0) (mk d.ctx d.w5)
/-- Formats `CS` and `CVS` (R92). -/
def Descriptor.formatCS (d : Descriptor) (mk : Ctx → Word → Word → Instr) : Except Illegal Instr :=
  accept (d.ctx2 == 0 && d.w3 == 0 && d.w4 == 0 && d.w5 == 0) (mk d.ctx d.w1 d.w2)
/-- Format `CD` (R92). -/
def Descriptor.formatCD (d : Descriptor) (mk : Ctx → Word → Word → Instr) : Except Illegal Instr :=
  accept (d.ctx2 == 0 && d.w1 == 0 && d.w2 == 0 && d.w5 == 0) (mk d.ctx d.w3 d.w4)
/-- Format `CSD` (R92). -/
def Descriptor.formatCSD (d : Descriptor) (mk : Ctx → Word → Word → Word → Word → Instr) :
    Except Illegal Instr :=
  accept (d.ctx2 == 0 && d.w5 == 0) (mk d.ctx d.w1 d.w2 d.w3 d.w4)
/-- Format `CL` (R92). -/
def Descriptor.formatCL (d : Descriptor) (mk : Ctx → Word → Instr) : Except Illegal Instr :=
  accept (d.ctx2 == 0 && d.w1 == 0 && d.w3 == 0 && d.w4 == 0 && d.w5 == 0) (mk d.ctx d.w2)
/-- Format `LI` (R92). -/
def Descriptor.formatLI (d : Descriptor) (mk : Word → Word → Instr) : Except Illegal Instr :=
  accept (d.ctx == 0 && d.ctx2 == 0 && d.w1 == 0 && d.w3 == 0 && d.w4 == 0) (mk d.w2 d.w5)
/-- Format `SDI` (R92). -/
def Descriptor.formatSDI (d : Descriptor) (mk : Word → Word → Word → Word → Word → Instr) :
    Except Illegal Instr :=
  accept (d.ctx == 0 && d.ctx2 == 0) (mk d.w1 d.w2 d.w3 d.w4 d.w5)
/-- Format `SD` (R92). -/
def Descriptor.formatSD (d : Descriptor) (mk : Word → Word → Word → Word → Instr) :
    Except Illegal Instr :=
  accept (d.ctx == 0 && d.ctx2 == 0 && d.w5 == 0) (mk d.w1 d.w2 d.w3 d.w4)

/-- Steps (2) and (3) of R95: the row of the opcode map (R94), then its unused fields. -/
def Descriptor.row (d : Descriptor) : Except Illegal Instr :=
  match d.opcode with
  | 0x1000 => d.formatLI .padszZ
  | 0x1001 => d.formatLI .padszP7
  | 0x1002 => d.formatLI .padszI4
  | 0x1100 => d.formatSDI .padZ
  | 0x1101 => d.formatSDI .padP7
  | 0x1102 => d.formatSDI .padI4
  | 0x1200 => d.formatSD .unpadZ
  | 0x1201 => d.formatSD .unpadP7
  | 0x1202 => d.formatSD .unpadI4
  | 0x2000 => d.formatCS (Instr.cbcInit · .zero · ·)
  | 0x2001 => d.formatCS (Instr.cbcInit · .pkcs7 · ·)
  | 0x2002 => d.formatCS (Instr.cbcInit · .iso7816 · ·)
  | 0x2100 => d.formatCL .cbcEncsz
  | 0x2200 => d.formatCSD .cbcEnc
  | 0x2300 => d.formatCSD .cbcDec
  | 0x3000 => d.formatCS .p13Init
  | 0x3100 => d.formatCC .p13Initsc
  | 0x3200 => d.formatCS .p13Write
  | 0x3300 => d.formatCD .p13Sumin
  | 0x3400 => d.formatCD .p13Sum
  | 0x3500 => d.formatCC .p13Clone
  | 0x4000 => d.formatCS .scInitCc20
  | 0x4001 => d.formatCS .scInitSs20
  | 0x4002 => d.formatCS .scInitXcc20
  | 0x4003 => d.formatCS .scInitXss20
  | 0x5000 => d.formatCC .aeadInit
  | 0x5100 => d.formatCS .aeadWrad
  | 0x5200 => d.formatCSD .aeadEnc
  | 0x5300 => d.formatCSD .aeadDec
  | 0x5400 => d.formatCD .aeadFin
  | 0x5500 => d.formatCS .aeadVfy
  | 0x5600 => d.formatCL .aeadEncsz
  | 0x6000 => d.formatCS .ascInit128
  | 0x6001 => d.formatCS .ascInit128a
  | 0x6002 => d.formatCS .ascInit80pq
  | 0x6100 => d.formatCS .ascWrad
  | 0x6200 => d.formatCSD .ascEnc
  | 0x6300 => d.formatCSD .ascDec
  | 0x6400 => d.formatCD .ascFin
  | 0x6500 => d.formatCS .ascVfy
  | 0x6600 => d.formatCL .ascEncsz
  | 0x6700 => d.formatCC .ascClone
  | 0x7000 => d.formatC .ashInitHash
  | 0x7001 => d.formatCI .ashInitXof
  | 0x7100 => d.formatCS .ashWrite
  | 0x7200 => d.formatCD .ashSumin
  | 0x7300 => d.formatCD .ashSum
  | 0x7400 => d.formatCC .ashClone
  | _ => .error .noSuchCommand

/-- The decoder, steps (1) to (3) of R95, total on every 192-bit value. -/
def decode (d : Descriptor) : Except Illegal Instr :=
  if d.rsv ≠ 0 then .error .reservedBits else d.row

/-- `W0` from its fields, the formula of R91 with `RSV` 0. -/
def header (unit op : Nat) (c d : Ctx) (var : Nat) : Word :=
  BitVec.ofNat 32 (unit * 2 ^ 28 + op * 2 ^ 24 + c.toNat * 2 ^ 20 + d.toNat * 2 ^ 16 + var * 2 ^ 8)

/-- `VAR` of a padding scheme (40_pad.md R120). -/
def Scheme.code : Scheme → Nat
  | .zero => 0
  | .pkcs7 => 1
  | .iso7816 => 2

/-- The encoder: the six words of a command, from R91, R92 and R94. -/
def encode : Instr → Descriptor
  | .padszZ slen imm => ⟨header 1 0 0 0 0, 0, slen, 0, 0, imm⟩
  | .padszP7 slen imm => ⟨header 1 0 0 0 1, 0, slen, 0, 0, imm⟩
  | .padszI4 slen imm => ⟨header 1 0 0 0 2, 0, slen, 0, 0, imm⟩
  | .padZ src slen dst dcap imm => ⟨header 1 1 0 0 0, src, slen, dst, dcap, imm⟩
  | .padP7 src slen dst dcap imm => ⟨header 1 1 0 0 1, src, slen, dst, dcap, imm⟩
  | .padI4 src slen dst dcap imm => ⟨header 1 1 0 0 2, src, slen, dst, dcap, imm⟩
  | .unpadZ src slen dst dcap => ⟨header 1 2 0 0 0, src, slen, dst, dcap, 0⟩
  | .unpadP7 src slen dst dcap => ⟨header 1 2 0 0 1, src, slen, dst, dcap, 0⟩
  | .unpadI4 src slen dst dcap => ⟨header 1 2 0 0 2, src, slen, dst, dcap, 0⟩
  | .cbcInit c sch src slen => ⟨header 2 0 c 0 sch.code, src, slen, 0, 0, 0⟩
  | .cbcEncsz c slen => ⟨header 2 1 c 0 0, 0, slen, 0, 0, 0⟩
  | .cbcEnc c src slen dst dcap => ⟨header 2 2 c 0 0, src, slen, dst, dcap, 0⟩
  | .cbcDec c src slen dst dcap => ⟨header 2 3 c 0 0, src, slen, dst, dcap, 0⟩
  | .p13Init c src slen => ⟨header 3 0 c 0 0, src, slen, 0, 0, 0⟩
  | .p13Initsc c d => ⟨header 3 1 c d 0, 0, 0, 0, 0, 0⟩
  | .p13Write c src slen => ⟨header 3 2 c 0 0, src, slen, 0, 0, 0⟩
  | .p13Sumin c dst dcap => ⟨header 3 3 c 0 0, 0, 0, dst, dcap, 0⟩
  | .p13Sum c dst dcap => ⟨header 3 4 c 0 0, 0, 0, dst, dcap, 0⟩
  | .p13Clone c d => ⟨header 3 5 c d 0, 0, 0, 0, 0, 0⟩
  | .scInitCc20 c src slen => ⟨header 4 0 c 0 0, src, slen, 0, 0, 0⟩
  | .scInitSs20 c src slen => ⟨header 4 0 c 0 1, src, slen, 0, 0, 0⟩
  | .scInitXcc20 c src slen => ⟨header 4 0 c 0 2, src, slen, 0, 0, 0⟩
  | .scInitXss20 c src slen => ⟨header 4 0 c 0 3, src, slen, 0, 0, 0⟩
  | .aeadInit c d => ⟨header 5 0 c d 0, 0, 0, 0, 0, 0⟩
  | .aeadWrad c src slen => ⟨header 5 1 c 0 0, src, slen, 0, 0, 0⟩
  | .aeadEnc c src slen dst dcap => ⟨header 5 2 c 0 0, src, slen, dst, dcap, 0⟩
  | .aeadDec c src slen dst dcap => ⟨header 5 3 c 0 0, src, slen, dst, dcap, 0⟩
  | .aeadFin c dst dcap => ⟨header 5 4 c 0 0, 0, 0, dst, dcap, 0⟩
  | .aeadVfy c src slen => ⟨header 5 5 c 0 0, src, slen, 0, 0, 0⟩
  | .aeadEncsz c slen => ⟨header 5 6 c 0 0, 0, slen, 0, 0, 0⟩
  | .ascInit128 c src slen => ⟨header 6 0 c 0 0, src, slen, 0, 0, 0⟩
  | .ascInit128a c src slen => ⟨header 6 0 c 0 1, src, slen, 0, 0, 0⟩
  | .ascInit80pq c src slen => ⟨header 6 0 c 0 2, src, slen, 0, 0, 0⟩
  | .ascWrad c src slen => ⟨header 6 1 c 0 0, src, slen, 0, 0, 0⟩
  | .ascEnc c src slen dst dcap => ⟨header 6 2 c 0 0, src, slen, dst, dcap, 0⟩
  | .ascDec c src slen dst dcap => ⟨header 6 3 c 0 0, src, slen, dst, dcap, 0⟩
  | .ascFin c dst dcap => ⟨header 6 4 c 0 0, 0, 0, dst, dcap, 0⟩
  | .ascVfy c src slen => ⟨header 6 5 c 0 0, src, slen, 0, 0, 0⟩
  | .ascEncsz c slen => ⟨header 6 6 c 0 0, 0, slen, 0, 0, 0⟩
  | .ascClone c d => ⟨header 6 7 c d 0, 0, 0, 0, 0, 0⟩
  | .ashInitHash c => ⟨header 7 0 c 0 0, 0, 0, 0, 0, 0⟩
  | .ashInitXof c imm => ⟨header 7 0 c 0 1, 0, 0, 0, 0, imm⟩
  | .ashWrite c src slen => ⟨header 7 1 c 0 0, src, slen, 0, 0, 0⟩
  | .ashSumin c dst dcap => ⟨header 7 2 c 0 0, 0, 0, dst, dcap, 0⟩
  | .ashSum c dst dcap => ⟨header 7 3 c 0 0, 0, 0, dst, dcap, 0⟩
  | .ashClone c d => ⟨header 7 4 c d 0, 0, 0, 0, 0, 0⟩

/-- The descriptor whose 192 bits are `n`, bit 0 the least significant bit of `W0`. -/
def Descriptor.ofNat (n : Nat) : Descriptor :=
  ⟨BitVec.ofNat 32 n, BitVec.ofNat 32 (n / 2 ^ 32), BitVec.ofNat 32 (n / 2 ^ 64),
    BitVec.ofNat 32 (n / 2 ^ 96), BitVec.ofNat 32 (n / 2 ^ 128), BitVec.ofNat 32 (n / 2 ^ 160)⟩

/-- The descriptor a table word of `nbits` bits stands for: every bit above them is 0. -/
def Descriptor.ofTableWord (nbits w : Nat) : Descriptor := Descriptor.ofNat (w % 2 ^ nbits)

/-- The command the decoder reads from a table word. -/
def decodeTableWord (nbits w : Nat) : Option Instr :=
  match decode (Descriptor.ofTableWord nbits w) with
  | .ok i => some i
  | .error _ => none

end Sys2Proof
end

