-- ==== Sys2Proof/Machine/Bytes.lean ====
section
/-! DEFINITION. Byte strings and their integer readings (00_scope.md R8 and R9). -/

namespace Sys2Proof.Machine

/-- `LE(X)`, the unsigned little-endian value of a byte string (R9). -/
def leNat : List Byte → Nat
  | [] => 0
  | b :: X => b.toNat + 256 * leNat X

/-- `toLE(v, n)` (R9). -/
def toLE (v : Nat) : Nat → List Byte
  | 0 => []
  | n + 1 => BitVec.ofNat 8 v :: toLE (v / 256) n

/-- The unsigned big-endian value of a byte string, `BE64(X)` on 8 bytes (R9). -/
def beNat (X : List Byte) : Nat := leNat X.reverse

/-- `toBE(v, n)` (R9). -/
def toBE (v n : Nat) : List Byte := (toLE v n).reverse

/-- `X[i .. j)` (R8). -/
def slice (X : List Byte) (i j : Nat) : List Byte := (X.drop i).take (j - i)

/-- `X ⊕ Y` on byte strings of equal length (R8). -/
def xorBytes (X Y : List Byte) : List Byte := List.zipWith (· ^^^ ·) X Y

/-- `0^n` (R8). -/
def zeros (n : Nat) : List Byte := List.replicate n 0

/-- A byte string as a vector of `n` bytes; exact when it has `n` bytes. -/
def toVec (n : Nat) (X : List Byte) : Vector Byte n := Vector.ofFn fun i => X.getD i 0

/-- The blocks of `bs` bytes that `X` holds whole, in order (41_cbc.md R145). -/
def wholeBlocks (bs : Nat) (X : List Byte) : List (List Byte) :=
  (List.range (X.length / bs)).map fun i => slice X (i * bs) (i * bs + bs)

/-- Whether two strings of 16 bytes agree, by an OR-accumulated XOR over every byte
(43_aead.md R211): no byte is left out and none ends the comparison. -/
def tagsAgree (T X : List Byte) : Bool :=
  (List.range 16).foldl (fun diff i => diff ||| (T.getD i 0 ^^^ X.getD i 0)) (0 : Byte) == 0

end Sys2Proof.Machine
end

