-- ==== Sys2Proof/Machine/Contexts.lean ====
section
/-! DEFINITION. The records of state: the contexts of the six stateful units (10_state.md R24 to
R32), the buffer memory (R23), the implementation parameters (00_scope.md R6) and the acts of the
host (R7). Plain data only. -/

namespace Sys2Proof.Machine

/-- The stage register of an AEAD or Ascon context (R30). Its 2-bit code is the place in the list,
`Init` 0 to `Done` 3. -/
inductive Stage where
  | init
  | associatedData
  | data
  | done
deriving DecidableEq, Repr, Inhabited

/-- CBC context `cbc[c]` (R25). -/
structure CbcCtx where
  valid : Bool
  scheme : Scheme
  iv : List Byte
deriving DecidableEq, Repr, Inhabited

/-- A Poly1305 state (R26): the accumulator limbs `a`, the clamped multiplier limbs `r`, the addend
limbs `s`, the input buffer and the fill pointer (R28). -/
structure P13State where
  valid : Bool
  a : Vector (BitVec 16) 10
  r : Vector (BitVec 13) 10
  s : Vector (BitVec 16) 8
  buf : Vector Byte 16
  fill : BitVec 4
deriving DecidableEq, Repr, Inhabited

/-- An instance of the external stream cipher, the opaque `sigma` of R29: what made it and the
lengths of the calls made on it, the latest first. By laws L1 to L4 of 43_aead.md R200 nothing else
decides what it does next (log 9). -/
structure Sigma where
  cipher : Cipher
  key : List Byte
  nonce : List Byte
  calls : List Nat
deriving DecidableEq, Repr, Inhabited

/-- Stream-cipher handle `sc[c]` (R29). -/
structure ScCtx where
  valid : Bool
  cipher : Cipher
  sigma : Sigma
deriving DecidableEq, Repr, Inhabited

/-- AEAD context `aead[c]` (R29). -/
structure AeadCtx where
  valid : Bool
  cipher : Cipher
  sigma : Sigma
  poly : P13State
  stage : Stage
  adLen : BitVec 64
  ctLen : BitVec 64
deriving DecidableEq, Repr, Inhabited

/-- Ascon AEAD context `asc[c]` (R31). `S` is the 40-byte sponge state (R33). -/
structure AscCtx where
  valid : Bool
  var : AscVar
  S : Vector Byte 40
  cur : BitVec 5
  stage : Stage
  adAny : Bool
  key : List Byte
deriving DecidableEq, Repr, Inhabited

/-- Ascon hash and XOF context `ash[c]` (R32). -/
structure AshCtx where
  valid : Bool
  var : AshVar
  S : Vector Byte 40
  cur : BitVec 4
  dlen : BitVec 32
deriving DecidableEq, Repr, Inhabited

/-- The buffer memory `M` (R23): the bytes that have been written, addresses strictly rising. -/
structure Memory where
  cells : List (Nat × Byte)
deriving DecidableEq, Repr, Inhabited

/-- The implementation parameters of 00_scope.md R6 that are numbers: `NCTX`, `MEM_SIZE`, `BS[c]`
and the block sizes of the four stream ciphers. Fixed for a run, never written (R38; log 2). -/
structure Params where
  nctx : Nat
  memSize : Nat
  blockSize : Vector Nat 16
  chacha20Block : Nat
  salsa20Block : Nat
  xchacha20Block : Nat
  xsalsa20Block : Nat
deriving DecidableEq, Repr

/-- What the host or the platform does between two instants at which the block is idle (R7, R310). -/
inductive HostAction where
  /-- The host presents a command, six words (30_encoding.md R90). -/
  | command (d : Descriptor)
  /-- The host writes bytes to `M` from an address on (R23). -/
  | write (addr : Word) (data : List Byte)
  /-- The platform's reset signal (70_reset_and_hazards.md R310). -/
  | reset
deriving DecidableEq, Repr

end Sys2Proof.Machine
end

