-- ==== Sys2Proof/Config.lean ====
section
/-! DEFINITION. What an implementation fixes and what the spec leaves open: the external cores
(41_cbc.md R140, 43_aead.md R200) and the unspecified values (93_implementation_defined.md U1 to
U6), each an opaque constant with no body, so that a statement holds whatever they are. The
parameters that are numbers are data of the state (`Params`); `Config.params` is the machine that
`State.reset` describes. -/

namespace Sys2Proof

/-- The block cipher on port `c`, for blocks of `bs` bytes: `BC_enc[c]` is the permutation and
`BC_dec[c]` its inverse, so that the law of R140 holds of it by its type (log 8). -/
opaque Config.blockCipher (c : Ctx) (bs : Nat) : Equiv.Perm (Vector Byte bs)

/-- The keystream of the external stream-cipher core (R200): the cipher, its key and nonce, the
lengths of the calls before the instance was last at a block boundary, and the byte's place from
there on (U5; log 9). -/
opaque Config.keystream :
    Cipher → (key nonce : List Byte) → (calls : List Nat) → (place : Nat) → Byte

/-- The byte at an address that nothing has written since power-up (U2; log 3). -/
opaque Config.powerUpByte : (addr : Nat) → Byte

/-- A byte of the destination window after a late error (U3; log 4). -/
opaque Config.windowByte : (event offset : Nat) → Byte

/-- A byte of a Poly1305 buffer that nothing has written (U6; log 6). -/
opaque Config.bufferByte : (event place : Nat) → Byte

/-- The fields of a CBC context that holds no instance (U1; log 5). -/
opaque Config.staleCbc : (event slot : Nat) → Machine.CbcCtx
/-- The fields of a Poly1305 context that holds no instance (U1; log 5). -/
opaque Config.staleP13 : (event slot : Nat) → Machine.P13State
/-- The fields of a stream-cipher handle that holds no instance (U1; log 5). -/
opaque Config.staleSc : (event slot : Nat) → Machine.ScCtx
/-- The fields of an AEAD context that holds no instance or is in stage Done (U1, U4; log 5). -/
opaque Config.staleAead : (event slot : Nat) → Machine.AeadCtx
/-- The fields of an Ascon context that holds no instance or is in stage Done (U1, U4; log 5). -/
opaque Config.staleAsc : (event slot : Nat) → Machine.AscCtx
/-- The fields of an Ascon hash context that holds no instance (U1; log 5). -/
opaque Config.staleAsh : (event slot : Nat) → Machine.AshCtx

/-- The parameters of the machine after `State.reset`: `NCTX` 4, the default of R6; `MEM_SIZE`
65536 and every `BS[c]` 4, the test bench of 95_test_vectors.md; block size 64 for the four stream
ciphers (43_aead.md R201). DESIGN CHOICE (log 2): no statement rests on these values. -/
def Config.params : Machine.Params where
  nctx := 4
  memSize := 65536
  blockSize := Vector.replicate 16 4
  chacha20Block := 64
  salsa20Block := 64
  xchacha20Block := 64
  xsalsa20Block := 64

end Sys2Proof
end

