-- ==== Sys2Proof/Machine/State.lean ====
section
/-! DEFINITION. The state of SUB005-CORE (10_state.md), its reset value (R39), and the ways a step
can stop. -/

namespace Sys2Proof.Machine

/-- Why the machine stops. No command of the spec stops it: an error is a response (60_exceptions.md
R288, R290). -/
inductive Fault where
  /-- Raised by a host write that leaves `M`: the addresses do not exist (R60, R61). Safe: the spec
  gives the host no such write. -/
  | hostWriteOutsideMemory
  /-- Raised by `CBC.ENC` and `CBC.DEC` on a context whose stored IV is not one block: the
  block-cipher port would be handed a string that is not `BS[c]` bytes (U12 of
  93_implementation_defined.md, treatment "stuck"). Safe: no run reaches such a state (log 8). -/
  | portBlockLength
deriving DecidableEq, Repr

/-- Commands the model gives no meaning. -/
inductive Refusal where
  /-- Raised by an arm of `exec` whose command has no meaning yet; no arm raises it. Safe. -/
  | notModelled (mnemonic : String)
deriving DecidableEq, Repr

/-- All state of the block (R22 to R32), and the model's own `par`, `inputs` and `fresh`. Every
unit has 16 slots, as many as a 4-bit context number names; those from `par.nctx` on do not exist
and no command reaches them (R24; log 10). -/
structure State where
  /-- `STATUS`, 8 bits (R22). -/
  status : BitVec 8
  /-- `RESULT`, 32 bits (R22). -/
  result : BitVec 32
  /-- The buffer memory `M` (R23). -/
  mem : Memory
  /-- `cbc[c]` (R25). -/
  cbc : Vector CbcCtx 16
  /-- `p13[c]` (R26). -/
  p13 : Vector P13State 16
  /-- `sc[c]` (R29). -/
  sc : Vector ScCtx 16
  /-- `aead[c]` (R29). -/
  aead : Vector AeadCtx 16
  /-- `asc[c]` (R31). -/
  asc : Vector AscCtx 16
  /-- `ash[c]` (R32). -/
  ash : Vector AshCtx 16
  /-- The implementation parameters, never written (R38; log 2). -/
  par : Params
  /-- The acts of the host still to come, oldest first (R7; log 1). -/
  inputs : List HostAction
  /-- How many free values have been drawn; the argument of the opaque constants (logs 4 to 6). -/
  fresh : Nat
deriving DecidableEq, Repr

/-- A stream-cipher instance at reset. DESIGN CHOICE (log 7): unreadable, R24. -/
def Sigma.blank : Sigma := ⟨.chacha20, [], [], []⟩
/-- A Poly1305 record at reset: `valid` 0 (R39), the rest DESIGN CHOICE zero (log 7). -/
def P13State.blank : P13State where
  valid := false
  a := Vector.replicate 10 0
  r := Vector.replicate 10 0
  s := Vector.replicate 8 0
  buf := Vector.replicate 16 0
  fill := 0
/-- A CBC context at reset: `valid` 0 (R39), the rest DESIGN CHOICE (log 7). -/
def CbcCtx.blank : CbcCtx := ⟨false, .zero, []⟩
/-- A stream-cipher handle at reset: `valid` 0 (R39), the rest DESIGN CHOICE (log 7). -/
def ScCtx.blank : ScCtx := ⟨false, .chacha20, Sigma.blank⟩
/-- An AEAD context at reset: `valid` 0 (R39), the rest DESIGN CHOICE zero (log 7). -/
def AeadCtx.blank : AeadCtx := ⟨false, .chacha20, Sigma.blank, P13State.blank, .init, 0, 0⟩
/-- An Ascon context at reset: `valid` 0 (R39), the rest DESIGN CHOICE zero (log 7). -/
def AscCtx.blank : AscCtx := ⟨false, .ascon128, Vector.replicate 40 0, 0, .init, false, []⟩
/-- An Ascon hash context at reset: `valid` 0 (R39), the rest DESIGN CHOICE zero (log 7). -/
def AshCtx.blank : AshCtx := ⟨false, .hash, Vector.replicate 40 0, 0, 0⟩

/-- The machine right after reset from power-up (R39, R310): `STATUS` and `RESULT` 0, every `valid`
bit 0, no byte of `M` known, no command presented. -/
def State.reset : State where
  status := 0
  result := 0
  mem := ⟨[]⟩
  cbc := Vector.replicate 16 CbcCtx.blank
  p13 := Vector.replicate 16 P13State.blank
  sc := Vector.replicate 16 ScCtx.blank
  aead := Vector.replicate 16 AeadCtx.blank
  asc := Vector.replicate 16 AscCtx.blank
  ash := Vector.replicate 16 AshCtx.blank
  par := Config.params
  inputs := []
  fresh := 0

end Sys2Proof.Machine
end

