-- ==== Sys2Proof/Machine/Flags.lean ====
section
/-! DEFINITION. The conditions of the block: it has no condition codes (10_state.md R34), its
conditions are the error codes of `STATUS` (60_exceptions.md R280), the `valid` bits, the stage
comparisons of R30, and the parameters of an implementation. -/

namespace Sys2Proof.Machine

/-- The six error classes (R280). -/
inductive Err where
  | illegal
  | construct
  | usage
  | content
  | capacity
  | overlap
deriving DecidableEq, Repr

/-- The `STATUS` code of an error (R280); 0 is OK and 7 to 255 are never written. -/
def Err.code : Err → BitVec 8
  | .illegal => 1
  | .construct => 2
  | .usage => 3
  | .content => 4
  | .capacity => 5
  | .overlap => 6

/-- The 2-bit code of a stage (R30). -/
def Stage.code : Stage → Nat
  | .init => 0
  | .associatedData => 1
  | .data => 2
  | .done => 3

/-- `stage ≤ AssociatedData`: associated data may still come (R30). -/
def Stage.beforeData (g : Stage) : Bool := decide (g.code ≤ Stage.associatedData.code)

/-- Step (4) of 30_encoding.md R95: context `c` exists. -/
def State.hasCtx (s : State) (c : Ctx) : Bool := decide (c.toNat < s.par.nctx)

/-- `BS[c]` (00_scope.md R6). -/
def State.blockSizeAt (s : State) (c : Ctx) : Nat := s.par.blockSize[c.toNat]'(by omega)

/-- `sc_blocksize(cipher)` (43_aead.md R200). -/
def Params.streamBlock (p : Params) : Cipher → Nat
  | .chacha20 => p.chacha20Block
  | .salsa20 => p.salsa20Block
  | .xchacha20 => p.xchacha20Block
  | .xsalsa20 => p.xsalsa20Block

/-- The check every command that names context `c` makes first: an absent context is an illegal
descriptor (R95 step (4)). -/
def State.noCtx (s : State) (c : Ctx) : Bool × Err := (!s.hasCtx c, .illegal)

end Sys2Proof.Machine
end

