-- ==== Sys2Proof/Machine/Ops.lean ====
section
/-! DEFINITION. The named operations over memory, contexts and the response registers: memory
(20_memory.md R62, R63), context reads and writes, the end of a command (`done`, R10), taking an
error (60_exceptions.md R285, R288), and reset (70_reset_and_hazards.md R310). -/

namespace Sys2Proof.Machine

/-! ### Memory -/

/-- The byte listed at address `a`, none where nothing has been written. -/
def Memory.lookup (a : Nat) : List (Nat × Byte) → Option Byte
  | [] => none
  | (x, b) :: rest => if x = a then some b else Memory.lookup a rest

/-- What `M` holds at `a`; none for a byte that nothing has written (log 3). -/
def Memory.get? (m : Memory) (a : Nat) : Option Byte := Memory.lookup a m.cells

/-- Writes one byte into a rising list of cells. -/
def Memory.insert (a : Nat) (b : Byte) : List (Nat × Byte) → List (Nat × Byte)
  | [] => [(a, b)]
  | (x, y) :: rest =>
    if a < x then (a, b) :: (x, y) :: rest
    else if a = x then (a, b) :: rest
    else (x, y) :: Memory.insert a b rest

/-- Writes one byte. A written byte never reads as unwritten, so no entry is ever removed. -/
def Memory.put (m : Memory) (a : Nat) (b : Byte) : Memory := ⟨Memory.insert a b m.cells⟩

/-- `MemWrite(addr, |X|, X)` (R63). -/
def Memory.writeBytes (m : Memory) (a : Nat) : List Byte → Memory
  | [] => m
  | b :: X => Memory.writeBytes (m.put a b) (a + 1) X

/-- Whether addresses rise strictly from `lo` on. -/
def Memory.rises (lo : Nat) : List (Nat × Byte) → Bool
  | [] => true
  | (a, _) :: rest => decide (lo ≤ a) && Memory.rises (a + 1) rest

/-- The canonical form: addresses strictly rising. An unlisted address has no value and an entry
always has one, so no entry equals what an unlisted address reads as. -/
def Memory.wf (m : Memory) : Bool := Memory.rises 0 m.cells

/-- The byte a command reads at `a`: what was written, else the free power-up byte (U2; log 3). -/
def State.readByte (s : State) (a : Nat) : Byte := (s.mem.get? a).getD (Config.powerUpByte a)

/-- `MemRead(addr, n)` (R62). -/
def State.readBytes (s : State) (a : Word) (n : Nat) : List Byte :=
  (List.range n).map fun i => s.readByte (a.toNat + i)

/-- `MemWrite(addr, |X|, X)` on the state (R63). -/
def State.writeBytes (s : State) (a : Word) (X : List Byte) : State :=
  { s with mem := s.mem.writeBytes a.toNat X }

/-! ### Contexts -/

/-- Slot `c` of a unit. -/
def slot {α : Type} (v : Vector α 16) (c : Ctx) : α := v[c.toNat]'(by omega)

/-- A unit with slot `c` replaced. -/
def setSlot {α : Type} (v : Vector α 16) (c : Ctx) (x : α) : Vector α 16 :=
  v.set c.toNat x (by omega)

/-- `cbc[c]`. -/
def State.cbcAt (s : State) (c : Ctx) : CbcCtx := slot s.cbc c
/-- `p13[c]`. -/
def State.p13At (s : State) (c : Ctx) : P13State := slot s.p13 c
/-- `sc[c]`. -/
def State.scAt (s : State) (c : Ctx) : ScCtx := slot s.sc c
/-- `aead[c]`. -/
def State.aeadAt (s : State) (c : Ctx) : AeadCtx := slot s.aead c
/-- `asc[c]`. -/
def State.ascAt (s : State) (c : Ctx) : AscCtx := slot s.asc c
/-- `ash[c]`. -/
def State.ashAt (s : State) (c : Ctx) : AshCtx := slot s.ash c

/-- `cbc[c] <- x`. -/
def State.setCbc (s : State) (c : Ctx) (x : CbcCtx) : State := { s with cbc := setSlot s.cbc c x }
/-- `p13[c] <- x`. -/
def State.setP13 (s : State) (c : Ctx) (x : P13State) : State := { s with p13 := setSlot s.p13 c x }
/-- `sc[c] <- x`. -/
def State.setSc (s : State) (c : Ctx) (x : ScCtx) : State := { s with sc := setSlot s.sc c x }
/-- `aead[c] <- x`. -/
def State.setAead (s : State) (c : Ctx) (x : AeadCtx) : State := { s with aead := setSlot s.aead c x }
/-- `asc[c] <- x`. -/
def State.setAsc (s : State) (c : Ctx) (x : AscCtx) : State := { s with asc := setSlot s.asc c x }
/-- `ash[c] <- x`. -/
def State.setAsh (s : State) (c : Ctx) (x : AshCtx) : State := { s with ash := setSlot s.ash c x }

/-- Counts a draw of free values. -/
def State.tick (s : State) : State := { s with fresh := s.fresh + 1 }

/-! ### The end of a command -/

/-- `done(v)`: the command ends with `STATUS` 0 and `RESULT` v (R10). -/
def State.finish (s : State) (v : Nat) : State :=
  { s with status := 0, result := BitVec.ofNat 32 v }

/-- `out(X); done(|X|)`: the output goes to the destination window and its length to `RESULT`
(R10, 20_memory.md R66). -/
def State.output (s : State) (dst : Word) (X : List Byte) : State :=
  (s.writeBytes dst X).finish X.length

/-! ### Taking an error

An error response saves nothing, goes nowhere and needs no return (R288, R290): the block is ready
for the next command at once. -/

/-- `raise E` for an early error: `STATUS` gets the code, `RESULT` 0, nothing else changes
(R285, R288). -/
def State.raise (s : State) (e : Err) : State := { s with status := e.code, result := 0 }

/-- `raise E` for a late error: besides, every byte of the destination window becomes a free value
(R285, U3; log 4). -/
def State.raiseLate (s : State) (e : Err) (dst dcap : Word) : State :=
  ((s.writeBytes dst ((List.range dcap.toNat).map (Config.windowByte s.fresh))).tick).raise e

/-- The first error of a list of checks in the order of R287, each a condition and its error. -/
def firstError : List (Bool × Err) → Option Err
  | [] => none
  | (bad, e) :: rest => if bad then some e else firstError rest

/-- A command: its checks in order, the first that fails being the early error raised (R287), and
what it does when none fails. -/
def command (s : State) (checks : List (Bool × Err)) (body : Host.Outcome State Fault Refusal) :
    Host.Outcome State Fault Refusal :=
  match firstError checks with
  | some e => .next (s.raise e)
  | none => body

/-- The end of a command whose output is known only after it is computed, `none` being a content
error: the late errors in the order of R287, else the output (R66). -/
def State.lateOutput (s : State) (dst dcap : Word) : Option (List Byte) → State
  | none => s.raiseLate .content dst dcap
  | some U =>
    if dcap.toNat < U.length then s.raiseLate .capacity dst dcap else s.output dst U

/-! ### Reset -/

/-- The platform's reset signal (R310): `STATUS`, `RESULT` and every `valid` bit 0, every other
context field a free value (U1; log 5), `M` unchanged. -/
def State.platformReset (s : State) : State :=
  { s with
    status := 0
    result := 0
    cbc := Vector.ofFn fun i => { Config.staleCbc s.fresh i with valid := false }
    p13 := Vector.ofFn fun i => { Config.staleP13 s.fresh i with valid := false }
    sc := Vector.ofFn fun i => { Config.staleSc s.fresh i with valid := false }
    aead := Vector.ofFn fun i => { Config.staleAead s.fresh i with valid := false }
    asc := Vector.ofFn fun i => { Config.staleAsc s.fresh i with valid := false }
    ash := Vector.ofFn fun i => { Config.staleAsh s.fresh i with valid := false }
    fresh := s.fresh + 1 }

end Sys2Proof.Machine
end

