-- ==== Sys2Proof/Machine/Operands.lean ====
section
/-! DEFINITION. Operand forms: the source and destination windows a command names and their checks
(20_memory.md R60 to R66), and the numbers held in descriptor words (30_encoding.md R93). -/

namespace Sys2Proof.Machine

/-- Whether window (addr, len) is in range, on naturals, without wrap-around (R61). -/
def State.inRange (s : State) (addr len : Word) : Bool :=
  len == 0 || decide (addr.toNat + len.toNat ≤ s.par.memSize)

/-- Whether two non-empty windows share an address without being at the same address (R65). -/
def partialOverlap (src slen dst dcap : Word) : Bool :=
  slen != 0 && dcap != 0 && src != dst &&
    decide (src.toNat < dst.toNat + dcap.toNat) && decide (dst.toNat < src.toNat + slen.toNat)

/-- The range check of a window (R61). -/
def State.offRange (s : State) (addr len : Word) : Bool × Err := (!s.inRange addr len, .capacity)

/-- The window checks of a command with a source and a destination: source range, destination
range, overlap (R61, R65, in the order of R287). -/
def State.windowChecks (s : State) (src slen dst dcap : Word) : List (Bool × Err) :=
  [s.offRange src slen, s.offRange dst dcap, (partialOverlap src slen dst dcap, .overlap)]

/-- The source bytes of a command, read whole before anything is written (R64). -/
def State.source (s : State) (src slen : Word) : List Byte := s.readBytes src slen.toNat

end Sys2Proof.Machine
end

