-- ==== Sys2Proof/Machine/Ports.lean ====
section
/-! DEFINITION. The ports of the external cores: the block cipher (41_cbc.md R140) and the stream
cipher (43_aead.md R200). -/

namespace Sys2Proof.Machine

/-- `BC_enc[c]` on a block of `bs` bytes (R140). -/
def bcEnc (c : Ctx) (bs : Nat) (B : List Byte) : List Byte :=
  List.ofFn fun i : Fin bs => (Config.blockCipher c bs (toVec bs B))[i]

/-- `BC_dec[c]` on a block of `bs` bytes (R140). -/
def bcDec (c : Ctx) (bs : Nat) (B : List Byte) : List Byte :=
  List.ofFn fun i : Fin bs => ((Config.blockCipher c bs).symm (toVec bs B))[i]

/-- `sc_init(cipher, key, nonce)`: a fresh instance (R200). -/
def scFresh (cipher : Cipher) (key nonce : List Byte) : Sigma := ⟨cipher, key, nonce, []⟩

/-- Splits the calls made on an instance, the latest first, at its last block boundary: the calls
up to there, and the bytes taken since, a whole number of blocks (law L4 of R200). -/
def sinceBoundary (bs : Nat) : List Nat → List Nat × Nat
  | [] => ([], 0)
  | n :: calls =>
    if n % bs = 0 then
      let split := sinceBoundary bs calls
      (split.1, split.2 + n)
    else (n :: calls, 0)

/-- `KS(σ, n)`, the next `n` keystream bytes of an instance of a cipher with block size `bs` (R200). -/
def keystream (bs : Nat) (σ : Sigma) (n : Nat) : List Byte :=
  let split := sinceBoundary bs σ.calls
  (List.range n).map fun i => Config.keystream σ.cipher σ.key σ.nonce split.1 (split.2 + i)

/-- `sc_xor(σ, X)`, both encryption and decryption: the instance advanced by `|X|` bytes, and `X`
XORed with the keystream (laws L1 and L2 of R200). -/
def scXor (bs : Nat) (σ : Sigma) (X : List Byte) : Sigma × List Byte :=
  ({ σ with calls := X.length :: σ.calls }, xorBytes X (keystream bs σ X.length))

end Sys2Proof.Machine
end

