-- ==== Sys2Proof/Machine/Poly1305.lean ====
section
/-! DEFINITION. The P13 unit (42_poly1305.md): the Poly1305 accumulator in 13-bit limbs, exact to
the limb (R161 to R171), and the six P13 commands. Arithmetic is on natural numbers (00_scope.md
R10); a limb vector is a list of numbers, limb 0 first, and goes back to storage at the end of a
block step. -/

namespace Sys2Proof.Machine

/-- `Σ l[i]·2^(w·i)`, the number a limb vector of digit width `w` stands for (10_state.md R26). -/
def limbValue (w : Nat) : List Nat → Nat
  | [] => 0
  | d :: l => d + 2 ^ w * limbValue w l

/-- The digits of `v` in width `w`, `n` of them. -/
def limbsOf (w v n : Nat) : List Nat := (List.range n).map fun i => (v >>> (w * i)) &&& (2 ^ w - 1)

/-- A stored limb vector as numbers. -/
def limbs {w n : Nat} (v : Vector (BitVec w) n) : List Nat := v.toList.map BitVec.toNat

/-- Numbers into storage of `w` bits each. -/
def storeLimbs (w n : Nat) (l : List Nat) : Vector (BitVec w) n :=
  Vector.ofFn fun i => BitVec.ofNat w (l.getD i 0)

/-- The clamp of R162. -/
def clampMask : Nat := 0x0ffffffc0ffffffc0ffffffc0fffffff

/-- `P13Load(K)` (R162); `junk` is the unspecified content of the buffer (U6). -/
def P13State.load (K : List Byte) (junk : Vector Byte 16) : P13State where
  valid := true
  a := storeLimbs 16 10 []
  r := storeLimbs 13 10 (limbsOf 13 (leNat (slice K 0 16) &&& clampMask) 10)
  s := storeLimbs 16 8 (limbsOf 16 (leNat (slice K 16 32)) 8)
  buf := junk
  fill := 0

/-- The limbs a block adds: bits 13i+12 .. 13i of the block, and the implicit high bit 2^128, bit 11
of limb 9, unless the block is final (R165). -/
def blockLimbs (B : List Byte) (final : Bool) : List Nat :=
  limbsOf 13 (leNat B) 9 ++ [(leNat B >>> 117) ||| (if final then 0 else 0x0800)]

/-- Block step (a): the block is added limb by limb, with no carry (R165). -/
def addBlock (a : List Nat) (B : List Byte) (final : Bool) : List Nat :=
  List.zipWith (· + ·) a (blockLimbs B final)

/-- `m(i, j)`: the multiplier limb that takes limb `j` to limb `i`, with the wrap factor 5 (R166). -/
def mulFactor (r : List Nat) (i j : Nat) : Nat :=
  if j ≤ i then r.getD (i - j) 0 else 5 * r.getD (i + 10 - j) 0

/-- `Σ a[j]·m(i, j)` over the five limbs from `j` on (R166). -/
def halfColumn (a r : List Nat) (i j : Nat) : Nat :=
  ((List.range 5).map fun k => a.getD (j + k) 0 * mulFactor r i (j + k)).sum

/-- Output limb `i` of the product and the carry out of it, `c` being the carry in: one carry after
each five products (R166). -/
def column (a r : List Nat) (i c : Nat) : Nat × Nat :=
  let d := c + halfColumn a r i 0
  let e := (d &&& 0x1fff) + halfColumn a r i 5
  (e &&& 0x1fff, (d >>> 13) + (e >>> 13))

/-- The first `n` output limbs and the carry out of the last (R166). -/
def columns (a r : List Nat) : Nat → List Nat × Nat
  | 0 => ([], 0)
  | n + 1 =>
    let before := columns a r n
    let here := column a r n before.2
    (before.1 ++ [here.1], here.2)

/-- Block step, end: the carry out of limb 9 weighs 5 at limb 0, and the carry out of that goes to
limb 1 and no further (R167). -/
def foldCarry (D : List Nat) (c : Nat) : List Nat :=
  let c := 5 * c + D.getD 0 0
  (D.set 0 (c &&& 0x1fff)).set 1 (D.getD 1 0 + (c >>> 13))

/-- Block step (b): multiply by `r` modulo 2^130 - 5 and fold (R166, R167). -/
def mulLimbs (a r : List Nat) : List Nat :=
  let product := columns a r 10
  foldCarry product.1 product.2

/-- `P13Block(st, B, final)` (R165 to R167). -/
def P13State.block (st : P13State) (B : List Byte) (final : Bool) : P13State :=
  { st with a := storeLimbs 16 10 (mulLimbs (addBlock (limbs st.a) B final) (limbs st.r)) }

/-- One byte of the absorbing loop: it goes to the buffer, and a sixteenth byte is hashed with the
fifteen before it at once (R164; eager, D16). -/
def P13State.absorb (st : P13State) (b : Byte) : P13State :=
  let buf := st.buf.set st.fill.toNat b (by omega)
  if st.fill.toNat + 1 = 16 then
    { (({ st with buf := buf } : P13State).block buf.toList false) with fill := 0 }
  else { st with buf := buf, fill := st.fill + 1 }

/-- The absorbing loop of R164, `PolyWrite` of 43_aead.md. -/
def P13State.write (st : P13State) (X : List Byte) : P13State := X.foldl P13State.absorb st

/-- Carries `c` into a limb vector and through it: the limbs, each below 2^13, and the carry out. -/
def ripple (c : Nat) : List Nat → List Nat × Nat
  | [] => ([], c)
  | d :: l =>
    let rest := ripple ((d + c) >>> 13) l
    (((d + c) &&& 0x1fff) :: rest.1, rest.2)

/-- Finalize step 2: the full carry propagation, from limb 1 to limb 9, into limb 0 with weight 5,
and on to limbs 1 and 2 (R169). -/
def fullCarry (a : List Nat) : List Nat :=
  let up := ripple 0 a.tail
  let a0 := a.getD 0 0 + 5 * up.2
  let a1 := up.1.getD 0 0 + (a0 >>> 13)
  (a0 &&& 0x1fff) :: (a1 &&& 0x1fff) :: (up.1.getD 1 0 + (a1 >>> 13)) :: up.1.drop 2

/-- Finalize step 3: `A - P` is taken where the subtraction does not borrow, else `A`, by masks
(R170). -/
def selectReduced (a : List Nat) : List Nat :=
  let g := ripple 5 a
  let mask := if g.2 = 1 then 0x1fff else 0
  List.zipWith (fun x y => (x &&& (mask ^^^ 0x1fff)) ||| (y &&& mask)) a g.1

/-- The addition of `s` in 16-bit limbs, the carry out of the last one dropped (R171). -/
def addAddend : (carry : Nat) → (u s : List Nat) → List Nat
  | f, u :: us, s :: ss => ((u + s + f) &&& 0xffff) :: addAddend ((u + s + f) >>> 16) us ss
  | _, _, _ => []

/-- Finalize step 4: the low 128 bits in 16-bit limbs, plus `s`, as 16 little-endian bytes (R171). -/
def emitTag (h s : List Nat) : List Byte :=
  ((addAddend 0 (limbsOf 16 (limbValue 13 h % 2 ^ 128) 8) s).map fun u => toLE u 2).flatten

/-- Finalize step 1: a short last block gets its `01` byte and one more pass (R168). -/
def P13State.closeLast (st : P13State) : P13State :=
  if 0 < st.fill.toNat then
    st.block (st.buf.toList.take st.fill.toNat ++ 0x01 :: zeros (15 - st.fill.toNat)) true
  else st

/-- `P13Final(st)` (R168 to R171). -/
def P13State.final (st : P13State) : List Byte :=
  emitTag (selectReduced (fullCarry (limbs st.closeLast.a))) (limbs st.s)

/-- The unspecified bytes a key load leaves in the buffer (R162, U6; log 6). -/
def State.junkBuffer (s : State) : Vector Byte 16 := Vector.ofFn fun i => Config.bufferByte s.fresh i

/-- What is left of a consumed Poly1305 context (R36, U1; log 5). -/
def consumedP13 (event : Nat) (c : Ctx) : P13State :=
  { Config.staleP13 event c.toNat with valid := false }

/-! ### The commands -/

/-- `P13.INIT` (R161). -/
def execP13Init (c : Ctx) (src slen : Word) (s : State) : Host.Outcome State Fault Refusal :=
  command s [s.noCtx c, (slen.toNat != 32, .construct), s.offRange src slen]
    (.next ((s.setP13 c (P13State.load (s.source src slen) s.junkBuffer)).tick.finish 0))

/-- `P13.INITSC` (R163): the key is the first 32 bytes of the handle's next keystream block. -/
def execP13Initsc (c h : Ctx) (s : State) : Host.Outcome State Fault Refusal :=
  let x := s.scAt h
  let n := s.par.streamBlock x.cipher
  let y := scXor n x.sigma (zeros n)
  command s [s.noCtx c, s.noCtx h, (!x.valid, .usage), (n < 32, .construct)]
    (.next (((s.setSc h { x with sigma := y.1 }).setP13 c
      (P13State.load (slice y.2 0 32) s.junkBuffer)).tick.finish 0))

/-- `P13.WRITE` (R164). -/
def execP13Write (c : Ctx) (src slen : Word) (s : State) : Host.Outcome State Fault Refusal :=
  command s [s.noCtx c, (!(s.p13At c).valid, .usage), s.offRange src slen]
    (.next ((s.setP13 c ((s.p13At c).write (s.source src slen))).finish 0))

/-- The checks of `P13.SUMIN` and `P13.SUM` (R172, R173). -/
def State.p13SumChecks (s : State) (c : Ctx) (dst dcap : Word) : List (Bool × Err) :=
  [s.noCtx c, (!(s.p13At c).valid, .usage), (dcap.toNat < 16, .capacity), s.offRange dst dcap]

/-- `P13.SUMIN` (R172): the tag is written and the context consumed. -/
def execP13Sumin (c : Ctx) (dst dcap : Word) (s : State) : Host.Outcome State Fault Refusal :=
  command s (s.p13SumChecks c dst dcap)
    (.next ((s.setP13 c (consumedP13 s.fresh c)).tick.output dst (s.p13At c).final))

/-- `P13.SUM` (R173): the tag of a copy; the context is unchanged. -/
def execP13Sum (c : Ctx) (dst dcap : Word) (s : State) : Host.Outcome State Fault Refusal :=
  command s (s.p13SumChecks c dst dcap) (.next (s.output dst (s.p13At c).final))

/-- `P13.CLONE` (R174). -/
def execP13Clone (c d : Ctx) (s : State) : Host.Outcome State Fault Refusal :=
  command s [s.noCtx c, s.noCtx d, (!(s.p13At c).valid, .usage)]
    (.next ((s.setP13 d (s.p13At c)).finish 0))

end Sys2Proof.Machine
end

