-- ==== Sys2Proof/Machine/Aead.lean ====
section
/-! DEFINITION. The SC and AEAD units (43_aead.md): the four handle constructors, the Poly1305 AEAD
composer and its seven commands. -/

namespace Sys2Proof.Machine

/-! ### Stream-cipher handles -/

/-- `SCInit(h, cipher, nlen)` (R201): the source window holds the 32-byte key, then the nonce. -/
def execScInit (cipher : Cipher) (nlen : Nat) (h : Ctx) (src slen : Word) (s : State) :
    Host.Outcome State Fault Refusal :=
  command s [s.noCtx h, (slen.toNat != 32 + nlen, .construct), s.offRange src slen]
    (let X := s.source src slen
     .next ((s.setSc h ⟨true, cipher,
      scFresh cipher (slice X 0 32) (slice X 32 (32 + nlen))⟩).finish 0))

/-- `SC.INIT.CC20` (R213). -/
def execScInitCc20 (h : Ctx) (src slen : Word) (s : State) : Host.Outcome State Fault Refusal :=
  execScInit .chacha20 12 h src slen s

/-- `SC.INIT.SS20` (R214). -/
def execScInitSs20 (h : Ctx) (src slen : Word) (s : State) : Host.Outcome State Fault Refusal :=
  execScInit .salsa20 8 h src slen s

/-- `SC.INIT.XCC20` (R215). -/
def execScInitXcc20 (h : Ctx) (src slen : Word) (s : State) : Host.Outcome State Fault Refusal :=
  execScInit .xchacha20 24 h src slen s

/-- `SC.INIT.XSS20` (R216). -/
def execScInitXss20 (h : Ctx) (src slen : Word) (s : State) : Host.Outcome State Fault Refusal :=
  execScInit .xsalsa20 24 h src slen s

/-! ### The composer -/

/-- `0^(16 - k)`, k = n mod 16, or nothing when `n` is a multiple of 16 (R204, R209). -/
def pad16 (n : Nat) : List Byte := if n % 16 = 0 then [] else zeros (16 - n % 16)

/-- `FinalizeAD(x)` (R204). -/
def AeadCtx.finalizeAD (x : AeadCtx) : AeadCtx :=
  if x.stage.beforeData then
    { x with poly := x.poly.write (pad16 x.adLen.toNat), stage := .data }
  else x

/-- The associated data of one `AEAD.WRAD` (R206). -/
def AeadCtx.writeAD (x : AeadCtx) (X : List Byte) : AeadCtx :=
  { x with
    poly := x.poly.write X
    adLen := x.adLen + BitVec.ofNat 64 X.length
    stage := .associatedData }

/-- Ciphertext goes into the running hash and its length into the counter (R207, R208). -/
def AeadCtx.hashCiphertext (x : AeadCtx) (Y : List Byte) : AeadCtx :=
  { x with poly := x.poly.write Y, ctLen := x.ctLen + BitVec.ofNat 64 Y.length }

/-- `AEAD.ENC` on a context: the ciphertext is hashed, never the plaintext (R207). -/
def AeadCtx.encrypt (bs : Nat) (x : AeadCtx) (X : List Byte) : AeadCtx × List Byte :=
  let y := scXor bs x.sigma X
  ({ x.finalizeAD.hashCiphertext y.2 with sigma := y.1 }, y.2)

/-- `AEAD.DEC` on a context: the ciphertext is hashed as given, before it is inverted (R208). -/
def AeadCtx.decrypt (bs : Nat) (x : AeadCtx) (X : List Byte) : AeadCtx × List Byte :=
  let y := scXor bs x.sigma X
  ({ x.finalizeAD.hashCiphertext X with sigma := y.1 }, y.2)

/-- The tag `AeadTag(x)` returns (R209): both lengths follow the padded ciphertext. -/
def AeadCtx.tag (x : AeadCtx) : List Byte :=
  let y := x.finalizeAD
  ((y.poly.write (pad16 y.ctLen.toNat)).write
    (toLE y.adLen.toNat 8 ++ toLE y.ctLen.toNat 8)).final

/-- An AEAD context after `FIN` or `VFY` (R209, R36): valid, in stage Done, its `poly` consumed,
every other field unspecified (U4; log 5). -/
def consumedAead (event : Nat) (c : Ctx) : AeadCtx :=
  let x := Config.staleAead event c.toNat
  { x with valid := true, stage := .done, poly := { x.poly with valid := false } }

/-- What is left of a handle that `AEAD.INIT` took (R205, U1; log 5). -/
def consumedSc (event : Nat) (h : Ctx) : ScCtx :=
  { Config.staleSc event h.toNat with valid := false }

/-- The usage check of every AEAD command but `WRAD` and `ENCSZ`: no instance, or stage Done
(R203). -/
def AeadCtx.finished (x : AeadCtx) : Bool × Err := (!x.valid || x.stage == .done, .usage)

/-- `AEAD.INIT` (R205), with the key derivation of R202. -/
def execAeadInit (c h : Ctx) (s : State) : Host.Outcome State Fault Refusal :=
  let x := s.scAt h
  let n := s.par.streamBlock x.cipher
  let y := scXor n x.sigma (zeros n)
  command s [s.noCtx c, s.noCtx h, (!x.valid, .usage), (n < 32, .construct)]
    (.next (((s.setAead c
      { valid := true, cipher := x.cipher, sigma := y.1,
        poly := P13State.load (slice y.2 0 32) s.junkBuffer, stage := .init,
        adLen := 0, ctLen := 0 }).setSc h (consumedSc s.fresh h)).tick.finish 0))

/-- `AEAD.WRAD` (R206). -/
def execAeadWrad (c : Ctx) (src slen : Word) (s : State) : Host.Outcome State Fault Refusal :=
  let x := s.aeadAt c
  command s
    [s.noCtx c, (!x.valid || !x.stage.beforeData, .usage),
      (2 ^ 64 ≤ x.adLen.toNat + slen.toNat, .capacity), s.offRange src slen]
    (.next ((s.setAead c (x.writeAD (s.source src slen))).finish 0))

/-- The checks of `AEAD.ENC` and `AEAD.DEC` (R207, R208). -/
def State.aeadDataChecks (s : State) (c : Ctx) (src slen dst dcap : Word) : List (Bool × Err) :=
  [s.noCtx c, (s.aeadAt c).finished, (dcap.toNat < slen.toNat, .capacity),
    (2 ^ 64 ≤ (s.aeadAt c).ctLen.toNat + slen.toNat, .capacity)] ++
    s.windowChecks src slen dst dcap

/-- `AEAD.ENC` (R207). -/
def execAeadEnc (c : Ctx) (src slen dst dcap : Word) (s : State) :
    Host.Outcome State Fault Refusal :=
  let x := s.aeadAt c
  let y := x.encrypt (s.par.streamBlock x.cipher) (s.source src slen)
  command s (s.aeadDataChecks c src slen dst dcap) (.next ((s.setAead c y.1).output dst y.2))

/-- `AEAD.DEC` (R208). -/
def execAeadDec (c : Ctx) (src slen dst dcap : Word) (s : State) :
    Host.Outcome State Fault Refusal :=
  let x := s.aeadAt c
  let y := x.decrypt (s.par.streamBlock x.cipher) (s.source src slen)
  command s (s.aeadDataChecks c src slen dst dcap) (.next ((s.setAead c y.1).output dst y.2))

/-- `AEAD.FIN` (R210). -/
def execAeadFin (c : Ctx) (dst dcap : Word) (s : State) : Host.Outcome State Fault Refusal :=
  let x := s.aeadAt c
  command s [s.noCtx c, x.finished, (dcap.toNat < 16, .capacity), s.offRange dst dcap]
    (.next ((s.setAead c (consumedAead s.fresh c)).tick.output dst x.tag))

/-- `AEAD.VFY` (R211): a mismatch is a result, not an error (60_exceptions.md R297). -/
def execAeadVfy (c : Ctx) (src slen : Word) (s : State) : Host.Outcome State Fault Refusal :=
  let x := s.aeadAt c
  command s [s.noCtx c, x.finished, (slen.toNat != 16, .capacity), s.offRange src slen]
    (.next ((s.setAead c (consumedAead s.fresh c)).tick.finish
      (if tagsAgree x.tag (s.source src slen) then 1 else 0)))

/-- `AEAD.ENCSZ` (R212). -/
def execAeadEncsz (c : Ctx) (slen : Word) (s : State) : Host.Outcome State Fault Refusal :=
  command s [s.noCtx c, (!(s.aeadAt c).valid, .usage)] (.next (s.finish slen.toNat))

end Sys2Proof.Machine
end

