-- ==== Sys2Proof/Machine/Ascon.lean ====
section
/-! DEFINITION. The Ascon permutation core (44_ascon.md R231 to R235) and what both units that use
it share: the variants' parameters and the 40-byte state. -/

namespace Sys2Proof

/-! ### Parameters (R231) -/

/-- Key bytes of a variant. -/
def AscVar.klen : AscVar → Nat
  | .ascon128 => 16
  | .ascon128a => 16
  | .ascon80pq => 20

/-- Rate bytes of a variant. -/
def AscVar.rate : AscVar → Nat
  | .ascon128 => 8
  | .ascon128a => 16
  | .ascon80pq => 8

/-- `a`, the rounds of initialization and finalization. -/
def AscVar.aRounds : AscVar → Nat
  | .ascon128 => 12
  | .ascon128a => 12
  | .ascon80pq => 12

/-- `b`, the rounds between rate blocks. -/
def AscVar.bRounds : AscVar → Nat
  | .ascon128 => 6
  | .ascon128a => 8
  | .ascon80pq => 6

namespace Machine

/-! ### The permutation -/

/-- The five 64-bit lanes of the state (10_state.md R33). -/
structure Lanes where
  x0 : BitVec 64
  x1 : BitVec 64
  x2 : BitVec 64
  x3 : BitVec 64
  x4 : BitVec 64
deriving DecidableEq, Repr

/-- The round constants, `RC[0]` first (R232). -/
def roundConstants : List (BitVec 64) :=
  [0xf0, 0xe1, 0xd2, 0xc3, 0xb4, 0xa5, 0x96, 0x87, 0x78, 0x69, 0x5a, 0x4b]

/-- Round step 1: the constant goes into lane 2 (R233). -/
def addConstant (c : BitVec 64) (x : Lanes) : Lanes := { x with x2 := x.x2 ^^^ c }

/-- Round step 2, the substitution layer, its four lines in order (R234). -/
def substitute (x : Lanes) : Lanes :=
  let x0 := x.x0 ^^^ x.x4
  let x4 := x.x4 ^^^ x.x3
  let x2 := x.x2 ^^^ x.x1
  let x1 := x.x1
  let x3 := x.x3
  let t0 := ~~~x0 &&& x1
  let t1 := ~~~x1 &&& x2
  let t2 := ~~~x2 &&& x3
  let t3 := ~~~x3 &&& x4
  let t4 := ~~~x4 &&& x0
  let x0 := x0 ^^^ t1
  let x1 := x1 ^^^ t2
  let x2 := x2 ^^^ t3
  let x3 := x3 ^^^ t4
  let x4 := x4 ^^^ t0
  let x1 := x1 ^^^ x0
  let x0 := x0 ^^^ x4
  let x3 := x3 ^^^ x2
  let x2 := ~~~x2
  ⟨x0, x1, x2, x3, x4⟩

/-- `x ^ ror64(x, m) ^ ror64(x, n)` (R235). -/
def mixLane (x : BitVec 64) (m n : Nat) : BitVec 64 := x ^^^ x.rotateRight m ^^^ x.rotateRight n

/-- Round step 3, the linear diffusion layer (R235). -/
def diffuse (x : Lanes) : Lanes :=
  ⟨mixLane x.x0 19 28, mixLane x.x1 61 39, mixLane x.x2 1 6, mixLane x.x3 10 17, mixLane x.x4 7 41⟩

/-- One round (R233 to R235). -/
def asconRound (x : Lanes) (c : BitVec 64) : Lanes := diffuse (substitute (addConstant c x))

/-- Lane `i` of a state, big-endian (R232). -/
def laneOf (S : Vector Byte 40) (i : Nat) : BitVec 64 :=
  BitVec.ofNat 64 (beNat (slice S.toList (8 * i) (8 * i + 8)))

/-- The lanes of a state (R232). -/
def lanesOf (S : Vector Byte 40) : Lanes :=
  ⟨laneOf S 0, laneOf S 1, laneOf S 2, laneOf S 3, laneOf S 4⟩

/-- The state of five lanes (R232). -/
def bytesOf (x : Lanes) : Vector Byte 40 :=
  toVec 40 (toBE x.x0.toNat 8 ++ toBE x.x1.toNat 8 ++ toBE x.x2.toNat 8 ++ toBE x.x3.toNat 8 ++
    toBE x.x4.toNat 8)

/-- `Perm(S, n)`: the last `n` of the twelve rounds (R232). -/
def perm (S : Vector Byte 40) (n : Nat) : Vector Byte 40 :=
  bytesOf ((roundConstants.drop (12 - n)).foldl asconRound (lanesOf S))

/-! ### The 40-byte state -/

/-- `S[off .. off+|X|) ^= X`. -/
def xorInto (S : Vector Byte 40) (off : Nat) (X : List Byte) : Vector Byte 40 :=
  Vector.ofFn fun i => if off ≤ i.val then S[i] ^^^ X.getD (i.val - off) 0 else S[i]

/-- `S[i]`. -/
def byteAt (S : Vector Byte 40) (i : Nat) : Byte := S.toList.getD i 0

/-- `S[i] <- v`. -/
def setByte (S : Vector Byte 40) (i : Nat) (v : Byte) : Vector Byte 40 :=
  S.setIfInBounds i v

end Machine

end Sys2Proof
end

