-- ==== Sys2Proof/Machine/Asc.lean ====
section
/-! DEFINITION. The ASC unit (44_ascon.md R236 to R250): Ascon AEAD and its ten commands. -/

namespace Sys2Proof.Machine

/-- The seeded state: header, key against the nonce, nonce (R236). -/
def ascSeed (v : AscVar) (K N : List Byte) : Vector Byte 40 :=
  toVec 40
    ([BitVec.ofNat 8 (8 * v.klen), BitVec.ofNat 8 (8 * v.rate), BitVec.ofNat 8 v.aRounds,
        BitVec.ofNat 8 v.bRounds] ++ zeros (20 - v.klen) ++ K ++ N)

/-- The instance that `AscInit(c, var)` constructs (R236). -/
def AscCtx.construct (v : AscVar) (K N : List Byte) : AscCtx where
  valid := true
  var := v
  S := xorInto (perm (ascSeed v K N) v.aRounds) (40 - v.klen) K
  cur := 0
  stage := .init
  adAny := false
  key := K

/-- The cursor moves on by a byte that now stands in the state, and a full rate block is permuted
(R241, R244, R245). -/
def AscCtx.advance (x : AscCtx) : AscCtx :=
  if x.cur.toNat + 1 = x.var.rate then { x with S := perm x.S x.var.bRounds, cur := 0 }
  else { x with cur := x.cur + 1 }

/-- The byte at the cursor. -/
def AscCtx.here (x : AscCtx) : Byte := byteAt x.S x.cur.toNat

/-- The byte at the cursor replaced. -/
def AscCtx.put (x : AscCtx) (v : Byte) : AscCtx := { x with S := setByte x.S x.cur.toNat v }

/-- `Absorb(x, v)` (R241). -/
def AscCtx.absorb (x : AscCtx) (v : Byte) : AscCtx := (x.put (x.here ^^^ v)).advance

/-- The domain-separation bit (R242). -/
def AscCtx.separate (x : AscCtx) : AscCtx := { x with S := xorInto x.S 39 [0x01], stage := .data }

/-- `AscFinalizeAD(x)`: absorbed data is closed by its terminator, then the domains are separated
(R242). -/
def AscCtx.finalizeAD (x : AscCtx) : AscCtx :=
  if x.stage.beforeData then
    (if x.adAny then
      { x with S := perm (x.put (x.here ^^^ 0x80)).S x.var.bRounds, cur := 0 }
    else x).separate
  else x

/-- The associated data of one `ASC.WRAD` (R243). -/
def AscCtx.writeAD (x : AscCtx) (X : List Byte) : AscCtx :=
  { X.foldl (fun y v => { y.absorb v with adAny := true }) x with stage := .associatedData }

/-- The encryption loop of R244: the ciphertext byte is what the state then holds. -/
def AscCtx.encLoop (x : AscCtx) : List Byte → AscCtx × List Byte
  | [] => (x, [])
  | v :: X =>
    let rest := (x.absorb v).encLoop X
    (rest.1, (x.here ^^^ v) :: rest.2)

/-- The decryption loop of R245: the state takes the ciphertext byte. -/
def AscCtx.decLoop (x : AscCtx) : List Byte → AscCtx × List Byte
  | [] => (x, [])
  | v :: X =>
    let rest := ((x.put v).advance).decLoop X
    (rest.1, (x.here ^^^ v) :: rest.2)

/-- `ASC.ENC` on a context (R244). -/
def AscCtx.encrypt (x : AscCtx) (X : List Byte) : AscCtx × List Byte := x.finalizeAD.encLoop X

/-- `ASC.DEC` on a context (R245). -/
def AscCtx.decrypt (x : AscCtx) (X : List Byte) : AscCtx × List Byte := x.finalizeAD.decLoop X

/-- The state `AscTag(x)` leaves, whose last 16 bytes are the tag (R246). -/
def AscCtx.finalState (x : AscCtx) : Vector Byte 40 :=
  let y := x.finalizeAD
  let S := xorInto (y.put (y.here ^^^ 0x80)).S y.var.rate y.key
  xorInto (perm S y.var.aRounds) 24 (slice y.key (y.var.klen - 16) y.var.klen)

/-- The tag `AscTag(x)` returns (R246). -/
def AscCtx.tag (x : AscCtx) : List Byte := slice x.finalState.toList 24 40

/-- An Ascon context after `FIN` or `VFY` (R246, R36): valid, in stage Done, every other field
unspecified (U4; log 5). -/
def consumedAsc (event : Nat) (c : Ctx) : AscCtx :=
  { Config.staleAsc event c.toNat with valid := true, stage := .done }

/-- The usage check of every ASC command but `WRAD`, `ENCSZ` and `CLONE`: no instance, or stage
Done (R240). -/
def AscCtx.finished (x : AscCtx) : Bool × Err := (!x.valid || x.stage == .done, .usage)

/-! ### The commands -/

/-- `AscInit(c, var)` (R236): the source window holds the key, then the 16-byte nonce. -/
def execAscInit (v : AscVar) (c : Ctx) (src slen : Word) (s : State) :
    Host.Outcome State Fault Refusal :=
  command s [s.noCtx c, (slen.toNat != v.klen + 16, .construct), s.offRange src slen]
    (let X := s.source src slen
     .next ((s.setAsc c (AscCtx.construct v (slice X 0 v.klen)
      (slice X v.klen (v.klen + 16)))).finish 0))

/-- `ASC.INIT.128` (R237). -/
def execAscInit128 (c : Ctx) (src slen : Word) (s : State) : Host.Outcome State Fault Refusal :=
  execAscInit .ascon128 c src slen s

/-- `ASC.INIT.128A` (R238). -/
def execAscInit128a (c : Ctx) (src slen : Word) (s : State) : Host.Outcome State Fault Refusal :=
  execAscInit .ascon128a c src slen s

/-- `ASC.INIT.80PQ` (R239). -/
def execAscInit80pq (c : Ctx) (src slen : Word) (s : State) : Host.Outcome State Fault Refusal :=
  execAscInit .ascon80pq c src slen s

/-- `ASC.WRAD` (R243). -/
def execAscWrad (c : Ctx) (src slen : Word) (s : State) : Host.Outcome State Fault Refusal :=
  let x := s.ascAt c
  command s [s.noCtx c, (!x.valid || !x.stage.beforeData, .usage), s.offRange src slen]
    (.next ((s.setAsc c (x.writeAD (s.source src slen))).finish 0))

/-- The checks of `ASC.ENC` and `ASC.DEC` (R244, R245). -/
def State.ascDataChecks (s : State) (c : Ctx) (src slen dst dcap : Word) : List (Bool × Err) :=
  [s.noCtx c, (s.ascAt c).finished, (dcap.toNat < slen.toNat, .capacity)] ++
    s.windowChecks src slen dst dcap

/-- `ASC.ENC` (R244). -/
def execAscEnc (c : Ctx) (src slen dst dcap : Word) (s : State) :
    Host.Outcome State Fault Refusal :=
  let y := (s.ascAt c).encrypt (s.source src slen)
  command s (s.ascDataChecks c src slen dst dcap) (.next ((s.setAsc c y.1).output dst y.2))

/-- `ASC.DEC` (R245). -/
def execAscDec (c : Ctx) (src slen dst dcap : Word) (s : State) :
    Host.Outcome State Fault Refusal :=
  let y := (s.ascAt c).decrypt (s.source src slen)
  command s (s.ascDataChecks c src slen dst dcap) (.next ((s.setAsc c y.1).output dst y.2))

/-- `ASC.FIN` (R247). -/
def execAscFin (c : Ctx) (dst dcap : Word) (s : State) : Host.Outcome State Fault Refusal :=
  let x := s.ascAt c
  command s [s.noCtx c, x.finished, (dcap.toNat < 16, .capacity), s.offRange dst dcap]
    (.next ((s.setAsc c (consumedAsc s.fresh c)).tick.output dst x.tag))

/-- `ASC.VFY` (R248): a mismatch is a result, not an error (60_exceptions.md R297). -/
def execAscVfy (c : Ctx) (src slen : Word) (s : State) : Host.Outcome State Fault Refusal :=
  let x := s.ascAt c
  command s [s.noCtx c, x.finished, (slen.toNat != 16, .capacity), s.offRange src slen]
    (.next ((s.setAsc c (consumedAsc s.fresh c)).tick.finish
      (if tagsAgree x.tag (s.source src slen) then 1 else 0)))

/-- `ASC.ENCSZ` (R249). -/
def execAscEncsz (c : Ctx) (slen : Word) (s : State) : Host.Outcome State Fault Refusal :=
  command s [s.noCtx c, (!(s.ascAt c).valid, .usage)] (.next (s.finish slen.toNat))

/-- `ASC.CLONE` (R250): the stage and the key are copied too. -/
def execAscClone (c d : Ctx) (s : State) : Host.Outcome State Fault Refusal :=
  command s [s.noCtx c, s.noCtx d, (!(s.ascAt c).valid, .usage)]
    (.next ((s.setAsc d (s.ascAt c)).finish 0))

end Sys2Proof.Machine
end

