-- ==== Sys2Proof/Machine/Ash.lean ====
section
/-! DEFINITION. The ASH unit (44_ascon.md R251 to R258): Ascon-Hash, Ascon-Xof and their six
commands. Rate 8 and 12 rounds everywhere (R231). -/

namespace Sys2Proof

/-- The header of a variant (R251). -/
def AshVar.header : AshVar → List Byte
  | .hash => [0x00, 0x40, 0x0c, 0x00, 0x00, 0x00, 0x01, 0x00]
  | .xof => [0x00, 0x40, 0x0c, 0x00, 0x00, 0x00, 0x00, 0x00]

namespace Machine

/-- The instance that `AshInit(c, var, dlen)` constructs (R251). -/
def AshCtx.construct (v : AshVar) (dlen : Word) : AshCtx where
  valid := true
  var := v
  S := perm (toVec 40 (v.header ++ zeros 32)) 12
  cur := 0
  dlen := dlen

/-- The absorbing loop of R254, one byte. -/
def AshCtx.absorb (x : AshCtx) (v : Byte) : AshCtx :=
  let S := setByte x.S x.cur.toNat (byteAt x.S x.cur.toNat ^^^ v)
  if x.cur.toNat + 1 = 8 then { x with S := perm S 12, cur := 0 }
  else { x with S := S, cur := x.cur + 1 }

/-- The absorbing loop of R254. -/
def AshCtx.write (x : AshCtx) (X : List Byte) : AshCtx := X.foldl AshCtx.absorb x

/-- `n` output blocks of 8 bytes, a permutation before each but the first (R255). -/
def squeeze (S : Vector Byte 40) : Nat → List Byte
  | 0 => []
  | n + 1 => slice S.toList 0 8 ++ squeeze (perm S 12) n

/-- `AshDigest(x)` (R255): terminator, permutation, then `dlen` bytes of output blocks. -/
def AshCtx.digest (x : AshCtx) : List Byte :=
  let S := perm (setByte x.S x.cur.toNat (byteAt x.S x.cur.toNat ^^^ 0x80)) 12
  (squeeze S ((x.dlen.toNat + 7) / 8)).take x.dlen.toNat

/-- What is left of a consumed hash context (R36, U1; log 5). -/
def consumedAsh (event : Nat) (c : Ctx) : AshCtx :=
  { Config.staleAsh event c.toNat with valid := false }

/-- `ASH.INIT.HASH` (R252). -/
def execAshInitHash (c : Ctx) (s : State) : Host.Outcome State Fault Refusal :=
  command s [s.noCtx c] (.next ((s.setAsh c (AshCtx.construct .hash 32)).finish 0))

/-- `ASH.INIT.XOF` (R253): the digest length is any 32-bit value. -/
def execAshInitXof (c : Ctx) (imm : Word) (s : State) : Host.Outcome State Fault Refusal :=
  command s [s.noCtx c] (.next ((s.setAsh c (AshCtx.construct .xof imm)).finish 0))

/-- `ASH.WRITE` (R254). -/
def execAshWrite (c : Ctx) (src slen : Word) (s : State) : Host.Outcome State Fault Refusal :=
  command s [s.noCtx c, (!(s.ashAt c).valid, .usage), s.offRange src slen]
    (.next ((s.setAsh c ((s.ashAt c).write (s.source src slen))).finish 0))

/-- The checks of `ASH.SUMIN` and `ASH.SUM` (R256, R257). -/
def State.ashSumChecks (s : State) (c : Ctx) (dst dcap : Word) : List (Bool × Err) :=
  [s.noCtx c, (!(s.ashAt c).valid, .usage), (dcap.toNat < (s.ashAt c).dlen.toNat, .capacity),
    s.offRange dst dcap]

/-- `ASH.SUMIN` (R256): the digest is written and the context consumed. -/
def execAshSumin (c : Ctx) (dst dcap : Word) (s : State) : Host.Outcome State Fault Refusal :=
  command s (s.ashSumChecks c dst dcap)
    (.next ((s.setAsh c (consumedAsh s.fresh c)).tick.output dst (s.ashAt c).digest))

/-- `ASH.SUM` (R257): the digest of a copy; the context is unchanged. -/
def execAshSum (c : Ctx) (dst dcap : Word) (s : State) : Host.Outcome State Fault Refusal :=
  command s (s.ashSumChecks c dst dcap) (.next (s.output dst (s.ashAt c).digest))

/-- `ASH.CLONE` (R258). -/
def execAshClone (c d : Ctx) (s : State) : Host.Outcome State Fault Refusal :=
  command s [s.noCtx c, s.noCtx d, (!(s.ashAt c).valid, .usage)]
    (.next ((s.setAsh d (s.ashAt c)).finish 0))

end Machine

end Sys2Proof
end

