-- ==== Sys2Proof/Machine/Pad.lean ====
section
/-! DEFINITION. The PAD unit (40_pad.md): the three padding schemes and the nine PAD commands. -/

namespace Sys2Proof.Machine

/-- `padSize_s(used, bs)`: the size of the padded last block, `bs` or 0 (R121, R122, R123). The Zero
scheme is only asked with `used ≤ bs` (R124, 41_cbc.md R143). -/
def padSize : Scheme → (used bs : Nat) → Nat
  | .zero, used, bs => if used < bs then bs else 0
  | .pkcs7, _, bs => bs
  | .iso7816, _, bs => bs

/-- `pad_s(X, bs)` (R122, R123). -/
def pad : Scheme → List Byte → (bs : Nat) → List Byte
  | .zero, X, bs => X ++ zeros (bs - X.length)
  | .pkcs7, X, bs => X ++ List.replicate (bs - X.length) (BitVec.ofNat 8 (bs - X.length))
  | .iso7816, X, bs => X ++ 0x80 :: zeros (bs - X.length - 1)

/-- A byte string without its trailing zero bytes (R122). -/
def stripZeros (B : List Byte) : List Byte := (B.reverse.dropWhile (· == 0)).reverse

/-- `unpad_P7(B)`, none for a content error (R123). -/
def unpadPkcs7 (B : List Byte) : Option (List Byte) :=
  match B.getLast? with
  | none => none
  | some N =>
    if N = 0 || B.length < N.toNat then none
    else if (B.drop (B.length - N.toNat)).all (· == N) then some (B.take (B.length - N.toNat))
    else none

/-- `unpad_I4(B)`, none for a content error: the last non-zero byte must be the marker (R123). -/
def unpadIso7816 (B : List Byte) : Option (List Byte) :=
  match (stripZeros B).getLast? with
  | none => none
  | some m => if m = 0x80 then some (stripZeros B).dropLast else none

/-- `unpad_s(B)`, none for a content error (R122, R123). -/
def unpad : Scheme → List Byte → Option (List Byte)
  | .zero, B => some (stripZeros B)
  | .pkcs7, B => unpadPkcs7 B
  | .iso7816, B => unpadIso7816 B

/-- The block size a PAD command is given must be 1 to 255 (R120). -/
def badBlockSize (imm : Word) : Bool × Err := (imm.toNat < 1 || 255 < imm.toNat, .capacity)

/-! ### PADSZ -/

/-- `PADSZ.Z` (R124). -/
def execPadszZ (slen imm : Word) (s : State) : Host.Outcome State Fault Refusal :=
  command s [badBlockSize imm, (imm.toNat < slen.toNat, .capacity)]
    (.next (s.finish (padSize .zero slen.toNat imm.toNat)))

/-- `PADSZ.P7` (R125). -/
def execPadszP7 (slen imm : Word) (s : State) : Host.Outcome State Fault Refusal :=
  command s [badBlockSize imm] (.next (s.finish (padSize .pkcs7 slen.toNat imm.toNat)))

/-- `PADSZ.I4` (R126). -/
def execPadszI4 (slen imm : Word) (s : State) : Host.Outcome State Fault Refusal :=
  command s [badBlockSize imm] (.next (s.finish (padSize .iso7816 slen.toNat imm.toNat)))

/-! ### PAD -/

/-- The common part of `PAD.*`: the block size, the input length (`tooLong`), the capacity, the
windows, then the padded block (R127 to R129). -/
def execPad (sch : Scheme) (tooLong : Bool) (src slen dst dcap imm : Word) (s : State) :
    Host.Outcome State Fault Refusal :=
  command s
    ([badBlockSize imm, (tooLong, .capacity), (dcap.toNat < imm.toNat, .capacity)] ++
      s.windowChecks src slen dst dcap)
    (.next (s.output dst (pad sch (s.source src slen) imm.toNat)))

/-- `PAD.Z` (R127): a full block is copied unchanged. -/
def execPadZ (src slen dst dcap imm : Word) (s : State) : Host.Outcome State Fault Refusal :=
  execPad .zero (imm.toNat < slen.toNat) src slen dst dcap imm s

/-- `PAD.P7` (R128): there must be room for a pad byte. -/
def execPadP7 (src slen dst dcap imm : Word) (s : State) : Host.Outcome State Fault Refusal :=
  execPad .pkcs7 (imm.toNat ≤ slen.toNat) src slen dst dcap imm s

/-- `PAD.I4` (R129): there must be room for the marker. -/
def execPadI4 (src slen dst dcap imm : Word) (s : State) : Host.Outcome State Fault Refusal :=
  execPad .iso7816 (imm.toNat ≤ slen.toNat) src slen dst dcap imm s

/-! ### UNPAD -/

/-- The common part of `UNPAD.*`: the windows, then the unpadded block or a late error
(R130 to R132). -/
def execUnpad (sch : Scheme) (src slen dst dcap : Word) (s : State) :
    Host.Outcome State Fault Refusal :=
  command s (s.windowChecks src slen dst dcap)
    (.next (s.lateOutput dst dcap (unpad sch (s.source src slen))))

/-- `UNPAD.Z` (R130). -/
def execUnpadZ (src slen dst dcap : Word) (s : State) : Host.Outcome State Fault Refusal :=
  execUnpad .zero src slen dst dcap s

/-- `UNPAD.P7` (R131). -/
def execUnpadP7 (src slen dst dcap : Word) (s : State) : Host.Outcome State Fault Refusal :=
  execUnpad .pkcs7 src slen dst dcap s

/-- `UNPAD.I4` (R132). -/
def execUnpadI4 (src slen dst dcap : Word) (s : State) : Host.Outcome State Fault Refusal :=
  execUnpad .iso7816 src slen dst dcap s

end Sys2Proof.Machine
end

