-- ==== Sys2Proof/Machine/Cbc.lean ====
section
/-! DEFINITION. The CBC unit (41_cbc.md): sizes, the chain in both directions over any block cipher,
and the four CBC commands. -/

namespace Sys2Proof.Machine

/-- "remainder or full block" (R143). -/
def usedOf (n bs : Nat) : Nat := if n % bs = 0 then bs else n % bs

/-- `encSize(s, n, bs)` (R143). -/
def encSize (sch : Scheme) (n bs : Nat) : Nat := n - n % bs + padSize sch (usedOf n bs) bs

/-- The plaintext blocks to encrypt, the padded last block among them where there is one (R145). -/
def plainBlocks (sch : Scheme) (bs : Nat) (P : List Byte) : List (List Byte) :=
  wholeBlocks bs P ++
    if 0 < padSize sch (usedOf P.length bs) bs then
      [pad sch (P.drop (P.length - P.length % bs)) bs]
    else []

/-- `C[i] = enc(B[i] ⊕ C[i-1])` from the chain value before the first block on (R145). -/
def chainEnc (enc : List Byte → List Byte) : (prev : List Byte) → List (List Byte) → List (List Byte)
  | _, [] => []
  | prev, B :: Bs => enc (xorBytes B prev) :: chainEnc enc (enc (xorBytes B prev)) Bs

/-- `Q[i] = dec(C[i]) ⊕ C[i-1]`, the chain value always a ciphertext block (R147). -/
def chainDec (dec : List Byte → List Byte) : (prev : List Byte) → List (List Byte) → List (List Byte)
  | _, [] => []
  | prev, C :: Cs => xorBytes (dec C) prev :: chainDec dec C Cs

/-- `cbcEncrypt(c, P)` over a block cipher `enc` (R145). -/
def cbcEncrypt (enc : List Byte → List Byte) (bs : Nat) (sch : Scheme) (iv P : List Byte) :
    List Byte :=
  (chainEnc enc iv (plainBlocks sch bs P)).flatten

/-- `cbcDecrypt(c, E)` over a block cipher `dec`, none for a content error of `unpad` (R147). -/
def cbcDecrypt (dec : List Byte → List Byte) (bs : Nat) (sch : Scheme) (iv E : List Byte) :
    Option (List Byte) :=
  let Q := chainDec dec iv (wholeBlocks bs E)
  match Q.getLast? with
  | none => some []
  | some last => (unpad sch last).map (Q.dropLast.flatten ++ ·)

/-- `CBC.INIT` (R141). -/
def execCbcInit (c : Ctx) (sch : Scheme) (src slen : Word) (s : State) :
    Host.Outcome State Fault Refusal :=
  command s [s.noCtx c, (slen.toNat != s.blockSizeAt c, .construct), s.offRange src slen]
    (.next ((s.setCbc c ⟨true, sch, s.source src slen⟩).finish 0))

/-- `CBC.ENCSZ` (R144). -/
def execCbcEncsz (c : Ctx) (slen : Word) (s : State) : Host.Outcome State Fault Refusal :=
  let n := encSize (s.cbcAt c).scheme slen.toNat (s.blockSizeAt c)
  command s [s.noCtx c, (!(s.cbcAt c).valid, .usage), (2 ^ 32 ≤ n, .capacity)] (.next (s.finish n))

/-- `CBC.ENC` (R146). The stored IV is one block in every state a run reaches; elsewhere the port
would be handed a short block (U12). -/
def execCbcEnc (c : Ctx) (src slen dst dcap : Word) (s : State) : Host.Outcome State Fault Refusal :=
  let x := s.cbcAt c
  let bs := s.blockSizeAt c
  let n := encSize x.scheme slen.toNat bs
  command s
    ([s.noCtx c, (!x.valid, .usage), (2 ^ 32 ≤ n || dcap.toNat < n, .capacity)] ++
      s.windowChecks src slen dst dcap)
    (if x.iv.length = bs then
      .next (s.output dst (cbcEncrypt (bcEnc c bs) bs x.scheme x.iv (s.source src slen)))
    else .fault .portBlockLength)

/-- `CBC.DEC` (R148), with the same guard on the stored IV as `CBC.ENC`. -/
def execCbcDec (c : Ctx) (src slen dst dcap : Word) (s : State) : Host.Outcome State Fault Refusal :=
  let x := s.cbcAt c
  let bs := s.blockSizeAt c
  command s
    ([s.noCtx c, (!x.valid, .usage), (slen.toNat % bs != 0, .capacity),
        (slen != 0 && decide (dcap.toNat < slen.toNat - bs), .capacity)] ++
      s.windowChecks src slen dst dcap)
    (if x.iv.length = bs then
      .next (s.lateOutput dst dcap (cbcDecrypt (bcDec c bs) bs x.scheme x.iv (s.source src slen)))
    else .fault .portBlockLength)

end Sys2Proof.Machine
end

