-- ==== Sys2Proof/Machine/Dispatch.lean ====
section
/-! DEFINITION. The dispatch: one arm per command (30_encoding.md R94), each one direct call of its
meaning. -/

namespace Sys2Proof.Machine

/-- What a command does to a state: R7's `exec`, one arm per row of R94. -/
def exec (i : Instr) (s : State) : Host.Outcome State Fault Refusal :=
  match i with
  | .padszZ slen imm => Sys2Proof.Machine.execPadszZ slen imm s
  | .padszP7 slen imm => Sys2Proof.Machine.execPadszP7 slen imm s
  | .padszI4 slen imm => Sys2Proof.Machine.execPadszI4 slen imm s
  | .padZ src slen dst dcap imm => Sys2Proof.Machine.execPadZ src slen dst dcap imm s
  | .padP7 src slen dst dcap imm => Sys2Proof.Machine.execPadP7 src slen dst dcap imm s
  | .padI4 src slen dst dcap imm => Sys2Proof.Machine.execPadI4 src slen dst dcap imm s
  | .unpadZ src slen dst dcap => Sys2Proof.Machine.execUnpadZ src slen dst dcap s
  | .unpadP7 src slen dst dcap => Sys2Proof.Machine.execUnpadP7 src slen dst dcap s
  | .unpadI4 src slen dst dcap => Sys2Proof.Machine.execUnpadI4 src slen dst dcap s
  | .cbcInit c scheme src slen => Sys2Proof.Machine.execCbcInit c scheme src slen s
  | .cbcEncsz c slen => Sys2Proof.Machine.execCbcEncsz c slen s
  | .cbcEnc c src slen dst dcap => Sys2Proof.Machine.execCbcEnc c src slen dst dcap s
  | .cbcDec c src slen dst dcap => Sys2Proof.Machine.execCbcDec c src slen dst dcap s
  | .p13Init c src slen => Sys2Proof.Machine.execP13Init c src slen s
  | .p13Initsc c h => Sys2Proof.Machine.execP13Initsc c h s
  | .p13Write c src slen => Sys2Proof.Machine.execP13Write c src slen s
  | .p13Sumin c dst dcap => Sys2Proof.Machine.execP13Sumin c dst dcap s
  | .p13Sum c dst dcap => Sys2Proof.Machine.execP13Sum c dst dcap s
  | .p13Clone c d => Sys2Proof.Machine.execP13Clone c d s
  | .scInitCc20 h src slen => Sys2Proof.Machine.execScInitCc20 h src slen s
  | .scInitSs20 h src slen => Sys2Proof.Machine.execScInitSs20 h src slen s
  | .scInitXcc20 h src slen => Sys2Proof.Machine.execScInitXcc20 h src slen s
  | .scInitXss20 h src slen => Sys2Proof.Machine.execScInitXss20 h src slen s
  | .aeadInit c h => Sys2Proof.Machine.execAeadInit c h s
  | .aeadWrad c src slen => Sys2Proof.Machine.execAeadWrad c src slen s
  | .aeadEnc c src slen dst dcap => Sys2Proof.Machine.execAeadEnc c src slen dst dcap s
  | .aeadDec c src slen dst dcap => Sys2Proof.Machine.execAeadDec c src slen dst dcap s
  | .aeadFin c dst dcap => Sys2Proof.Machine.execAeadFin c dst dcap s
  | .aeadVfy c src slen => Sys2Proof.Machine.execAeadVfy c src slen s
  | .aeadEncsz c slen => Sys2Proof.Machine.execAeadEncsz c slen s
  | .ascInit128 c src slen => Sys2Proof.Machine.execAscInit128 c src slen s
  | .ascInit128a c src slen => Sys2Proof.Machine.execAscInit128a c src slen s
  | .ascInit80pq c src slen => Sys2Proof.Machine.execAscInit80pq c src slen s
  | .ascWrad c src slen => Sys2Proof.Machine.execAscWrad c src slen s
  | .ascEnc c src slen dst dcap => Sys2Proof.Machine.execAscEnc c src slen dst dcap s
  | .ascDec c src slen dst dcap => Sys2Proof.Machine.execAscDec c src slen dst dcap s
  | .ascFin c dst dcap => Sys2Proof.Machine.execAscFin c dst dcap s
  | .ascVfy c src slen => Sys2Proof.Machine.execAscVfy c src slen s
  | .ascEncsz c slen => Sys2Proof.Machine.execAscEncsz c slen s
  | .ascClone c d => Sys2Proof.Machine.execAscClone c d s
  | .ashInitHash c => Sys2Proof.Machine.execAshInitHash c s
  | .ashInitXof c imm => Sys2Proof.Machine.execAshInitXof c imm s
  | .ashWrite c src slen => Sys2Proof.Machine.execAshWrite c src slen s
  | .ashSumin c dst dcap => Sys2Proof.Machine.execAshSumin c dst dcap s
  | .ashSum c dst dcap => Sys2Proof.Machine.execAshSum c dst dcap s
  | .ashClone c d => Sys2Proof.Machine.execAshClone c d s

end Sys2Proof.Machine
end

