-- ==== Sys2Proof/Machine/Host.lean ====
section
/-! DEFINITION. What a step does besides running a command: the host's inputs, an illegal descriptor
and a write of the host to `M` (10_state.md R23, 30_encoding.md R95). -/

namespace Sys2Proof.Machine

/-- The state with the acts of the host still to come replaced. -/
def State.withInputs (s : State) (inputs : List HostAction) : State := { s with inputs := inputs }

/-- A descriptor that steps (1) to (3) of R95 refuse raises `E_ILLEGAL`, whatever the reason (R281). -/
def State.rejectDescriptor (s : State) (_ : Illegal) : Host.Outcome State Fault Refusal :=
  .next (s.raise .illegal)

/-- The host writes bytes to `M` (R23). Addresses outside `M` do not exist (R60). -/
def State.hostWrite (s : State) (addr : Word) (data : List Byte) :
    Host.Outcome State Fault Refusal :=
  if data = [] ∨ addr.toNat + data.length ≤ s.par.memSize then .next (s.writeBytes addr data)
  else .fault .hostWriteOutsideMemory

end Sys2Proof.Machine
end

