-- ==== Sys2Proof/Machine/Step.lean ====
section
/-! DEFINITION. One step: the next act of the host, carried out (00_scope.md R7; log 1). -/

namespace Sys2Proof.Machine

/-- One step takes the oldest act of the host. A command is decoded and run to completion, an
illegal one raises `E_ILLEGAL` (30_encoding.md R95, 60_exceptions.md R281); a host write changes `M`;
reset resets. With no act to take the block is idle and nothing changes (R296). -/
def step (s : State) : Host.Outcome State Fault Refusal :=
  match s.inputs with
  | [] => .next s
  | .command d :: rest =>
    match decode d with
    | .ok i => exec i (s.withInputs rest)
    | .error e => (s.withInputs rest).rejectDescriptor e
  | .write addr data :: rest => (s.withInputs rest).hostWrite addr data
  | .reset :: rest => .next (s.withInputs rest).platformReset

/-- `s` with the command of a table word presented next, before every act still to come. -/
def State.withFetchWord (s : State) (nbits w : Nat) : State :=
  s.withInputs (.command (Descriptor.ofTableWord nbits w) :: s.inputs)

end Sys2Proof.Machine
end

