-- ==== Sys2Proof/Reference.lean ====
section
/-! DEFINITION. What the spec says the units compute, in its own value form: the Poly1305 formula of
42_poly1305.md R160 and the abstraction of R175, and the MAC input of 43_aead.md R217. No meaning
uses these; statements compare the machine with them. -/

namespace Sys2Proof.Machine

/-- `P = 2^130 - 5` (00_scope.md R6). -/
def poly1305P : Nat := 2 ^ 130 - 5

/-- `A`, the number the accumulator limbs stand for (10_state.md R26). -/
def P13State.accumulator (st : P13State) : Nat := limbValue 13 (limbs st.a)

/-- `R`, the number the multiplier limbs stand for (10_state.md R26). -/
def P13State.multiplier (st : P13State) : Nat := limbValue 13 (limbs st.r)

/-- `S`, the number the addend limbs stand for (10_state.md R26). -/
def P13State.addend (st : P13State) : Nat := limbValue 16 (limbs st.s)

/-- `val(st) = A mod P` (R175). -/
def P13State.val (st : P13State) : Nat := st.accumulator % poly1305P

/-- The bounds of 10_state.md R27 on the accumulator between commands. -/
def P13State.limbsBounded (st : P13State) : Prop :=
  ∀ i : Fin 10, st.a[i].toNat ≤ if i.val = 1 then 0x1fff + 0x3ff else 0x1fff

/-- `m_k`, the blocks of a message, the last one short where 16 does not divide its length (R160). -/
def messageBlocks (m : List Byte) : List (List Byte) :=
  (List.range ((m.length + 15) / 16)).map fun k => slice m (16 * k) (16 * k + 16)

/-- `((A + LE(m_k) + 2^(8·|m_k|)) · R) mod P` (R160). -/
def rfcBlock (R A : Nat) (m : List Byte) : Nat := ((A + leNat m + 2 ^ (8 * m.length)) * R) % poly1305P

/-- The Poly1305 tag of a message under a 32-byte key (R160). -/
def rfcTag (K m : List Byte) : List Byte :=
  toLE (((messageBlocks m).foldl (rfcBlock (leNat (slice K 0 16) &&& clampMask)) 0 +
    leNat (slice K 16 32)) % 2 ^ 128) 16

/-- The MAC input of the composer (43_aead.md R217). -/
def macInput (AD CT : List Byte) : List Byte :=
  AD ++ zeros ((16 - AD.length % 16) % 16) ++ CT ++ zeros ((16 - CT.length % 16) % 16) ++
    toLE AD.length 8 ++ toLE CT.length 8

end Sys2Proof.Machine
end

