-- ==== Sys2Proof/Safety.lean ====
section
/-! DEFINITION. What holds of the block between commands, in the terms the statements use: the
parameters (00_scope.md R6), the canonical memory, the response registers (10_state.md R22), the
accumulator (R27) and the sequencing state of every unit (R25 to R32). -/

namespace Sys2Proof.Machine

/-- The ranges of R6. -/
def Params.wf (p : Params) : Prop :=
  1 ≤ p.nctx ∧ p.nctx ≤ 16 ∧ 1 ≤ p.memSize ∧ p.memSize ≤ 2 ^ 32 ∧
    ∀ c : Fin 16, 1 ≤ p.blockSize[c] ∧ p.blockSize[c] ≤ 255

/-- `M` is in canonical form and lies below `MEM_SIZE` (R23). -/
def State.MemoryOk (s : State) : Prop :=
  s.mem.wf = true ∧ ∀ a : Nat, s.par.memSize ≤ a → s.mem.get? a = none

/-- `STATUS` holds one of the seven codes, and `RESULT` is 0 with every error (60_exceptions.md
R280). -/
def State.ResponseOk (s : State) : Prop :=
  s.status.toNat ≤ 6 ∧ (s.status ≠ 0 → s.result = 0)

/-- Every live accumulator is in the form of R27, and its multiplier is clamped (42_poly1305.md
R162). -/
def P13State.Ok (st : P13State) : Prop :=
  st.valid = true → st.limbsBounded ∧ st.multiplier &&& clampMask = st.multiplier

/-- All live accumulators, those inside AEAD contexts too, are in the form of R27. -/
def State.LimbsOk (s : State) : Prop :=
  (∀ c : Ctx, (s.p13At c).Ok) ∧ ∀ c : Ctx, (s.aeadAt c).valid = true → (s.aeadAt c).poly.Ok

/-- An IV is exactly one block (R25). -/
def CbcCtx.Ok (bs : Nat) (x : CbcCtx) : Prop := x.valid = true → x.iv.length = bs

/-- The nonce length of a stream cipher (43_aead.md R201). -/
def nonceLength : Cipher → Nat
  | .chacha20 => 12
  | .salsa20 => 8
  | .xchacha20 => 24
  | .xsalsa20 => 24

/-- An instance was made by the cipher its context names, from a key and nonce of the lengths of
43_aead.md R201. -/
def Sigma.Ok (cipher : Cipher) (σ : Sigma) : Prop :=
  σ.cipher = cipher ∧ σ.key.length = 32 ∧ σ.nonce.length = nonceLength cipher

/-- A handle owns an instance of its cipher (R29). -/
def ScCtx.Ok (x : ScCtx) : Prop := x.valid = true → x.sigma.Ok x.cipher

/-- A live composer: its hash is live and its fill pointer follows the byte counter of the phase it
is in; counters of phases to come are 0 (R29, R30, 43_aead.md R204). A finished one has consumed its
hash (R36). -/
def AeadCtx.Ok (x : AeadCtx) : Prop :=
  x.valid = true →
    (x.stage = .done → x.poly.valid = false) ∧
    (x.stage ≠ .done →
      x.poly.valid = true ∧ x.sigma.Ok x.cipher ∧
      (x.stage = .init → x.adLen = 0) ∧
      (x.stage ≠ .data → x.ctLen = 0 ∧ x.poly.fill.toNat = x.adLen.toNat % 16) ∧
      (x.stage = .data → x.poly.fill.toNat = x.ctLen.toNat % 16))

/-- A live Ascon instance: the cursor is in the rate portion, the key has its length, and before any
associated data the cursor is 0 (R31). -/
def AscCtx.Ok (x : AscCtx) : Prop :=
  x.valid = true → x.stage ≠ .done →
    x.cur.toNat < x.var.rate ∧ x.key.length = x.var.klen ∧
    (x.stage = .init → x.adAny = false) ∧
    (x.stage ≠ .data → x.adAny = false → x.cur = 0)

/-- A live hash instance: the cursor is in the rate portion, and Ascon-Hash gives 32 bytes (R32). -/
def AshCtx.Ok (x : AshCtx) : Prop :=
  x.valid = true → x.cur.toNat < 8 ∧ (x.var = .hash → x.dlen = 32)

/-- No context from `NCTX` on holds an instance (R24). -/
def State.NoAbsentContexts (s : State) : Prop :=
  ∀ c : Ctx, s.hasCtx c = false →
    (s.cbcAt c).valid = false ∧ (s.p13At c).valid = false ∧ (s.scAt c).valid = false ∧
    (s.aeadAt c).valid = false ∧ (s.ascAt c).valid = false ∧ (s.ashAt c).valid = false

/-- The sequencing state of every unit is as its rules keep it. -/
def State.ContextsOk (s : State) : Prop :=
  s.NoAbsentContexts ∧
    ∀ c : Ctx, (s.cbcAt c).Ok (s.blockSizeAt c) ∧ (s.scAt c).Ok ∧ (s.aeadAt c).Ok ∧
      (s.ascAt c).Ok ∧ (s.ashAt c).Ok

/-- Nothing in any unit's context `c` differs between two states. -/
def State.sameContextsAt (s t : State) (c : Ctx) : Prop :=
  t.cbcAt c = s.cbcAt c ∧ t.p13At c = s.p13At c ∧ t.scAt c = s.scAt c ∧ t.aeadAt c = s.aeadAt c ∧
    t.ascAt c = s.ascAt c ∧ t.ashAt c = s.ashAt c

/-- Whether an address lies in window (addr, len) (20_memory.md R60). -/
def inWindow (addr len : Word) (a : Nat) : Prop := addr.toNat ≤ a ∧ a < addr.toNat + len.toNat

/-- The windows of a command pass the checks of R61 and R65. -/
def State.windowsOk (s : State) (src slen dst dcap : Word) : Prop :=
  s.inRange src slen = true ∧ s.inRange dst dcap = true ∧ partialOverlap src slen dst dcap = false

end Sys2Proof.Machine

namespace Sys2Proof

/-- The source window of a command, `SRC` and `SLEN`; none where its format has none, or has `SLEN` as a
number only (R92). -/
def Instr.sourceWindow : Instr → Option (Word × Word)
  | .padZ src slen _ _ _ => some (src, slen)
  | .padP7 src slen _ _ _ => some (src, slen)
  | .padI4 src slen _ _ _ => some (src, slen)
  | .unpadZ src slen _ _ => some (src, slen)
  | .unpadP7 src slen _ _ => some (src, slen)
  | .unpadI4 src slen _ _ => some (src, slen)
  | .cbcInit _ _ src slen => some (src, slen)
  | .cbcEnc _ src slen _ _ => some (src, slen)
  | .cbcDec _ src slen _ _ => some (src, slen)
  | .p13Init _ src slen => some (src, slen)
  | .p13Write _ src slen => some (src, slen)
  | .scInitCc20 _ src slen => some (src, slen)
  | .scInitSs20 _ src slen => some (src, slen)
  | .scInitXcc20 _ src slen => some (src, slen)
  | .scInitXss20 _ src slen => some (src, slen)
  | .aeadWrad _ src slen => some (src, slen)
  | .aeadEnc _ src slen _ _ => some (src, slen)
  | .aeadDec _ src slen _ _ => some (src, slen)
  | .aeadVfy _ src slen => some (src, slen)
  | .ascInit128 _ src slen => some (src, slen)
  | .ascInit128a _ src slen => some (src, slen)
  | .ascInit80pq _ src slen => some (src, slen)
  | .ascWrad _ src slen => some (src, slen)
  | .ascEnc _ src slen _ _ => some (src, slen)
  | .ascDec _ src slen _ _ => some (src, slen)
  | .ascVfy _ src slen => some (src, slen)
  | .ashWrite _ src slen => some (src, slen)
  | .padszZ _ _ | .padszP7 _ _ | .padszI4 _ _ | .cbcEncsz _ _ | .p13Initsc _ _ | .p13Sumin _ _ _
  | .p13Sum _ _ _ | .p13Clone _ _ | .aeadInit _ _ | .aeadFin _ _ _ | .aeadEncsz _ _
  | .ascFin _ _ _ | .ascEncsz _ _ | .ascClone _ _ | .ashInitHash _ | .ashInitXof _ _
  | .ashSumin _ _ _ | .ashSum _ _ _ | .ashClone _ _ => none

/-- The destination window of a command, `DST` and `DCAP`; none where its format has none (R92). -/
def Instr.destination : Instr → Option (Word × Word)
  | .padZ _ _ dst dcap _ => some (dst, dcap)
  | .padP7 _ _ dst dcap _ => some (dst, dcap)
  | .padI4 _ _ dst dcap _ => some (dst, dcap)
  | .unpadZ _ _ dst dcap => some (dst, dcap)
  | .unpadP7 _ _ dst dcap => some (dst, dcap)
  | .unpadI4 _ _ dst dcap => some (dst, dcap)
  | .cbcEnc _ _ _ dst dcap => some (dst, dcap)
  | .cbcDec _ _ _ dst dcap => some (dst, dcap)
  | .p13Sumin _ dst dcap => some (dst, dcap)
  | .p13Sum _ dst dcap => some (dst, dcap)
  | .aeadEnc _ _ _ dst dcap => some (dst, dcap)
  | .aeadDec _ _ _ dst dcap => some (dst, dcap)
  | .aeadFin _ dst dcap => some (dst, dcap)
  | .ascEnc _ _ _ dst dcap => some (dst, dcap)
  | .ascDec _ _ _ dst dcap => some (dst, dcap)
  | .ascFin _ dst dcap => some (dst, dcap)
  | .ashSumin _ dst dcap => some (dst, dcap)
  | .ashSum _ dst dcap => some (dst, dcap)
  | .padszZ _ _ | .padszP7 _ _ | .padszI4 _ _ | .cbcInit _ _ _ _ | .cbcEncsz _ _ | .p13Init _ _ _
  | .p13Initsc _ _ | .p13Write _ _ _ | .p13Clone _ _ | .scInitCc20 _ _ _ | .scInitSs20 _ _ _
  | .scInitXcc20 _ _ _ | .scInitXss20 _ _ _ | .aeadInit _ _ | .aeadWrad _ _ _ | .aeadVfy _ _ _
  | .aeadEncsz _ _ | .ascInit128 _ _ _ | .ascInit128a _ _ _ | .ascInit80pq _ _ _ | .ascWrad _ _ _
  | .ascVfy _ _ _ | .ascEncsz _ _ | .ascClone _ _ | .ashInitHash _ | .ashInitXof _ _
  | .ashWrite _ _ _ | .ashClone _ _ => none

/-- The `valid` bit that 60_exceptions.md R283 cause (1) tests for a command, none for the PAD unit
and for the constructions that take no handle. -/
def Instr.instanceBit (s : Machine.State) : Instr → Option Bool
  | .cbcEncsz c _ => some (s.cbcAt c).valid
  | .cbcEnc c _ _ _ _ => some (s.cbcAt c).valid
  | .cbcDec c _ _ _ _ => some (s.cbcAt c).valid
  | .p13Initsc _ h => some (s.scAt h).valid
  | .p13Write c _ _ => some (s.p13At c).valid
  | .p13Sumin c _ _ => some (s.p13At c).valid
  | .p13Sum c _ _ => some (s.p13At c).valid
  | .p13Clone c _ => some (s.p13At c).valid
  | .aeadInit _ h => some (s.scAt h).valid
  | .aeadWrad c _ _ => some (s.aeadAt c).valid
  | .aeadEnc c _ _ _ _ => some (s.aeadAt c).valid
  | .aeadDec c _ _ _ _ => some (s.aeadAt c).valid
  | .aeadFin c _ _ => some (s.aeadAt c).valid
  | .aeadVfy c _ _ => some (s.aeadAt c).valid
  | .aeadEncsz c _ => some (s.aeadAt c).valid
  | .ascWrad c _ _ => some (s.ascAt c).valid
  | .ascEnc c _ _ _ _ => some (s.ascAt c).valid
  | .ascDec c _ _ _ _ => some (s.ascAt c).valid
  | .ascFin c _ _ => some (s.ascAt c).valid
  | .ascVfy c _ _ => some (s.ascAt c).valid
  | .ascEncsz c _ => some (s.ascAt c).valid
  | .ascClone c _ => some (s.ascAt c).valid
  | .ashWrite c _ _ => some (s.ashAt c).valid
  | .ashSumin c _ _ => some (s.ashAt c).valid
  | .ashSum c _ _ => some (s.ashAt c).valid
  | .ashClone c _ => some (s.ashAt c).valid
  | .padszZ _ _ | .padszP7 _ _ | .padszI4 _ _ | .padZ _ _ _ _ _ | .padP7 _ _ _ _ _
  | .padI4 _ _ _ _ _ | .unpadZ _ _ _ _ | .unpadP7 _ _ _ _ | .unpadI4 _ _ _ _ | .cbcInit _ _ _ _
  | .p13Init _ _ _ | .scInitCc20 _ _ _ | .scInitSs20 _ _ _ | .scInitXcc20 _ _ _
  | .scInitXss20 _ _ _ | .ascInit128 _ _ _ | .ascInit128a _ _ _ | .ascInit80pq _ _ _
  | .ashInitHash _ | .ashInitXof _ _ => none

/-- The stage a command needs: associated data before the data phase, data and tags before stage Done
(causes (2) to (4) of 60_exceptions.md R283). -/
def Instr.stageOk (s : Machine.State) : Instr → Bool
  | .aeadWrad c _ _ => (s.aeadAt c).stage.beforeData
  | .aeadEnc c _ _ _ _ => (s.aeadAt c).stage != .done
  | .aeadDec c _ _ _ _ => (s.aeadAt c).stage != .done
  | .aeadFin c _ _ => (s.aeadAt c).stage != .done
  | .aeadVfy c _ _ => (s.aeadAt c).stage != .done
  | .ascWrad c _ _ => (s.ascAt c).stage.beforeData
  | .ascEnc c _ _ _ _ => (s.ascAt c).stage != .done
  | .ascDec c _ _ _ _ => (s.ascAt c).stage != .done
  | .ascFin c _ _ => (s.ascAt c).stage != .done
  | .ascVfy c _ _ => (s.ascAt c).stage != .done
  | .padszZ _ _ | .padszP7 _ _ | .padszI4 _ _ | .padZ _ _ _ _ _ | .padP7 _ _ _ _ _
  | .padI4 _ _ _ _ _ | .unpadZ _ _ _ _ | .unpadP7 _ _ _ _ | .unpadI4 _ _ _ _ | .cbcInit _ _ _ _
  | .cbcEncsz _ _ | .cbcEnc _ _ _ _ _ | .cbcDec _ _ _ _ _ | .p13Init _ _ _ | .p13Initsc _ _
  | .p13Write _ _ _ | .p13Sumin _ _ _ | .p13Sum _ _ _ | .p13Clone _ _ | .scInitCc20 _ _ _
  | .scInitSs20 _ _ _ | .scInitXcc20 _ _ _ | .scInitXss20 _ _ _ | .aeadInit _ _ | .aeadEncsz _ _
  | .ascInit128 _ _ _ | .ascInit128a _ _ _ | .ascInit80pq _ _ _ | .ascEncsz _ _ | .ascClone _ _
  | .ashInitHash _ | .ashInitXof _ _ | .ashWrite _ _ _ | .ashSumin _ _ _ | .ashSum _ _ _
  | .ashClone _ _ => true

/-- The lengths of IV, key and nonce, and the stream-cipher block size, that a construction needs
(60_exceptions.md R282). -/
def Instr.constructOk (s : Machine.State) : Instr → Bool
  | .cbcInit c _ _ slen => slen.toNat == s.blockSizeAt c
  | .p13Init _ _ slen => slen.toNat == 32
  | .p13Initsc _ h => decide (32 ≤ s.par.streamBlock (s.scAt h).cipher)
  | .scInitCc20 _ _ slen => slen.toNat == 44
  | .scInitSs20 _ _ slen => slen.toNat == 40
  | .scInitXcc20 _ _ slen => slen.toNat == 56
  | .scInitXss20 _ _ slen => slen.toNat == 56
  | .aeadInit _ h => decide (32 ≤ s.par.streamBlock (s.scAt h).cipher)
  | .ascInit128 _ _ slen => slen.toNat == 32
  | .ascInit128a _ _ slen => slen.toNat == 32
  | .ascInit80pq _ _ slen => slen.toNat == 36
  | .padszZ _ _ | .padszP7 _ _ | .padszI4 _ _ | .padZ _ _ _ _ _ | .padP7 _ _ _ _ _
  | .padI4 _ _ _ _ _ | .unpadZ _ _ _ _ | .unpadP7 _ _ _ _ | .unpadI4 _ _ _ _ | .cbcEncsz _ _
  | .cbcEnc _ _ _ _ _ | .cbcDec _ _ _ _ _ | .p13Write _ _ _ | .p13Sumin _ _ _ | .p13Sum _ _ _
  | .p13Clone _ _ | .aeadWrad _ _ _ | .aeadEnc _ _ _ _ _ | .aeadDec _ _ _ _ _ | .aeadFin _ _ _
  | .aeadVfy _ _ _ | .aeadEncsz _ _ | .ascWrad _ _ _ | .ascEnc _ _ _ _ _ | .ascDec _ _ _ _ _
  | .ascFin _ _ _ | .ascVfy _ _ _ | .ascEncsz _ _ | .ascClone _ _ | .ashInitHash _
  | .ashInitXof _ _ | .ashWrite _ _ _ | .ashSumin _ _ _ | .ashSum _ _ _ | .ashClone _ _ => true

/-- The operands hold and the output fits, as far as descriptor and context tell beforehand (causes (1)
and (3) to (5) of 60_exceptions.md R284). -/
def Instr.capacityOk (s : Machine.State) : Instr → Bool
  | .padszZ slen imm => decide (1 ≤ imm.toNat ∧ imm.toNat ≤ 255 ∧ slen.toNat ≤ imm.toNat)
  | .padszP7 _ imm => decide (1 ≤ imm.toNat ∧ imm.toNat ≤ 255)
  | .padszI4 _ imm => decide (1 ≤ imm.toNat ∧ imm.toNat ≤ 255)
  | .padZ _ slen _ dcap imm =>
    decide (1 ≤ imm.toNat ∧ imm.toNat ≤ 255 ∧ slen.toNat ≤ imm.toNat ∧ imm.toNat ≤ dcap.toNat)
  | .padP7 _ slen _ dcap imm =>
    decide (1 ≤ imm.toNat ∧ imm.toNat ≤ 255 ∧ slen.toNat < imm.toNat ∧ imm.toNat ≤ dcap.toNat)
  | .padI4 _ slen _ dcap imm =>
    decide (1 ≤ imm.toNat ∧ imm.toNat ≤ 255 ∧ slen.toNat < imm.toNat ∧ imm.toNat ≤ dcap.toNat)
  | .cbcEncsz c slen =>
    decide (Machine.encSize (s.cbcAt c).scheme slen.toNat (s.blockSizeAt c) < 2 ^ 32)
  | .cbcEnc c _ slen _ dcap =>
    decide (Machine.encSize (s.cbcAt c).scheme slen.toNat (s.blockSizeAt c) < 2 ^ 32 ∧
      Machine.encSize (s.cbcAt c).scheme slen.toNat (s.blockSizeAt c) ≤ dcap.toNat)
  | .cbcDec c _ slen _ dcap =>
    decide (slen.toNat % s.blockSizeAt c = 0 ∧ slen.toNat ≤ dcap.toNat + s.blockSizeAt c)
  | .p13Sumin _ _ dcap => decide (16 ≤ dcap.toNat)
  | .p13Sum _ _ dcap => decide (16 ≤ dcap.toNat)
  | .aeadWrad c _ slen => decide ((s.aeadAt c).adLen.toNat + slen.toNat < 2 ^ 64)
  | .aeadEnc c _ slen _ dcap =>
    decide (slen.toNat ≤ dcap.toNat ∧ (s.aeadAt c).ctLen.toNat + slen.toNat < 2 ^ 64)
  | .aeadDec c _ slen _ dcap =>
    decide (slen.toNat ≤ dcap.toNat ∧ (s.aeadAt c).ctLen.toNat + slen.toNat < 2 ^ 64)
  | .aeadFin _ _ dcap => decide (16 ≤ dcap.toNat)
  | .aeadVfy _ _ slen => slen.toNat == 16
  | .ascEnc _ _ slen _ dcap => decide (slen.toNat ≤ dcap.toNat)
  | .ascDec _ _ slen _ dcap => decide (slen.toNat ≤ dcap.toNat)
  | .ascFin _ _ dcap => decide (16 ≤ dcap.toNat)
  | .ascVfy _ _ slen => slen.toNat == 16
  | .ashSumin c _ dcap => decide ((s.ashAt c).dlen.toNat ≤ dcap.toNat)
  | .ashSum c _ dcap => decide ((s.ashAt c).dlen.toNat ≤ dcap.toNat)
  | .unpadZ _ _ _ _ | .unpadP7 _ _ _ _ | .unpadI4 _ _ _ _ | .cbcInit _ _ _ _ | .p13Init _ _ _
  | .p13Initsc _ _ | .p13Write _ _ _ | .p13Clone _ _ | .scInitCc20 _ _ _ | .scInitSs20 _ _ _
  | .scInitXcc20 _ _ _ | .scInitXss20 _ _ _ | .aeadInit _ _ | .aeadEncsz _ _ | .ascInit128 _ _ _
  | .ascInit128a _ _ _ | .ascInit80pq _ _ _ | .ascWrad _ _ _ | .ascEncsz _ _ | .ascClone _ _
  | .ashInitHash _ | .ashInitXof _ _ | .ashWrite _ _ _ | .ashClone _ _ => true

/-- Every check of a command before its windows passes: rows 1 to 4 of the order of 60_exceptions.md
R287. -/
def Instr.checksPassed (s : Machine.State) (i : Instr) : Bool :=
  i.wellFormed s.par.nctx && i.instanceBit s != some false && i.stageOk s && i.constructOk s &&
    i.capacityOk s

/-- The windows of a command are in range (20_memory.md R61). -/
def Instr.windowsInRange (s : Machine.State) (i : Instr) : Bool :=
  i.sourceWindow.all (fun w => s.inRange w.1 w.2) && i.destination.all fun w => s.inRange w.1 w.2

/-- The windows of a command overlap in part (20_memory.md R65). -/
def Instr.windowsOverlap (i : Instr) : Bool :=
  i.sourceWindow.any fun v => i.destination.any fun w => Machine.partialOverlap v.1 v.2 w.1 w.2

/-- The early error of a command, none where it has none: the first in the order of 60_exceptions.md
R287, rows 1 to 6. -/
def Instr.earlyError (s : Machine.State) (i : Instr) : Option Machine.Err :=
  if !i.wellFormed s.par.nctx then some .illegal
  else if i.instanceBit s == some false || !i.stageOk s then some .usage
  else if !i.constructOk s then some .construct
  else if !i.capacityOk s || !i.windowsInRange s then some .capacity
  else if i.windowsOverlap then some .overlap
  else none

/-- The unit a command belongs to (R91). -/
def Instr.unit (i : Instr) : Nat := (encode i).unit

/-- The commands that can end in a late error: `UNPAD.*` and `CBC.DEC` (60_exceptions.md R285). -/
def Instr.mayFailLate : Instr → Bool
  | .unpadZ _ _ _ _ => true
  | .unpadP7 _ _ _ _ => true
  | .unpadI4 _ _ _ _ => true
  | .cbcDec _ _ _ _ _ => true
  | .padszZ _ _ | .padszP7 _ _ | .padszI4 _ _ | .padZ _ _ _ _ _ | .padP7 _ _ _ _ _
  | .padI4 _ _ _ _ _ | .cbcInit _ _ _ _ | .cbcEncsz _ _ | .cbcEnc _ _ _ _ _ | .p13Init _ _ _
  | .p13Initsc _ _ | .p13Write _ _ _ | .p13Sumin _ _ _ | .p13Sum _ _ _ | .p13Clone _ _
  | .scInitCc20 _ _ _ | .scInitSs20 _ _ _ | .scInitXcc20 _ _ _ | .scInitXss20 _ _ _
  | .aeadInit _ _ | .aeadWrad _ _ _ | .aeadEnc _ _ _ _ _ | .aeadDec _ _ _ _ _ | .aeadFin _ _ _
  | .aeadVfy _ _ _ | .aeadEncsz _ _ | .ascInit128 _ _ _ | .ascInit128a _ _ _ | .ascInit80pq _ _ _
  | .ascWrad _ _ _ | .ascEnc _ _ _ _ _ | .ascDec _ _ _ _ _ | .ascFin _ _ _ | .ascVfy _ _ _
  | .ascEncsz _ _ | .ascClone _ _ | .ashInitHash _ | .ashInitXof _ _ | .ashWrite _ _ _
  | .ashSumin _ _ _ | .ashSum _ _ _ | .ashClone _ _ => false

end Sys2Proof
end

