-- ==== Sys2Proof/Certificates/Slice0/Obligations.lean ====
section
/-! DEFINITION. The statements for the provers. A rule is named as R<n>; its file is in
OBLIGATIONS.json. Where a statement says `exec i s = .next t` with `t` written as updates of `s`,
the updates are the whole effect: every part of the state they do not write is unchanged. -/

open Sys2Proof Sys2Proof.Machine

/-! ### Encoding -/

/-- Decoding the words of a command gives the command back, with every operand at every value its
field admits (R91, R92, R94). -/
def Obligations.DecodeInvertsEncode : Prop :=
  ∀ i : Instr, decode (encode i) = .ok i

/-- A descriptor the decoder accepts is the words of the command it reads: every descriptor has at
most one meaning and no bit of it is dropped (R95). -/
def Obligations.EncodeInvertsDecode : Prop :=
  ∀ (d : Descriptor) (i : Instr), decode d = .ok i → encode i = d

/-- Words written out in 95_test_vectors.md section 3 and in R98 decode to the commands they are
listed under, one of each unit. -/
def Obligations.SpecWordsDecode : Prop :=
  decode ⟨0x10000100, 0, 5, 0, 0, 8⟩ = .ok (.padszP7 5 8) ∧
  decode ⟨0x20000100, 0x10, 4, 0, 0, 0⟩ = .ok (.cbcInit 0 .pkcs7 0x10 4) ∧
  decode ⟨0x32000000, 0x120, 0x22, 0, 0, 0⟩ = .ok (.p13Write 0 0x120 34) ∧
  decode ⟨0x40100000, 0x300, 0x2c, 0, 0, 0⟩ = .ok (.scInitCc20 1 0x300 44) ∧
  decode ⟨0x50210000, 0, 0, 0, 0, 0⟩ = .ok (.aeadInit 2 1) ∧
  decode ⟨0x62000000, 0x150, 4, 0x200, 4, 0⟩ = .ok (.ascEnc 0 0x150 4 0x200 4) ∧
  decode ⟨0x70200100, 0, 0, 0, 0, 0x14⟩ = .ok (.ashInitXof 2 20)

/-- What the decoder refuses is illegal: the step raises `E_ILLEGAL` and changes nothing else. So are, by
name, reserved bits, reserved units, unlisted operations, unlisted variants, and a non-zero field
that the command's format does not use (steps (1) to (3) of R95, R92, R96, R281). -/
def Obligations.ReservedEncodingsAreIllegal : Prop :=
  ∀ (d : Descriptor) (s : State) (rest : List HostAction),
    s.inputs = .command d :: rest →
    ((∃ e, decode d = .error e) ∨ d.rsv ≠ 0 ∨ d.unit = 0 ∨ 8 ≤ d.unit ∨
      (d.unit = 1 ∧ (3 ≤ d.op ∨ 3 ≤ d.var)) ∨
      (d.unit = 2 ∧ (4 ≤ d.op ∨ (d.op = 0 ∧ 3 ≤ d.var) ∨ (d.op ≠ 0 ∧ d.var ≠ 0))) ∨
      (d.unit = 3 ∧ (6 ≤ d.op ∨ d.var ≠ 0)) ∨
      (d.unit = 4 ∧ (1 ≤ d.op ∨ 4 ≤ d.var)) ∨
      (d.unit = 5 ∧ (7 ≤ d.op ∨ d.var ≠ 0)) ∨
      (d.unit = 6 ∧ (8 ≤ d.op ∨ (d.op = 0 ∧ 3 ≤ d.var) ∨ (d.op ≠ 0 ∧ d.var ≠ 0))) ∨
      (d.unit = 7 ∧ (5 ≤ d.op ∨ (d.op = 0 ∧ 2 ≤ d.var) ∨ (d.op ≠ 0 ∧ d.var ≠ 0))) ∨
      (d.ctx ≠ 0 ∧ d.unit = 1) ∨
      (d.ctx2 ≠ 0 ∧ (d.unit, d.op) ∉ [(3, 1), (3, 5), (5, 0), (6, 7), (7, 4)]) ∨
      (d.w1 ≠ 0 ∧ (d.unit, d.op) ∉ [(1, 1), (1, 2), (2, 0), (2, 2), (2, 3), (3, 0), (3, 2), (4, 0),
        (5, 1), (5, 2), (5, 3), (5, 5), (6, 0), (6, 1), (6, 2), (6, 3), (6, 5), (7, 1)]) ∨
      (d.w2 ≠ 0 ∧ (d.unit, d.op) ∉ [(1, 0), (1, 1), (1, 2), (2, 0), (2, 1), (2, 2), (2, 3), (3, 0),
        (3, 2), (4, 0), (5, 1), (5, 2), (5, 3), (5, 5), (5, 6), (6, 0), (6, 1), (6, 2), (6, 3), (6, 5),
        (6, 6), (7, 1)]) ∨
      ((d.w3 ≠ 0 ∨ d.w4 ≠ 0) ∧ (d.unit, d.op) ∉ [(1, 1), (1, 2), (2, 2), (2, 3), (3, 3), (3, 4),
        (5, 2), (5, 3), (5, 4), (6, 2), (6, 3), (6, 4), (7, 2), (7, 3)]) ∨
      (d.w5 ≠ 0 ∧ (d.unit, d.op) ∉ [(1, 0), (1, 1)] ∧ (d.unit, d.op, d.var) ≠ (7, 0, 1))) →
    step s = .next { s with inputs := rest, status := 1, result := 0 }

/-! ### The step -/

/-- When the descriptor presented next decodes to a command, the step is that command's meaning on
the state with the descriptor taken; a table word presented by `withFetchWord` is run at once. -/
def Obligations.StepRunsDecodedCommand : Prop :=
  (∀ (s : State) (d : Descriptor) (rest : List HostAction) (i : Instr),
    s.inputs = .command d :: rest → decode d = .ok i → step s = exec i { s with inputs := rest }) ∧
  ∀ (s : State) (nbits w : Nat) (i : Instr),
    decodeTableWord nbits w = some i → step (s.withFetchWord nbits w) = exec i s

/-- A command that names a context from `NCTX` on is illegal, whatever the command (step (4) of
R95, R281). -/
def Obligations.AbsentContextIsIllegal : Prop :=
  ∀ (i : Instr) (s : State),
    i.wellFormed s.par.nctx = false → exec i s = .next { s with status := 1, result := 0 }

/-- The other acts of the host: with none to take the block is idle; a write inside `M` changes `M`
alone; reset clears `STATUS`, `RESULT` and every `valid` bit and leaves `M` alone (R310). That a write
outside `M` stops the machine and how acts are presented is the model's own (log 1). -/
def Obligations.HostActsLandBetweenCommands : Prop :=
  (∀ s : State, s.inputs = [] → step s = .next s) ∧
  (∀ (s : State) (addr : Word) (data : List Byte) (rest : List HostAction),
    s.inputs = .write addr data :: rest →
    (addr.toNat + data.length ≤ s.par.memSize →
      step s = .next { s with inputs := rest, mem := s.mem.writeBytes addr.toNat data }) ∧
    (data ≠ [] → s.par.memSize < addr.toNat + data.length →
      step s = .fault .hostWriteOutsideMemory)) ∧
  ∀ (s : State) (rest : List HostAction), s.inputs = .reset :: rest →
    ∃ t, step s = .next t ∧ t.status = 0 ∧ t.result = 0 ∧ t.mem = s.mem ∧ t.par = s.par ∧
      t.inputs = rest ∧
      ∀ c : Ctx, (t.cbcAt c).valid = false ∧ (t.p13At c).valid = false ∧
        (t.scAt c).valid = false ∧ (t.aeadAt c).valid = false ∧ (t.ascAt c).valid = false ∧
        (t.ashAt c).valid = false

/-! ### Invariants -/

/-- After reset `STATUS` and `RESULT` are 0, every `valid` bit is 0 (R39), and every invariant below
holds. -/
def Obligations.ResetMeetsInvariants : Prop :=
  State.reset.status = 0 ∧ State.reset.result = 0 ∧ State.reset.par.wf ∧
  (∀ c : Ctx, (State.reset.cbcAt c).valid = false ∧ (State.reset.p13At c).valid = false ∧
    (State.reset.scAt c).valid = false ∧ (State.reset.aeadAt c).valid = false ∧
    (State.reset.ascAt c).valid = false ∧ (State.reset.ashAt c).valid = false) ∧
  State.reset.MemoryOk ∧ State.reset.ResponseOk ∧ State.reset.LimbsOk ∧ State.reset.ContextsOk

/-- Every step keeps `M` in canonical form and below `MEM_SIZE` (R60, R61). -/
def Obligations.StepKeepsMemoryInMemory : Prop :=
  ∀ s t : State, s.MemoryOk → step s = .next t → t.MemoryOk

/-- Every step leaves one of the seven codes in `STATUS` and 0 in `RESULT` with every error (R280). -/
def Obligations.StepKeepsResponseCodes : Prop :=
  ∀ s t : State, s.ResponseOk → step s = .next t → t.ResponseOk

/-- Every step keeps every live accumulator within the bounds of R27 and every multiplier clamped
(R162). -/
def Obligations.StepKeepsLimbBounds : Prop :=
  ∀ s t : State, s.LimbsOk → step s = .next t → t.LimbsOk

/-- Every step keeps the sequencing state of every unit: IV, key and nonce lengths, cursors in the
rate portion, and the Poly1305 fill pointer of a composer equal to the byte counter of its phase
modulo 16 (R25, R29 to R32, R204). -/
def Obligations.StepKeepsSequencingState : Prop :=
  ∀ s t : State, s.ContextsOk → step s = .next t → t.ContextsOk

/-- No step writes a parameter, and a step takes exactly the oldest act of the host (R38). -/
def Obligations.StepKeepsParameters : Prop :=
  ∀ s t : State, step s = .next t → t.par = s.par ∧ t.inputs = s.inputs.tail

/-! ### All commands -/

/-- A command writes `M` inside its destination window only: on success exactly the `RESULT` bytes
from `DST` on, on an early error nothing; a command without a destination window writes nothing
(R23, R66, R285). -/
def Obligations.CommandWritesOnlyItsWindow : Prop :=
  ∀ (i : Instr) (s t : State), exec i s = .next t →
    (i.destination = none → t.mem = s.mem) ∧
    ∀ dst dcap : Word, i.destination = some (dst, dcap) →
      (∀ a : Nat, ¬ inWindow dst dcap a → t.readByte a = s.readByte a) ∧
      (t.status = 0 → t.result.toNat ≤ dcap.toNat ∧
        ∀ a : Nat, ¬ inWindow dst t.result a → t.readByte a = s.readByte a) ∧
      (t.status ≠ 0 → i.mayFailLate = false → t.mem = s.mem)

/-- An early error of any command changes nothing but `STATUS` and `RESULT`, and the one reported is
the first in the order of R287: `earlyError`, which goes through the causes of R281 to R284 and
R65 row by row. It takes in the early `E_CAPACITY` of `UNPAD.*` and `CBC.DEC`. A command with no early
error ends with `STATUS` 0, or, `UNPAD.*` and `CBC.DEC` only, in a late error. The last clause says
the same by code: whatever has one of these codes, or comes from a command that cannot fail late, is
early (R285, R288). -/
def Obligations.EarlyErrorsChangeNothing : Prop :=
  ∀ (i : Instr) (s : State),
    (∀ e, i.earlyError s = some e →
      exec i s = .next { s with status := e.code, result := 0 }) ∧
    ∀ t, exec i s = .next t →
      (i.earlyError s = none →
        t.status = 0 ∨ (i.mayFailLate = true ∧ (t.status = 4 ∨ t.status = 5))) ∧
      (t.status ≠ 0 → (i.mayFailLate = false ∨ t.status ∈ [(1 : BitVec 8), 2, 3, 6]) →
        t = { s with status := t.status, result := 0 })

/-- Any error of `UNPAD.*` and `CBC.DEC`, late ones too, leaves every context and every byte outside
the destination window as it was (R285). -/
def Obligations.LateErrorsDisturbOnlyTheWindow : Prop :=
  ∀ (i : Instr) (s t : State) (dst dcap : Word), i.mayFailLate = true →
    i.destination = some (dst, dcap) → exec i s = .next t → t.status ≠ 0 →
    t.result = 0 ∧ t.par = s.par ∧ t.inputs = s.inputs ∧ (∀ c : Ctx, s.sameContextsAt t c) ∧
      ∀ a : Nat, ¬ inWindow dst dcap a → t.readByte a = s.readByte a

/-- A command changes contexts of its own unit only, and only those it names; a handle can also be
changed by the P13 or AEAD command that names it (R24). -/
def Obligations.CommandTouchesOnlyNamedContexts : Prop :=
  ∀ (i : Instr) (s t : State) (c : Ctx), exec i s = .next t →
    (c ∉ i.contexts → s.sameContextsAt t c) ∧
    (i.unit ≠ 2 → t.cbcAt c = s.cbcAt c) ∧
    (i.unit ≠ 3 → t.p13At c = s.p13At c) ∧
    (i.unit ≠ 3 → i.unit ≠ 4 → i.unit ≠ 5 → t.scAt c = s.scAt c) ∧
    (i.unit ≠ 5 → t.aeadAt c = s.aeadAt c) ∧
    (i.unit ≠ 6 → t.ascAt c = s.ascAt c) ∧
    (i.unit ≠ 7 → t.ashAt c = s.ashAt c)

/-- Every command on every state gets a response: none stops the machine where every stored IV is
one block (R7, R25). -/
def Obligations.EveryCommandResponds : Prop :=
  ∀ (i : Instr) (s : State), (∀ c : Ctx, (s.cbcAt c).Ok (s.blockSizeAt c)) →
    ∃ t, exec i s = .next t

/-- A command other than a construction on a context that holds no instance raises `E_USAGE`, and so
do the constructions from a handle that holds none (cause (1) of R283). -/
def Obligations.MissingInstanceIsUsageError : Prop :=
  ∀ (i : Instr) (s : State), i.wellFormed s.par.nctx = true → i.instanceBit s = some false →
    exec i s = .next { s with status := 3, result := 0 }

/-- A wrong IV, key or nonce length raises `E_CONSTRUCT` and leaves the target context as it was
(R282). -/
def Obligations.WrongLengthIsConstructionError : Prop :=
  ∀ (c : Ctx) (sch : Scheme) (src slen : Word) (s : State), s.hasCtx c = true →
    (slen.toNat ≠ s.blockSizeAt c →
      exec (.cbcInit c sch src slen) s = .next { s with status := 2, result := 0 }) ∧
    (slen.toNat ≠ 32 → exec (.p13Init c src slen) s = .next { s with status := 2, result := 0 }) ∧
    (slen.toNat ≠ 44 → exec (.scInitCc20 c src slen) s = .next { s with status := 2, result := 0 }) ∧
    (slen.toNat ≠ 40 → exec (.scInitSs20 c src slen) s = .next { s with status := 2, result := 0 }) ∧
    (slen.toNat ≠ 56 → exec (.scInitXcc20 c src slen) s = .next { s with status := 2, result := 0 }) ∧
    (slen.toNat ≠ 56 → exec (.scInitXss20 c src slen) s = .next { s with status := 2, result := 0 }) ∧
    (slen.toNat ≠ 32 → exec (.ascInit128 c src slen) s = .next { s with status := 2, result := 0 }) ∧
    (slen.toNat ≠ 32 → exec (.ascInit128a c src slen) s = .next { s with status := 2, result := 0 }) ∧
    (slen.toNat ≠ 36 → exec (.ascInit80pq c src slen) s = .next { s with status := 2, result := 0 })

/-- `MemWrite` sets the bytes of its string at rising addresses and changes no other byte, and
`MemRead` gives the bytes of rising addresses, so those just written (R62, R63). -/
def Obligations.MemoryReadsWhatWasWritten : Prop :=
  ∀ (s : State) (a : Word) (X : List Byte),
    (∀ (n i : Nat), i < n → (s.readBytes a n)[i]? = some (s.readByte (a.toNat + i))) ∧
    (s.writeBytes a X).readBytes a X.length = X ∧
    ∀ x : Nat, x < a.toNat ∨ a.toNat + X.length ≤ x →
      (s.writeBytes a X).readByte x = s.readByte x

/-- A window is in range when all its addresses exist, and two windows overlap in part when they share
an address and start apart (R61, R65). A command with a window out of range or with partly
overlapping windows has no effect. Where every earlier check of R287 passes, the response is
`E_CAPACITY` for a window out of range, and `E_OVERLAP` for a partial overlap of windows in range;
else it is an error that comes earlier in that order. -/
def Obligations.WindowChecksGuardEveryCommand : Prop :=
  (∀ (s : State) (addr len : Word),
    s.inRange addr len = true ↔ ∀ a, inWindow addr len a → a < s.par.memSize) ∧
  (∀ src slen dst dcap : Word, partialOverlap src slen dst dcap = true ↔
    src ≠ dst ∧ ∃ a, inWindow src slen a ∧ inWindow dst dcap a) ∧
  (∀ (i : Instr) (s : State), i.checksPassed s = true →
    (∀ addr len : Word,
      i.sourceWindow = some (addr, len) ∨ i.destination = some (addr, len) →
      s.inRange addr len = false → exec i s = .next { s with status := 5, result := 0 }) ∧
    ∀ src slen dst dcap : Word,
      i.sourceWindow = some (src, slen) → i.destination = some (dst, dcap) →
      s.inRange src slen = true → s.inRange dst dcap = true →
      partialOverlap src slen dst dcap = true → exec i s = .next { s with status := 6, result := 0 }) ∧
  ∀ (i : Instr) (s t : State), exec i s = .next t →
    (∀ addr len : Word,
      i.sourceWindow = some (addr, len) ∨ i.destination = some (addr, len) →
      s.inRange addr len = false →
      t = { s with status := t.status, result := 0 } ∧ t.status ∈ [(1 : BitVec 8), 2, 3, 5]) ∧
    ∀ src slen dst dcap : Word,
      i.sourceWindow = some (src, slen) → i.destination = some (dst, dcap) →
      partialOverlap src slen dst dcap = true →
      t = { s with status := t.status, result := 0 } ∧ t.status ∈ [(1 : BitVec 8), 2, 3, 5, 6] ∧
      (t.status = 6 → s.inRange src slen = true ∧ s.inRange dst dcap = true)

/-! ### PAD -/

/-- `PADSZ.Z`, `PADSZ.P7` and `PADSZ.I4`: the words that are the command, the capacity errors, and
the size; nothing but the response changes (R124, R125, R126). -/
def Obligations.PadszAnswers : Prop :=
  (∀ (d : Descriptor) (slen imm : Word),
    (decode d = .ok (.padszZ slen imm) ↔ d = ⟨0x10000000, 0, slen, 0, 0, imm⟩) ∧
    (decode d = .ok (.padszP7 slen imm) ↔ d = ⟨0x10000100, 0, slen, 0, 0, imm⟩) ∧
    (decode d = .ok (.padszI4 slen imm) ↔ d = ⟨0x10000200, 0, slen, 0, 0, imm⟩)) ∧
  ∀ (slen imm : Word) (s : State),
    (1 ≤ imm.toNat → imm.toNat ≤ 255 →
      (slen.toNat < imm.toNat → exec (.padszZ slen imm) s = .next (s.finish imm.toNat)) ∧
      (slen = imm → exec (.padszZ slen imm) s = .next (s.finish 0)) ∧
      (imm.toNat < slen.toNat → exec (.padszZ slen imm) s = .next (s.raise .capacity)) ∧
      exec (.padszP7 slen imm) s = .next (s.finish imm.toNat) ∧
      exec (.padszI4 slen imm) s = .next (s.finish imm.toNat)) ∧
    (imm.toNat < 1 ∨ 255 < imm.toNat →
      exec (.padszZ slen imm) s = .next (s.raise .capacity) ∧
      exec (.padszP7 slen imm) s = .next (s.raise .capacity) ∧
      exec (.padszI4 slen imm) s = .next (s.raise .capacity))

/-- `PAD.Z`, `PAD.P7` and `PAD.I4` write the padded block, exactly `IMM` bytes, and nothing else; a
block size outside 1 .. 255, an input with no room for its padding and a destination shorter than a
block are capacity errors (R122, R123, R127 to R129). -/
def Obligations.PadAnswers : Prop :=
  ∀ (src slen dst dcap imm : Word) (s : State),
    (1 ≤ imm.toNat → imm.toNat ≤ 255 → imm.toNat ≤ dcap.toNat → s.windowsOk src slen dst dcap →
      let X := s.readBytes src slen.toNat
      let n := imm.toNat - slen.toNat
      (slen.toNat ≤ imm.toNat →
        exec (.padZ src slen dst dcap imm) s =
          .next ((s.writeBytes dst (X ++ List.replicate n 0)).finish imm.toNat)) ∧
      (slen.toNat < imm.toNat →
        exec (.padP7 src slen dst dcap imm) s =
          .next ((s.writeBytes dst (X ++ List.replicate n (BitVec.ofNat 8 n))).finish imm.toNat) ∧
        exec (.padI4 src slen dst dcap imm) s =
          .next ((s.writeBytes dst (X ++ [0x80] ++ List.replicate (n - 1) 0)).finish imm.toNat))) ∧
    (imm.toNat < 1 ∨ 255 < imm.toNat ∨ dcap.toNat < imm.toNat ∨ imm.toNat < slen.toNat →
      exec (.padZ src slen dst dcap imm) s = .next (s.raise .capacity)) ∧
    (imm.toNat < 1 ∨ 255 < imm.toNat ∨ dcap.toNat < imm.toNat ∨ imm.toNat ≤ slen.toNat →
      exec (.padP7 src slen dst dcap imm) s = .next (s.raise .capacity) ∧
      exec (.padI4 src slen dst dcap imm) s = .next (s.raise .capacity))

/-- `UNPAD.Z`, `UNPAD.P7` and `UNPAD.I4` write the unpadded block and nothing else where it exists
and fits; else a content error, or a capacity error found late (R130 to R132, R287). -/
def Obligations.UnpadAnswers : Prop :=
  ∀ (sch : Scheme) (i : Instr) (src slen dst dcap : Word) (s : State),
    (sch, i) = (.zero, .unpadZ src slen dst dcap) ∨
      (sch, i) = (.pkcs7, .unpadP7 src slen dst dcap) ∨
      (sch, i) = (.iso7816, .unpadI4 src slen dst dcap) →
    s.windowsOk src slen dst dcap →
    let B := s.readBytes src slen.toNat
    (∀ U, unpad sch B = some U → U.length ≤ dcap.toNat →
      exec i s = .next ((s.writeBytes dst U).finish U.length)) ∧
    (∀ U, unpad sch B = some U → dcap.toNat < U.length →
      ∃ t, exec i s = .next t ∧ t.status = 5 ∧ t.result = 0) ∧
    (unpad sch B = none → ∃ t, exec i s = .next t ∧ t.status = 4 ∧ t.result = 0)

/-- Unpadding a padded block gives the input back, always under PKCS#7 and ISO/IEC 7816-4, and under
Zero exactly when the input is empty or does not end in a zero byte; otherwise Zero gives the input
without its trailing zero bytes (R133). -/
def Obligations.PaddingRoundTrip : Prop :=
  ∀ (X : List Byte) (bs : Nat), X.length < bs → bs ≤ 255 →
    unpad .pkcs7 (pad .pkcs7 X bs) = some X ∧
    unpad .iso7816 (pad .iso7816 X bs) = some X ∧
    (unpad .zero (pad .zero X bs) = some X ↔ X = [] ∨ X.getLast? ≠ some 0) ∧
    ∃ (Y : List Byte) (k : Nat), unpad .zero (pad .zero X bs) = some Y ∧
      X = Y ++ List.replicate k 0 ∧ Y.getLast? ≠ some 0

/-- Which blocks are content errors: under PKCS#7 an empty one, one whose last byte N is 0 or more
than its length, or one whose last N bytes are not all N; under ISO/IEC 7816-4 one whose last
non-zero byte is not `0x80` or that has none; under Zero none (R286). -/
def Obligations.ContentErrorCauses : Prop :=
  ∀ B : List Byte,
    (unpad .pkcs7 B = none ↔
      ∀ N : Byte, B.getLast? = some N →
        N = 0 ∨ B.length < N.toNat ∨ ∃ b ∈ B.drop (B.length - N.toNat), b ≠ N) ∧
    (unpad .iso7816 B = none ↔
      ¬ ∃ (X : List Byte) (k : Nat), B = X ++ [0x80] ++ List.replicate k 0) ∧
    unpad .zero B ≠ none

/-! ### CBC -/

/-- `CBC.INIT` stores the scheme and the IV; `CBC.ENCSZ` gives the size of R143, or `E_CAPACITY` where
it does not fit `RESULT` (R141, R143, R144). -/
def Obligations.CbcInitAndEncszAnswer : Prop :=
  ∀ (c : Ctx) (sch : Scheme) (src slen : Word) (s : State), s.hasCtx c = true →
    (slen.toNat = s.blockSizeAt c → s.inRange src slen = true →
      exec (.cbcInit c sch src slen) s =
        .next ((s.setCbc c ⟨true, sch, s.readBytes src slen.toNat⟩).finish 0)) ∧
    ((s.cbcAt c).valid = true →
      let n := encSize (s.cbcAt c).scheme slen.toNat (s.blockSizeAt c)
      (n < 2 ^ 32 → exec (.cbcEncsz c slen) s = .next (s.finish n)) ∧
      (2 ^ 32 ≤ n → exec (.cbcEncsz c slen) s = .next (s.raise .capacity)))

/-- `CBC.ENC` writes the ciphertext of R145, exactly `encryptSize` bytes, and changes no context; a
ciphertext that does not fit the destination or `RESULT` is a capacity error (R142, R145, R146). -/
def Obligations.CbcEncAnswers : Prop :=
  ∀ (c : Ctx) (src slen dst dcap : Word) (s : State),
    s.hasCtx c = true → (s.cbcAt c).valid = true →
    let bs := s.blockSizeAt c
    let n := encSize (s.cbcAt c).scheme slen.toNat bs
    (1 ≤ bs → bs ≤ 255 → (s.cbcAt c).iv.length = bs → n ≤ dcap.toNat →
      s.windowsOk src slen dst dcap →
      exec (.cbcEnc c src slen dst dcap) s =
        .next ((s.writeBytes dst (cbcEncrypt (bcEnc c bs) bs (s.cbcAt c).scheme (s.cbcAt c).iv
          (s.readBytes src slen.toNat))).finish n)) ∧
    (dcap.toNat < n ∨ 2 ^ 32 ≤ n →
      exec (.cbcEnc c src slen dst dcap) s = .next (s.raise .capacity))

/-- `CBC.DEC` writes the plaintext of R147 where it unpads and fits; it raises `E_CONTENT` where it
does not unpad and `E_CAPACITY` where it does not fit, both late; a ciphertext that is not whole
blocks, or whose blocks but the last alone do not fit, is an early capacity error (R147, R148). -/
def Obligations.CbcDecAnswers : Prop :=
  ∀ (c : Ctx) (src slen dst dcap : Word) (s : State),
    s.hasCtx c = true → (s.cbcAt c).valid = true →
    let bs := s.blockSizeAt c
    let U := cbcDecrypt (bcDec c bs) bs (s.cbcAt c).scheme (s.cbcAt c).iv
      (s.readBytes src slen.toNat)
    (slen.toNat % bs ≠ 0 ∨ (0 < slen.toNat ∧ dcap.toNat < slen.toNat - bs) →
      exec (.cbcDec c src slen dst dcap) s = .next (s.raise .capacity)) ∧
    ((s.cbcAt c).iv.length = bs → slen.toNat % bs = 0 → slen.toNat ≤ dcap.toNat + bs →
      s.windowsOk src slen dst dcap →
      (∀ P, U = some P → P.length ≤ dcap.toNat →
        exec (.cbcDec c src slen dst dcap) s = .next ((s.writeBytes dst P).finish P.length)) ∧
      (∀ P, U = some P → dcap.toNat < P.length →
        ∃ t, exec (.cbcDec c src slen dst dcap) s = .next t ∧ t.status = 5 ∧ t.result = 0) ∧
      (U = none → ∃ t, exec (.cbcDec c src slen dst dcap) s = .next t ∧ t.status = 4 ∧ t.result = 0))

/-- CBC decryption inverts CBC encryption under every block cipher, for PKCS#7 and ISO/IEC
7816-4 on every plaintext, for Zero exactly on those that are empty or do not end in a zero byte
(R149 (1)). -/
def Obligations.CbcRoundTrip : Prop :=
  ∀ (c : Ctx) (bs : Nat) (iv P : List Byte), 1 ≤ bs → bs ≤ 255 → iv.length = bs →
    cbcDecrypt (bcDec c bs) bs .pkcs7 iv (cbcEncrypt (bcEnc c bs) bs .pkcs7 iv P) = some P ∧
    cbcDecrypt (bcDec c bs) bs .iso7816 iv (cbcEncrypt (bcEnc c bs) bs .iso7816 iv P) = some P ∧
    (cbcDecrypt (bcDec c bs) bs .zero iv (cbcEncrypt (bcEnc c bs) bs .zero iv P) = some P ↔
      P = [] ∨ P.getLast? ≠ some 0)

/-- The ciphertext has exactly `encryptSize` bytes, which is a whole number of blocks; under PKCS#7 and
ISO/IEC 7816-4 it is more than the plaintext, after whole blocks by one block; under Zero whole
blocks stay as long as they are (R143, R149 (2), (3)). -/
def Obligations.CbcCiphertextLength : Prop :=
  ∀ (c : Ctx) (bs : Nat) (sch : Scheme) (iv P : List Byte), 1 ≤ bs → bs ≤ 255 →
    (cbcEncrypt (bcEnc c bs) bs sch iv P).length = encSize sch P.length bs ∧
    bs ∣ encSize sch P.length bs ∧
    (sch ≠ .zero → P.length < encSize sch P.length bs ∧
      (bs ∣ P.length → encSize sch P.length bs = P.length + bs)) ∧
    (sch = .zero → bs ∣ P.length → encSize sch P.length bs = P.length)

/-- A change of one ciphertext block changes that plaintext block and the next only (R149 (4)). -/
def Obligations.CbcErrorPropagation : Prop :=
  ∀ (dec : List Byte → List Byte) (iv : List Byte) (Cs Ds : List (List Byte)) (i j : Nat),
    Cs.length = Ds.length → (∀ k, k ≠ i → Cs[k]? = Ds[k]?) → j ≠ i → j ≠ i + 1 →
    (chainDec dec iv Cs)[j]? = (chainDec dec iv Ds)[j]?

/-- `CBC.DEC` in place gives the plaintext it gives into another window (R77). -/
def Obligations.CbcDecryptsInPlace : Prop :=
  ∀ (c : Ctx) (src slen dst dcap : Word) (s t u : State),
    exec (.cbcDec c src slen dst dcap) s = .next t → t.status = 0 →
    exec (.cbcDec c src slen src dcap) s = .next u → u.status = 0 →
    u.result = t.result ∧ u.readBytes src u.result.toNat = t.readBytes dst t.result.toNat

/-! ### P13 -/

/-- `P13.INIT` loads the key, `P13.INITSC` the first 32 bytes of the handle's next keystream block,
which the handle moves past; whatever the buffer holds (R161, R162, R163). -/
def Obligations.P13ConstructionAnswers : Prop :=
  ∀ (c h : Ctx) (src slen : Word) (s : State), s.hasCtx c = true →
    (slen.toNat = 32 → s.inRange src slen = true →
      ∃ junk, exec (.p13Init c src slen) s =
        .next ((s.setP13 c (P13State.load (s.readBytes src 32) junk)).tick.finish 0)) ∧
    (s.hasCtx h = true → (s.scAt h).valid = true → 32 ≤ s.par.streamBlock (s.scAt h).cipher →
      let n := s.par.streamBlock (s.scAt h).cipher
      let y := scXor n (s.scAt h).sigma (List.replicate n 0)
      ∃ junk, exec (.p13Initsc c h) s =
        .next (((s.setSc h ⟨true, (s.scAt h).cipher, y.1⟩).setP13 c
          (P13State.load (y.2.take 32) junk)).tick.finish 0))

/-- `P13.WRITE` absorbs the source bytes and writes no memory (R164). -/
def Obligations.P13WriteAnswers : Prop :=
  ∀ (c : Ctx) (src slen : Word) (s : State),
    s.hasCtx c = true → (s.p13At c).valid = true → s.inRange src slen = true →
    exec (.p13Write c src slen) s =
      .next ((s.setP13 c ((s.p13At c).write (s.readBytes src slen.toNat))).finish 0)

/-- `P13.SUM` writes the 16-byte tag and leaves the context as it was; `P13.SUMIN` writes the same tag
and consumes the context, whose other fields may then be anything; a destination under 16 bytes is a
capacity error of both (R36, R172, R173). -/
def Obligations.P13SumAnswers : Prop :=
  ∀ (c : Ctx) (dst dcap : Word) (s : State), s.hasCtx c = true → (s.p13At c).valid = true →
    (16 ≤ dcap.toNat → s.inRange dst dcap = true →
      exec (.p13Sum c dst dcap) s = .next ((s.writeBytes dst (s.p13At c).final).finish 16) ∧
      ∃ y : P13State, y.valid = false ∧ exec (.p13Sumin c dst dcap) s =
        .next (((s.setP13 c y).tick.writeBytes dst (s.p13At c).final).finish 16)) ∧
    (dcap.toNat < 16 →
      exec (.p13Sum c dst dcap) s = .next (s.raise .capacity) ∧
      exec (.p13Sumin c dst dcap) s = .next (s.raise .capacity))

/-- `P13.CLONE`, `ASC.CLONE` and `ASH.CLONE`: the words that are the command, the two errors, and the
copy of every field, which changes nothing else; onto itself a clone changes nothing (R174, R250,
R258). -/
def Obligations.ClonesAnswer : Prop :=
  (∀ (w : Descriptor) (c d : Ctx),
    let named : Word := c.setWidth 32 <<< 20 ||| d.setWidth 32 <<< 16
    (decode w = .ok (.p13Clone c d) ↔ w = ⟨0x35000000 ||| named, 0, 0, 0, 0, 0⟩) ∧
    (decode w = .ok (.ascClone c d) ↔ w = ⟨0x67000000 ||| named, 0, 0, 0, 0, 0⟩) ∧
    (decode w = .ok (.ashClone c d) ↔ w = ⟨0x74000000 ||| named, 0, 0, 0, 0, 0⟩)) ∧
  (∀ (c d : Ctx) (s : State), s.hasCtx c = false ∨ s.hasCtx d = false →
    ∀ i ∈ [Instr.p13Clone c d, .ascClone c d, .ashClone c d],
      exec i s = .next (s.raise .illegal)) ∧
  ∀ (c d : Ctx) (s : State), s.hasCtx c = true → s.hasCtx d = true →
    exec (.p13Clone c d) s =
      (if (s.p13At c).valid then .next ((s.setP13 d (s.p13At c)).finish 0)
      else .next (s.raise .usage)) ∧
    exec (.ascClone c d) s =
      (if (s.ascAt c).valid then .next ((s.setAsc d (s.ascAt c)).finish 0)
      else .next (s.raise .usage)) ∧
    exec (.ashClone c d) s =
      (if (s.ashAt c).valid then .next ((s.setAsh d (s.ashAt c)).finish 0)
      else .next (s.raise .usage)) ∧
    s.setP13 c (s.p13At c) = s ∧ s.setAsc c (s.ascAt c) = s ∧ s.setAsh c (s.ashAt c) = s

/-- The limb block step is the value step of RFC 8439: it takes `val` to
`((val + LE(B) + high bit) · R) mod P` (R175 (2)). -/
def Obligations.BlockStepMultipliesModP : Prop :=
  ∀ (st : P13State) (B : List Byte) (final : Bool), B.length = 16 →
    (st.block B final).val =
      ((st.val + leNat B + if final then 0 else 2 ^ 128) * st.multiplier) % poly1305P

/-- The limb finalization gives `(val + S) mod 2^128`, little-endian, on every accumulator in the
form of R27 with no byte waiting (R169 to R171, R175 (3)). -/
def Obligations.FinalizationReducesModP : Prop :=
  ∀ st : P13State, st.limbsBounded → st.fill = 0 →
    st.final = toLE ((st.val + st.addend) % 2 ^ 128) 16

/-- The accumulator, loaded with a key and fed a message in any cutting, gives the Poly1305
tag of RFC 8439 (R160, R176 (1)), whatever the unwritten buffer bytes are. -/
def Obligations.Poly1305MatchesRfc : Prop :=
  ∀ (K : List Byte) (pieces : List (List Byte)) (junk : Vector Byte 16), K.length = 32 →
    (pieces.foldl P13State.write (P13State.load K junk)).final = rfcTag K pieces.flatten

/-! ### SC and AEAD -/

/-- The four handle constructors store the cipher and a fresh instance made from the key and the
nonce of the source window (R201, R213 to R216). -/
def Obligations.HandleConstructionAnswers : Prop :=
  ∀ (h : Ctx) (src slen : Word) (s : State), s.hasCtx h = true → s.inRange src slen = true →
    let made := fun (cipher : Cipher) =>
      (s.setSc h ⟨true, cipher, scFresh cipher (s.readBytes src 32)
        ((s.readBytes src slen.toNat).drop 32)⟩).finish 0
    (slen.toNat = 44 → exec (.scInitCc20 h src slen) s = .next (made .chacha20)) ∧
    (slen.toNat = 40 → exec (.scInitSs20 h src slen) s = .next (made .salsa20)) ∧
    (slen.toNat = 56 → exec (.scInitXcc20 h src slen) s = .next (made .xchacha20)) ∧
    (slen.toNat = 56 → exec (.scInitXss20 h src slen) s = .next (made .xsalsa20))

/-- `AEAD.INIT` takes the handle's instance, keys the hash with its next keystream block and starts in
stage Init; a block under 32 bytes is a construction error (R202, R205). -/
def Obligations.AeadInitAnswers : Prop :=
  ∀ (c h : Ctx) (s : State), s.hasCtx c = true → s.hasCtx h = true → (s.scAt h).valid = true →
    let n := s.par.streamBlock (s.scAt h).cipher
    let y := scXor n (s.scAt h).sigma (List.replicate n 0)
    (32 ≤ n → ∃ (junk : Vector Byte 16) (left : ScCtx), left.valid = false ∧
      exec (.aeadInit c h) s =
        .next (((s.setAead c ⟨true, (s.scAt h).cipher, y.1, P13State.load (y.2.take 32) junk,
          .init, 0, 0⟩).setSc h left).tick.finish 0)) ∧
    (n < 32 → exec (.aeadInit c h) s = .next (s.raise .construct) ∧
      exec (.p13Initsc c h) s = .next (s.raise .construct))

/-- `AEAD.WRAD` before the data phase feeds the hash, counts the bytes and enters or stays in stage
AssociatedData; a counter that would reach 2^64 is refused (R206). -/
def Obligations.AeadWradAnswers : Prop :=
  ∀ (c : Ctx) (src slen : Word) (s : State), s.hasCtx c = true → (s.aeadAt c).valid = true →
    (s.aeadAt c).stage = .init ∨ (s.aeadAt c).stage = .associatedData →
    let x := s.aeadAt c
    let X := s.readBytes src slen.toNat
    (x.adLen.toNat + slen.toNat < 2 ^ 64 → s.inRange src slen = true →
      exec (.aeadWrad c src slen) s =
        .next ((s.setAead c { x with
          poly := x.poly.write X, adLen := x.adLen + BitVec.ofNat 64 slen.toNat,
          stage := .associatedData }).finish 0)) ∧
    (2 ^ 64 ≤ x.adLen.toNat + slen.toNat →
      exec (.aeadWrad c src slen) s = .next (s.raise .capacity))

/-- `AEAD.ENC` and `AEAD.DEC`: the associated data is closed, the keystream XORed in, the ciphertext
hashed and counted, the output written; the stage is then Data. A destination shorter than the source,
or a counter that would reach 2^64, is a capacity error (R204, R207, R208). -/
def Obligations.AeadDataAnswers : Prop :=
  ∀ (c : Ctx) (src slen dst dcap : Word) (s : State),
    s.hasCtx c = true → (s.aeadAt c).valid = true → (s.aeadAt c).stage ≠ .done →
    (slen.toNat ≤ dcap.toNat → (s.aeadAt c).ctLen.toNat + slen.toNat < 2 ^ 64 →
      s.windowsOk src slen dst dcap →
      let x := (s.aeadAt c).finalizeAD
      let X := s.readBytes src slen.toNat
      let y := scXor (s.par.streamBlock (s.aeadAt c).cipher) (s.aeadAt c).sigma X
      let len := x.ctLen + BitVec.ofNat 64 slen.toNat
      x.stage = .data ∧
      exec (.aeadEnc c src slen dst dcap) s =
        .next (((s.setAead c { x with
          sigma := y.1, poly := x.poly.write y.2, ctLen := len }).writeBytes dst y.2).finish
            slen.toNat) ∧
      exec (.aeadDec c src slen dst dcap) s =
        .next (((s.setAead c { x with
          sigma := y.1, poly := x.poly.write X, ctLen := len }).writeBytes dst y.2).finish
            slen.toNat)) ∧
    (dcap.toNat < slen.toNat ∨ 2 ^ 64 ≤ (s.aeadAt c).ctLen.toNat + slen.toNat →
      exec (.aeadEnc c src slen dst dcap) s = .next (s.raise .capacity) ∧
      exec (.aeadDec c src slen dst dcap) s = .next (s.raise .capacity))

/-- `AEAD.FIN` writes the 16-byte tag, `AEAD.VFY` answers 1 exactly when the source bytes are the
tag; after either the context is valid, in stage Done, with its hash consumed. A destination under 16
bytes, and a source of other than 16, are capacity errors (R36, R209 to R211, R297). -/
def Obligations.AeadTagAnswers : Prop :=
  ∀ (c : Ctx) (win len : Word) (s : State),
    s.hasCtx c = true → (s.aeadAt c).valid = true → (s.aeadAt c).stage ≠ .done →
    (16 ≤ len.toNat → s.inRange win len = true →
      ∃ y : AeadCtx, y.valid = true ∧ y.stage = .done ∧ y.poly.valid = false ∧
        exec (.aeadFin c win len) s =
          .next (((s.setAead c y).tick.writeBytes win (s.aeadAt c).tag).finish 16)) ∧
    (len.toNat = 16 → s.inRange win len = true →
      ∃ y : AeadCtx, y.valid = true ∧ y.stage = .done ∧ y.poly.valid = false ∧
        exec (.aeadVfy c win len) s =
          .next ((s.setAead c y).tick.finish
            (if (s.aeadAt c).tag = s.readBytes win 16 then 1 else 0))) ∧
    (len.toNat < 16 → exec (.aeadFin c win len) s = .next (s.raise .capacity)) ∧
    (len.toNat ≠ 16 → exec (.aeadVfy c win len) s = .next (s.raise .capacity))

/-- `AEAD.ENCSZ` and `ASC.ENCSZ`: the words that are the command, the two errors, and the identity, in
every stage and changing nothing else (R212, R249). -/
def Obligations.EncszAnswers : Prop :=
  (∀ (w : Descriptor) (c : Ctx) (slen : Word),
    (decode w = .ok (.aeadEncsz c slen) ↔
      w = ⟨0x56000000 ||| c.setWidth 32 <<< 20, 0, slen, 0, 0, 0⟩) ∧
    (decode w = .ok (.ascEncsz c slen) ↔
      w = ⟨0x66000000 ||| c.setWidth 32 <<< 20, 0, slen, 0, 0, 0⟩)) ∧
  (∀ (c : Ctx) (slen : Word) (s : State), s.hasCtx c = false →
    exec (.aeadEncsz c slen) s = .next (s.raise .illegal) ∧
    exec (.ascEncsz c slen) s = .next (s.raise .illegal)) ∧
  ∀ (c : Ctx) (slen : Word) (s : State), s.hasCtx c = true →
    exec (.aeadEncsz c slen) s =
      (if (s.aeadAt c).valid then .next { s with status := 0, result := slen }
      else .next (s.raise .usage)) ∧
    exec (.ascEncsz c slen) s =
      (if (s.ascAt c).valid then .next { s with status := 0, result := slen }
      else .next (s.raise .usage))

/-- Laws L1 to L4 of the stream-cipher port: the output has the input's length; it is the input XOR a
keystream that the instance and the length decide, as they decide the next instance; a shorter
keystream is a prefix of a longer one; a call of whole blocks continues at the next byte (R200). -/
def Obligations.StreamPortLaws : Prop :=
  ∀ (bs : Nat) (σ : Sigma) (X Y : List Byte) (n m : Nat),
    (scXor bs σ X).2 = xorBytes X (keystream bs σ X.length) ∧
    (scXor bs σ X).2.length = X.length ∧
    (X.length = Y.length → (scXor bs σ X).1 = (scXor bs σ Y).1) ∧
    (scXor bs σ (scXor bs σ X).2) = ((scXor bs σ X).1, X) ∧
    (n ≤ m → keystream bs σ n = (keystream bs σ m).take n) ∧
    (bs ∣ n → keystream bs σ (n + m) =
      keystream bs σ n ++ keystream bs (scXor bs σ (zeros n)).1 m)

/-- Decrypting the ciphertext on a context in the same state gives the plaintext and leaves the same
state as encrypting it did (R208, R219 (1)). -/
def Obligations.AeadDecryptInvertsEncrypt : Prop :=
  ∀ (bs : Nat) (x : AeadCtx) (X : List Byte),
    x.decrypt bs (x.encrypt bs X).2 = ((x.encrypt bs X).1, X)

/-- The tag of a composer is the RFC 8439 tag, under the one-time key, of the MAC input of
R217, however the associated data was cut into commands and the ciphertext into encryptions, whose
output is hashed, and decryptions, whose input is. -/
def Obligations.AeadTagAuthenticatesMacInput : Prop :=
  ∀ (bs : Nat) (cipher : Cipher) (σ : Sigma) (K : List Byte) (junk : Vector Byte 16)
    (ADs : List (List Byte)) (data : List (Bool × List Byte)), K.length = 32 →
    ADs.flatten.length < 2 ^ 64 → (data.map (·.2)).flatten.length < 2 ^ 64 →
    let x : AeadCtx := ⟨true, cipher, σ, P13State.load K junk, .init, 0, 0⟩
    let y := data.foldl
      (fun (y : AeadCtx × List Byte) (piece : Bool × List Byte) =>
        if piece.1 then ((y.1.encrypt bs piece.2).1, y.2 ++ (y.1.encrypt bs piece.2).2)
        else ((y.1.decrypt bs piece.2).1, y.2 ++ piece.2))
      (ADs.foldl AeadCtx.writeAD x, [])
    y.1.tag = rfcTag K (macInput ADs.flatten y.2) ∧ 16 ∣ (macInput ADs.flatten y.2).length

/-- The stage machine of both AEAD units: associated data in stage Data or Done, and data or a tag in
stage Done, is a usage error that changes nothing else (causes (2) to (4) of R283; R203, R240). -/
def Obligations.StageOrderErrors : Prop :=
  ∀ (c : Ctx) (src slen dst dcap : Word) (s : State), s.hasCtx c = true →
    ((s.aeadAt c).stage = .data ∨ (s.aeadAt c).stage = .done →
      exec (.aeadWrad c src slen) s = .next (s.raise .usage)) ∧
    ((s.ascAt c).stage = .data ∨ (s.ascAt c).stage = .done →
      exec (.ascWrad c src slen) s = .next (s.raise .usage)) ∧
    ((s.aeadAt c).stage = .done →
      exec (.aeadEnc c src slen dst dcap) s = .next (s.raise .usage) ∧
      exec (.aeadDec c src slen dst dcap) s = .next (s.raise .usage) ∧
      exec (.aeadFin c dst dcap) s = .next (s.raise .usage) ∧
      exec (.aeadVfy c src slen) s = .next (s.raise .usage)) ∧
    ((s.ascAt c).stage = .done →
      exec (.ascEnc c src slen dst dcap) s = .next (s.raise .usage) ∧
      exec (.ascDec c src slen dst dcap) s = .next (s.raise .usage) ∧
      exec (.ascFin c dst dcap) s = .next (s.raise .usage) ∧
      exec (.ascVfy c src slen) s = .next (s.raise .usage))

/-- The stage never decreases during the life of an instance: a command that is neither a construction
of the context nor a clone into it leaves its `valid` bit as it is and does not lower its stage
(R30). -/
def Obligations.StageNeverDecreases : Prop :=
  ∀ (i : Instr) (s t : State) (c : Ctx), exec i s = .next t →
    ((∀ h, i ≠ .aeadInit c h) →
      (t.aeadAt c).valid = (s.aeadAt c).valid ∧
      (s.aeadAt c).stage.code ≤ (t.aeadAt c).stage.code) ∧
    ((∀ src slen, i ≠ .ascInit128 c src slen ∧ i ≠ .ascInit128a c src slen ∧
        i ≠ .ascInit80pq c src slen) → (∀ b, i ≠ .ascClone b c) →
      (t.ascAt c).valid = (s.ascAt c).valid ∧
      (s.ascAt c).stage.code ≤ (t.ascAt c).stage.code)

/-! ### ASC -/

/-- The three Ascon constructions: header, right-aligned key and nonce seed the state, twelve rounds,
the key XORed in at the tail; cursor 0, stage Init, no associated data (R231, R236 to R239). -/
def Obligations.AsconConstructionAnswers : Prop :=
  ∀ (c : Ctx) (src slen : Word) (s : State), s.hasCtx c = true → s.inRange src slen = true →
    let X := s.readBytes src slen.toNat
    let made := fun (v : AscVar) (header : List Byte) (klen : Nat) =>
      (s.setAsc c ⟨true, v,
        xorInto (perm (toVec 40 (header ++ List.replicate (20 - klen) 0 ++ X)) 12) (40 - klen)
          (X.take klen),
        0, .init, false, X.take klen⟩).finish 0
    (slen.toNat = 32 → exec (.ascInit128 c src slen) s =
      .next (made .ascon128 [0x80, 0x40, 0x0c, 0x06] 16)) ∧
    (slen.toNat = 32 → exec (.ascInit128a c src slen) s =
      .next (made .ascon128a [0x80, 0x80, 0x0c, 0x08] 16)) ∧
    (slen.toNat = 36 → exec (.ascInit80pq c src slen) s =
      .next (made .ascon80pq [0xa0, 0x40, 0x0c, 0x06] 20))

/-- `ASC.WRAD` absorbs the source bytes and enters or stays in stage AssociatedData; the flag that
associated data was seen is set by a byte, not by the call (R243). -/
def Obligations.AscWradAnswers : Prop :=
  ∀ (c : Ctx) (src slen : Word) (s : State), s.hasCtx c = true → (s.ascAt c).valid = true →
    (s.ascAt c).stage = .init ∨ (s.ascAt c).stage = .associatedData →
    s.inRange src slen = true →
    let x := s.ascAt c
    exec (.ascWrad c src slen) s =
      .next ((s.setAsc c { (s.readBytes src slen.toNat).foldl AscCtx.absorb x with
        adAny := x.adAny || slen != 0, stage := .associatedData }).finish 0)

/-- `ASC.ENC` and `ASC.DEC`: the associated data is closed and the domains separated, then the loop of
the rule runs over the source; as many bytes are written as were read. A destination shorter than the
source is a capacity error (R242, R244, R245). -/
def Obligations.AscDataAnswers : Prop :=
  ∀ (c : Ctx) (src slen dst dcap : Word) (s : State),
    s.hasCtx c = true → (s.ascAt c).valid = true → (s.ascAt c).stage ≠ .done →
    (slen.toNat ≤ dcap.toNat → s.windowsOk src slen dst dcap →
      let x := (s.ascAt c).finalizeAD
      let X := s.readBytes src slen.toNat
      x.stage = .data ∧
      exec (.ascEnc c src slen dst dcap) s =
        .next (((s.setAsc c (x.encLoop X).1).writeBytes dst (x.encLoop X).2).finish slen.toNat) ∧
      exec (.ascDec c src slen dst dcap) s =
        .next (((s.setAsc c (x.decLoop X).1).writeBytes dst (x.decLoop X).2).finish slen.toNat)) ∧
    (dcap.toNat < slen.toNat →
      exec (.ascEnc c src slen dst dcap) s = .next (s.raise .capacity) ∧
      exec (.ascDec c src slen dst dcap) s = .next (s.raise .capacity))

/-- `ASC.FIN` writes the 16-byte tag, `ASC.VFY` answers 1 exactly when the source bytes are the tag;
after either the context is valid and in stage Done. A destination under 16 bytes, and a source of
other than 16, are capacity errors (R36, R246 to R248, R297). -/
def Obligations.AscTagAnswers : Prop :=
  ∀ (c : Ctx) (win len : Word) (s : State),
    s.hasCtx c = true → (s.ascAt c).valid = true → (s.ascAt c).stage ≠ .done →
    (16 ≤ len.toNat → s.inRange win len = true →
      ∃ y : AscCtx, y.valid = true ∧ y.stage = .done ∧
        exec (.ascFin c win len) s =
          .next (((s.setAsc c y).tick.writeBytes win (s.ascAt c).tag).finish 16)) ∧
    (len.toNat = 16 → s.inRange win len = true →
      ∃ y : AscCtx, y.valid = true ∧ y.stage = .done ∧
        exec (.ascVfy c win len) s =
          .next ((s.setAsc c y).tick.finish
            (if (s.ascAt c).tag = s.readBytes win 16 then 1 else 0))) ∧
    (len.toNat < 16 → exec (.ascFin c win len) s = .next (s.raise .capacity)) ∧
    (len.toNat ≠ 16 → exec (.ascVfy c win len) s = .next (s.raise .capacity))

/-- Ascon decryption of the ciphertext on a context in the same state gives the plaintext and leaves
the same state; and how a message is cut into commands does not matter (R244, R245, R259 (1)). -/
def Obligations.AsconDecryptInvertsEncrypt : Prop :=
  ∀ (x : AscCtx) (X Y : List Byte),
    x.decrypt (x.encrypt X).2 = ((x.encrypt X).1, X) ∧
    (x.encrypt (X ++ Y)).1 = ((x.encrypt X).1.encrypt Y).1 ∧
    (x.encrypt (X ++ Y)).2 = (x.encrypt X).2 ++ ((x.encrypt X).1.encrypt Y).2

/-! ### ASH -/

/-- `ASH.INIT.HASH`, `ASH.INIT.XOF` and `ASH.WRITE` (R251 to R254). -/
def Obligations.AshConstructionAndWriteAnswer : Prop :=
  ∀ (c : Ctx) (imm src slen : Word) (s : State), s.hasCtx c = true →
    exec (.ashInitHash c) s =
      .next ((s.setAsh c ⟨true, .hash,
        perm (toVec 40 ([0x00, 0x40, 0x0c, 0x00, 0x00, 0x00, 0x01, 0x00] ++ zeros 32)) 12,
        0, 32⟩).finish 0) ∧
    exec (.ashInitXof c imm) s =
      .next ((s.setAsh c ⟨true, .xof,
        perm (toVec 40 ([0x00, 0x40, 0x0c, 0x00, 0x00, 0x00, 0x00, 0x00] ++ zeros 32)) 12,
        0, imm⟩).finish 0) ∧
    ((s.ashAt c).valid = true → s.inRange src slen = true →
      exec (.ashWrite c src slen) s =
        .next ((s.setAsh c ((s.readBytes src slen.toNat).foldl AshCtx.absorb (s.ashAt c))).finish 0))

/-- `ASH.SUM` writes `dlen` bytes of digest and leaves the context as it was; `ASH.SUMIN` writes the
same and consumes the context, whose other fields may then be anything; a destination shorter than
the digest is a capacity error of both (R36, R255 to R257). -/
def Obligations.AshSumAnswers : Prop :=
  ∀ (c : Ctx) (dst dcap : Word) (s : State), s.hasCtx c = true → (s.ashAt c).valid = true →
    ((s.ashAt c).dlen.toNat ≤ dcap.toNat → s.inRange dst dcap = true →
      exec (.ashSum c dst dcap) s =
        .next ((s.writeBytes dst (s.ashAt c).digest).finish (s.ashAt c).dlen.toNat) ∧
      ∃ y : AshCtx, y.valid = false ∧ exec (.ashSumin c dst dcap) s =
        .next (((s.setAsh c y).tick.writeBytes dst (s.ashAt c).digest).finish
          (s.ashAt c).dlen.toNat)) ∧
    (dcap.toNat < (s.ashAt c).dlen.toNat →
      exec (.ashSum c dst dcap) s = .next (s.raise .capacity) ∧
      exec (.ashSumin c dst dcap) s = .next (s.raise .capacity))

/-- An Ascon digest of n bytes is the first n bytes of the digest of any greater length for the same
absorbed message (R259 (3)). -/
def Obligations.XofDigestIsPrefix : Prop :=
  ∀ (x : AshCtx) (n m : Word), n.toNat ≤ m.toNat →
    ({ x with dlen := n } : AshCtx).digest.length = n.toNat ∧
    ({ x with dlen := n } : AshCtx).digest = ({ x with dlen := m } : AshCtx).digest.take n.toNat
end

