-- ==== Sys2Proof/Laws/Bytes.lean ====
section
/-! SUPPORT. The small lemmas of the byte-string operations: lengths, XOR, the integer readings and
the comparison of tags. -/

namespace Sys2Proof.Machine

@[simp] theorem zeros_length (n : Nat) : (zeros n).length = n := by simp [zeros]

@[simp] theorem xorBytes_length (X Y : List Byte) :
    (xorBytes X Y).length = min X.length Y.length := by simp [xorBytes]

/-- XOR with the same string twice gives the string back. -/
theorem xorBytes_cancel (X Y : List Byte) (h : X.length ≤ Y.length) :
    xorBytes (xorBytes X Y) Y = X := by
  induction X generalizing Y with
  | nil => simp [xorBytes]
  | cons x X ih =>
    cases Y with
    | nil => simp at h
    | cons y Y =>
      have := ih Y (by simpa using h)
      simp only [xorBytes] at this ⊢
      simp [this]

@[simp] theorem toLE_length (v n : Nat) : (toLE v n).length = n := by
  induction n generalizing v with
  | zero => rfl
  | succ n ih => simp [toLE, ih]

@[simp] theorem toBE_length (v n : Nat) : (toBE v n).length = n := by simp [toBE]

@[simp] theorem slice_length (X : List Byte) (i j : Nat) :
    (slice X i j).length = min (j - i) (X.length - i) := by simp [slice]

theorem leNat_lt (X : List Byte) : leNat X < 256 ^ X.length := by
  induction X with
  | nil => simp [leNat]
  | cons b X ih => simp only [leNat, List.length_cons, Nat.pow_succ]; have := b.isLt; omega

/-- `LE(toLE(v, n)) = v mod 256^n`. -/
theorem leNat_toLE (v n : Nat) : leNat (toLE v n) = v % 256 ^ n := by
  induction n generalizing v with
  | zero => simp [toLE, leNat, Nat.mod_one]
  | succ n ih =>
    simp only [toLE, leNat, ih, BitVec.toNat_ofNat, Nat.reducePow]
    rw [Nat.pow_succ, Nat.mul_comm (256 ^ n) 256, Nat.mod_mul]

/-- `toLE(LE(X), |X|) = X`. -/
theorem toLE_leNat (X : List Byte) : toLE (leNat X) X.length = X := by
  induction X with
  | nil => rfl
  | cons b X ih =>
    simp only [List.length_cons, toLE, leNat]
    have hb := b.isLt
    rw [show (b.toNat + 256 * leNat X) / 256 = leNat X by omega, ih]
    congr 1
    apply BitVec.eq_of_toNat_eq
    simp only [BitVec.toNat_ofNat]
    omega

theorem leNat_append (X Y : List Byte) : leNat (X ++ Y) = leNat X + 256 ^ X.length * leNat Y := by
  induction X with
  | nil => simp [leNat]
  | cons b X ih => simp only [List.cons_append, leNat, ih, List.length_cons, Nat.pow_succ]; ring

@[simp] theorem leNat_zeros (n : Nat) : leNat (zeros n) = 0 := by
  induction n with
  | zero => rfl
  | succ n ih => simpa [zeros, List.replicate_succ, leNat] using ih

@[simp] theorem toVec_toList {n : Nat} (V : Vector Byte n) : toVec n V.toList = V := by
  ext i h
  simp [toVec]

theorem toList_toVec {n : Nat} (X : List Byte) (h : X.length = n) : (toVec n X).toList = X := by
  subst h
  apply List.ext_getElem
  · simp
  · intro i h₁ h₂
    simp [toVec]

/-- The OR-accumulated comparison answers equality of the two 16-byte strings. -/
theorem tagsAgree_iff (T X : List Byte) (hT : T.length = 16) (hX : X.length = 16) :
    tagsAgree T X = true ↔ T = X := by
  have byte : ∀ d a b : Byte, d ||| (a ^^^ b) = 0 ↔ d = 0 ∧ a = b := fun d a b => by
    change d ||| (a ^^^ b) = 0#8 ↔ d = 0#8 ∧ a = b
    rw [BitVec.or_eq_zero_iff, BitVec.xor_eq_zero_iff]
  have fold : ∀ (l : List Nat) (d : Byte),
      l.foldl (fun diff i => diff ||| (T.getD i 0 ^^^ X.getD i 0)) d = 0 ↔
        d = 0 ∧ ∀ i ∈ l, T.getD i 0 = X.getD i 0 := by
    intro l
    induction l with
    | nil => simp
    | cons i l ih =>
      intro d
      simp only [List.foldl_cons, ih, List.mem_cons, forall_eq_or_imp]
      rw [byte, and_assoc]
  rw [tagsAgree, beq_iff_eq, fold]
  constructor
  · intro ⟨_, h⟩
    apply List.ext_getElem (by omega)
    intro i h₁ h₂
    have := h i (by simp; omega)
    rwa [List.getD_eq_getElem _ _ h₁, List.getD_eq_getElem _ _ h₂] at this
  · rintro rfl
    exact ⟨rfl, fun _ _ => rfl⟩

end Sys2Proof.Machine
end

