-- ==== Sys2Proof/Laws/State.lean ====
section
/-! SUPPORT. What every update of the state leaves in every field, one lemma each, and what the
context accessors read after each update. -/

namespace Sys2Proof.Machine

/-! ### `finish` -/

@[simp] theorem State.finish_status (s : State) (v : Nat) : (s.finish v).status = 0 := rfl
@[simp] theorem State.finish_result (s : State) (v : Nat) :
    (s.finish v).result = BitVec.ofNat 32 v := rfl
@[simp] theorem State.finish_mem (s : State) (v : Nat) : (s.finish v).mem = s.mem := rfl
@[simp] theorem State.finish_cbc (s : State) (v : Nat) : (s.finish v).cbc = s.cbc := rfl
@[simp] theorem State.finish_p13 (s : State) (v : Nat) : (s.finish v).p13 = s.p13 := rfl
@[simp] theorem State.finish_sc (s : State) (v : Nat) : (s.finish v).sc = s.sc := rfl
@[simp] theorem State.finish_aead (s : State) (v : Nat) : (s.finish v).aead = s.aead := rfl
@[simp] theorem State.finish_asc (s : State) (v : Nat) : (s.finish v).asc = s.asc := rfl
@[simp] theorem State.finish_ash (s : State) (v : Nat) : (s.finish v).ash = s.ash := rfl
@[simp] theorem State.finish_par (s : State) (v : Nat) : (s.finish v).par = s.par := rfl
@[simp] theorem State.finish_inputs (s : State) (v : Nat) : (s.finish v).inputs = s.inputs := rfl
@[simp] theorem State.finish_fresh (s : State) (v : Nat) : (s.finish v).fresh = s.fresh := rfl
@[simp] theorem State.finish_cbcAt (s : State) (v : Nat) (d : Ctx) :
    (s.finish v).cbcAt d = s.cbcAt d := rfl
@[simp] theorem State.finish_p13At (s : State) (v : Nat) (d : Ctx) :
    (s.finish v).p13At d = s.p13At d := rfl
@[simp] theorem State.finish_scAt (s : State) (v : Nat) (d : Ctx) :
    (s.finish v).scAt d = s.scAt d := rfl
@[simp] theorem State.finish_aeadAt (s : State) (v : Nat) (d : Ctx) :
    (s.finish v).aeadAt d = s.aeadAt d := rfl
@[simp] theorem State.finish_ascAt (s : State) (v : Nat) (d : Ctx) :
    (s.finish v).ascAt d = s.ascAt d := rfl
@[simp] theorem State.finish_ashAt (s : State) (v : Nat) (d : Ctx) :
    (s.finish v).ashAt d = s.ashAt d := rfl
@[simp] theorem State.finish_hasCtx (s : State) (v : Nat) (d : Ctx) :
    (s.finish v).hasCtx d = s.hasCtx d := rfl
@[simp] theorem State.finish_blockSizeAt (s : State) (v : Nat) (d : Ctx) :
    (s.finish v).blockSizeAt d = s.blockSizeAt d := rfl
@[simp] theorem State.finish_inRange (s : State) (v : Nat) (addr len : Word) :
    (s.finish v).inRange addr len = s.inRange addr len := rfl
@[simp] theorem State.finish_readByte (s : State) (v : Nat) (i : Nat) :
    (s.finish v).readByte i = s.readByte i := rfl
@[simp] theorem State.finish_readBytes (s : State) (v : Nat) (i : Word) (n : Nat) :
    (s.finish v).readBytes i n = s.readBytes i n := rfl

/-! ### `raise` -/

@[simp] theorem State.raise_status (s : State) (e : Err) : (s.raise e).status = e.code := rfl
@[simp] theorem State.raise_result (s : State) (e : Err) : (s.raise e).result = 0 := rfl
@[simp] theorem State.raise_mem (s : State) (e : Err) : (s.raise e).mem = s.mem := rfl
@[simp] theorem State.raise_cbc (s : State) (e : Err) : (s.raise e).cbc = s.cbc := rfl
@[simp] theorem State.raise_p13 (s : State) (e : Err) : (s.raise e).p13 = s.p13 := rfl
@[simp] theorem State.raise_sc (s : State) (e : Err) : (s.raise e).sc = s.sc := rfl
@[simp] theorem State.raise_aead (s : State) (e : Err) : (s.raise e).aead = s.aead := rfl
@[simp] theorem State.raise_asc (s : State) (e : Err) : (s.raise e).asc = s.asc := rfl
@[simp] theorem State.raise_ash (s : State) (e : Err) : (s.raise e).ash = s.ash := rfl
@[simp] theorem State.raise_par (s : State) (e : Err) : (s.raise e).par = s.par := rfl
@[simp] theorem State.raise_inputs (s : State) (e : Err) : (s.raise e).inputs = s.inputs := rfl
@[simp] theorem State.raise_fresh (s : State) (e : Err) : (s.raise e).fresh = s.fresh := rfl
@[simp] theorem State.raise_cbcAt (s : State) (e : Err) (d : Ctx) :
    (s.raise e).cbcAt d = s.cbcAt d := rfl
@[simp] theorem State.raise_p13At (s : State) (e : Err) (d : Ctx) :
    (s.raise e).p13At d = s.p13At d := rfl
@[simp] theorem State.raise_scAt (s : State) (e : Err) (d : Ctx) :
    (s.raise e).scAt d = s.scAt d := rfl
@[simp] theorem State.raise_aeadAt (s : State) (e : Err) (d : Ctx) :
    (s.raise e).aeadAt d = s.aeadAt d := rfl
@[simp] theorem State.raise_ascAt (s : State) (e : Err) (d : Ctx) :
    (s.raise e).ascAt d = s.ascAt d := rfl
@[simp] theorem State.raise_ashAt (s : State) (e : Err) (d : Ctx) :
    (s.raise e).ashAt d = s.ashAt d := rfl
@[simp] theorem State.raise_hasCtx (s : State) (e : Err) (d : Ctx) :
    (s.raise e).hasCtx d = s.hasCtx d := rfl
@[simp] theorem State.raise_blockSizeAt (s : State) (e : Err) (d : Ctx) :
    (s.raise e).blockSizeAt d = s.blockSizeAt d := rfl
@[simp] theorem State.raise_inRange (s : State) (e : Err) (addr len : Word) :
    (s.raise e).inRange addr len = s.inRange addr len := rfl
@[simp] theorem State.raise_readByte (s : State) (e : Err) (i : Nat) :
    (s.raise e).readByte i = s.readByte i := rfl
@[simp] theorem State.raise_readBytes (s : State) (e : Err) (i : Word) (n : Nat) :
    (s.raise e).readBytes i n = s.readBytes i n := rfl

/-! ### `writeBytes` -/

@[simp] theorem State.writeBytes_status (s : State) (a : Word) (X : List Byte) :
    (s.writeBytes a X).status = s.status := rfl
@[simp] theorem State.writeBytes_result (s : State) (a : Word) (X : List Byte) :
    (s.writeBytes a X).result = s.result := rfl
@[simp] theorem State.writeBytes_mem (s : State) (a : Word) (X : List Byte) :
    (s.writeBytes a X).mem = s.mem.writeBytes a.toNat X := rfl
@[simp] theorem State.writeBytes_cbc (s : State) (a : Word) (X : List Byte) :
    (s.writeBytes a X).cbc = s.cbc := rfl
@[simp] theorem State.writeBytes_p13 (s : State) (a : Word) (X : List Byte) :
    (s.writeBytes a X).p13 = s.p13 := rfl
@[simp] theorem State.writeBytes_sc (s : State) (a : Word) (X : List Byte) :
    (s.writeBytes a X).sc = s.sc := rfl
@[simp] theorem State.writeBytes_aead (s : State) (a : Word) (X : List Byte) :
    (s.writeBytes a X).aead = s.aead := rfl
@[simp] theorem State.writeBytes_asc (s : State) (a : Word) (X : List Byte) :
    (s.writeBytes a X).asc = s.asc := rfl
@[simp] theorem State.writeBytes_ash (s : State) (a : Word) (X : List Byte) :
    (s.writeBytes a X).ash = s.ash := rfl
@[simp] theorem State.writeBytes_par (s : State) (a : Word) (X : List Byte) :
    (s.writeBytes a X).par = s.par := rfl
@[simp] theorem State.writeBytes_inputs (s : State) (a : Word) (X : List Byte) :
    (s.writeBytes a X).inputs = s.inputs := rfl
@[simp] theorem State.writeBytes_fresh (s : State) (a : Word) (X : List Byte) :
    (s.writeBytes a X).fresh = s.fresh := rfl
@[simp] theorem State.writeBytes_cbcAt (s : State) (a : Word) (X : List Byte) (d : Ctx) :
    (s.writeBytes a X).cbcAt d = s.cbcAt d := rfl
@[simp] theorem State.writeBytes_p13At (s : State) (a : Word) (X : List Byte) (d : Ctx) :
    (s.writeBytes a X).p13At d = s.p13At d := rfl
@[simp] theorem State.writeBytes_scAt (s : State) (a : Word) (X : List Byte) (d : Ctx) :
    (s.writeBytes a X).scAt d = s.scAt d := rfl
@[simp] theorem State.writeBytes_aeadAt (s : State) (a : Word) (X : List Byte) (d : Ctx) :
    (s.writeBytes a X).aeadAt d = s.aeadAt d := rfl
@[simp] theorem State.writeBytes_ascAt (s : State) (a : Word) (X : List Byte) (d : Ctx) :
    (s.writeBytes a X).ascAt d = s.ascAt d := rfl
@[simp] theorem State.writeBytes_ashAt (s : State) (a : Word) (X : List Byte) (d : Ctx) :
    (s.writeBytes a X).ashAt d = s.ashAt d := rfl
@[simp] theorem State.writeBytes_hasCtx (s : State) (a : Word) (X : List Byte) (d : Ctx) :
    (s.writeBytes a X).hasCtx d = s.hasCtx d := rfl
@[simp] theorem State.writeBytes_blockSizeAt (s : State) (a : Word) (X : List Byte) (d : Ctx) :
    (s.writeBytes a X).blockSizeAt d = s.blockSizeAt d := rfl
@[simp] theorem State.writeBytes_inRange (s : State) (a : Word) (X : List Byte) (addr len : Word) :
    (s.writeBytes a X).inRange addr len = s.inRange addr len := rfl

/-! ### `tick` -/

@[simp] theorem State.tick_status (s : State) : s.tick.status = s.status := rfl
@[simp] theorem State.tick_result (s : State) : s.tick.result = s.result := rfl
@[simp] theorem State.tick_mem (s : State) : s.tick.mem = s.mem := rfl
@[simp] theorem State.tick_cbc (s : State) : s.tick.cbc = s.cbc := rfl
@[simp] theorem State.tick_p13 (s : State) : s.tick.p13 = s.p13 := rfl
@[simp] theorem State.tick_sc (s : State) : s.tick.sc = s.sc := rfl
@[simp] theorem State.tick_aead (s : State) : s.tick.aead = s.aead := rfl
@[simp] theorem State.tick_asc (s : State) : s.tick.asc = s.asc := rfl
@[simp] theorem State.tick_ash (s : State) : s.tick.ash = s.ash := rfl
@[simp] theorem State.tick_par (s : State) : s.tick.par = s.par := rfl
@[simp] theorem State.tick_inputs (s : State) : s.tick.inputs = s.inputs := rfl
@[simp] theorem State.tick_fresh (s : State) : s.tick.fresh = s.fresh + 1 := rfl
@[simp] theorem State.tick_cbcAt (s : State) (d : Ctx) : s.tick.cbcAt d = s.cbcAt d := rfl
@[simp] theorem State.tick_p13At (s : State) (d : Ctx) : s.tick.p13At d = s.p13At d := rfl
@[simp] theorem State.tick_scAt (s : State) (d : Ctx) : s.tick.scAt d = s.scAt d := rfl
@[simp] theorem State.tick_aeadAt (s : State) (d : Ctx) : s.tick.aeadAt d = s.aeadAt d := rfl
@[simp] theorem State.tick_ascAt (s : State) (d : Ctx) : s.tick.ascAt d = s.ascAt d := rfl
@[simp] theorem State.tick_ashAt (s : State) (d : Ctx) : s.tick.ashAt d = s.ashAt d := rfl
@[simp] theorem State.tick_hasCtx (s : State) (d : Ctx) : s.tick.hasCtx d = s.hasCtx d := rfl
@[simp] theorem State.tick_blockSizeAt (s : State) (d : Ctx) :
    s.tick.blockSizeAt d = s.blockSizeAt d := rfl
@[simp] theorem State.tick_inRange (s : State) (addr len : Word) :
    s.tick.inRange addr len = s.inRange addr len := rfl
@[simp] theorem State.tick_readByte (s : State) (i : Nat) : s.tick.readByte i = s.readByte i := rfl
@[simp] theorem State.tick_readBytes (s : State) (i : Word) (n : Nat) :
    s.tick.readBytes i n = s.readBytes i n := rfl

/-! ### `withInputs` -/

@[simp] theorem State.withInputs_status (s : State) (q : List HostAction) :
    (s.withInputs q).status = s.status := rfl
@[simp] theorem State.withInputs_result (s : State) (q : List HostAction) :
    (s.withInputs q).result = s.result := rfl
@[simp] theorem State.withInputs_mem (s : State) (q : List HostAction) :
    (s.withInputs q).mem = s.mem := rfl
@[simp] theorem State.withInputs_cbc (s : State) (q : List HostAction) :
    (s.withInputs q).cbc = s.cbc := rfl
@[simp] theorem State.withInputs_p13 (s : State) (q : List HostAction) :
    (s.withInputs q).p13 = s.p13 := rfl
@[simp] theorem State.withInputs_sc (s : State) (q : List HostAction) :
    (s.withInputs q).sc = s.sc := rfl
@[simp] theorem State.withInputs_aead (s : State) (q : List HostAction) :
    (s.withInputs q).aead = s.aead := rfl
@[simp] theorem State.withInputs_asc (s : State) (q : List HostAction) :
    (s.withInputs q).asc = s.asc := rfl
@[simp] theorem State.withInputs_ash (s : State) (q : List HostAction) :
    (s.withInputs q).ash = s.ash := rfl
@[simp] theorem State.withInputs_par (s : State) (q : List HostAction) :
    (s.withInputs q).par = s.par := rfl
@[simp] theorem State.withInputs_inputs (s : State) (q : List HostAction) :
    (s.withInputs q).inputs = q := rfl
@[simp] theorem State.withInputs_fresh (s : State) (q : List HostAction) :
    (s.withInputs q).fresh = s.fresh := rfl
@[simp] theorem State.withInputs_cbcAt (s : State) (q : List HostAction) (d : Ctx) :
    (s.withInputs q).cbcAt d = s.cbcAt d := rfl
@[simp] theorem State.withInputs_p13At (s : State) (q : List HostAction) (d : Ctx) :
    (s.withInputs q).p13At d = s.p13At d := rfl
@[simp] theorem State.withInputs_scAt (s : State) (q : List HostAction) (d : Ctx) :
    (s.withInputs q).scAt d = s.scAt d := rfl
@[simp] theorem State.withInputs_aeadAt (s : State) (q : List HostAction) (d : Ctx) :
    (s.withInputs q).aeadAt d = s.aeadAt d := rfl
@[simp] theorem State.withInputs_ascAt (s : State) (q : List HostAction) (d : Ctx) :
    (s.withInputs q).ascAt d = s.ascAt d := rfl
@[simp] theorem State.withInputs_ashAt (s : State) (q : List HostAction) (d : Ctx) :
    (s.withInputs q).ashAt d = s.ashAt d := rfl
@[simp] theorem State.withInputs_hasCtx (s : State) (q : List HostAction) (d : Ctx) :
    (s.withInputs q).hasCtx d = s.hasCtx d := rfl
@[simp] theorem State.withInputs_blockSizeAt (s : State) (q : List HostAction) (d : Ctx) :
    (s.withInputs q).blockSizeAt d = s.blockSizeAt d := rfl
@[simp] theorem State.withInputs_inRange (s : State) (q : List HostAction) (addr len : Word) :
    (s.withInputs q).inRange addr len = s.inRange addr len := rfl
@[simp] theorem State.withInputs_readByte (s : State) (q : List HostAction) (i : Nat) :
    (s.withInputs q).readByte i = s.readByte i := rfl
@[simp] theorem State.withInputs_readBytes (s : State) (q : List HostAction) (i : Word) (n : Nat) :
    (s.withInputs q).readBytes i n = s.readBytes i n := rfl

/-! ### `setCbc` -/

@[simp] theorem State.setCbc_status (s : State) (c : Ctx) (x : CbcCtx) :
    (s.setCbc c x).status = s.status := rfl
@[simp] theorem State.setCbc_result (s : State) (c : Ctx) (x : CbcCtx) :
    (s.setCbc c x).result = s.result := rfl
@[simp] theorem State.setCbc_mem (s : State) (c : Ctx) (x : CbcCtx) :
    (s.setCbc c x).mem = s.mem := rfl
@[simp] theorem State.setCbc_cbc (s : State) (c : Ctx) (x : CbcCtx) :
    (s.setCbc c x).cbc = setSlot s.cbc c x := rfl
@[simp] theorem State.setCbc_p13 (s : State) (c : Ctx) (x : CbcCtx) :
    (s.setCbc c x).p13 = s.p13 := rfl
@[simp] theorem State.setCbc_sc (s : State) (c : Ctx) (x : CbcCtx) : (s.setCbc c x).sc = s.sc := rfl
@[simp] theorem State.setCbc_aead (s : State) (c : Ctx) (x : CbcCtx) :
    (s.setCbc c x).aead = s.aead := rfl
@[simp] theorem State.setCbc_asc (s : State) (c : Ctx) (x : CbcCtx) :
    (s.setCbc c x).asc = s.asc := rfl
@[simp] theorem State.setCbc_ash (s : State) (c : Ctx) (x : CbcCtx) :
    (s.setCbc c x).ash = s.ash := rfl
@[simp] theorem State.setCbc_par (s : State) (c : Ctx) (x : CbcCtx) :
    (s.setCbc c x).par = s.par := rfl
@[simp] theorem State.setCbc_inputs (s : State) (c : Ctx) (x : CbcCtx) :
    (s.setCbc c x).inputs = s.inputs := rfl
@[simp] theorem State.setCbc_fresh (s : State) (c : Ctx) (x : CbcCtx) :
    (s.setCbc c x).fresh = s.fresh := rfl
@[simp] theorem State.setCbc_p13At (s : State) (c : Ctx) (x : CbcCtx) (d : Ctx) :
    (s.setCbc c x).p13At d = s.p13At d := rfl
@[simp] theorem State.setCbc_scAt (s : State) (c : Ctx) (x : CbcCtx) (d : Ctx) :
    (s.setCbc c x).scAt d = s.scAt d := rfl
@[simp] theorem State.setCbc_aeadAt (s : State) (c : Ctx) (x : CbcCtx) (d : Ctx) :
    (s.setCbc c x).aeadAt d = s.aeadAt d := rfl
@[simp] theorem State.setCbc_ascAt (s : State) (c : Ctx) (x : CbcCtx) (d : Ctx) :
    (s.setCbc c x).ascAt d = s.ascAt d := rfl
@[simp] theorem State.setCbc_ashAt (s : State) (c : Ctx) (x : CbcCtx) (d : Ctx) :
    (s.setCbc c x).ashAt d = s.ashAt d := rfl
@[simp] theorem State.setCbc_hasCtx (s : State) (c : Ctx) (x : CbcCtx) (d : Ctx) :
    (s.setCbc c x).hasCtx d = s.hasCtx d := rfl
@[simp] theorem State.setCbc_blockSizeAt (s : State) (c : Ctx) (x : CbcCtx) (d : Ctx) :
    (s.setCbc c x).blockSizeAt d = s.blockSizeAt d := rfl
@[simp] theorem State.setCbc_inRange (s : State) (c : Ctx) (x : CbcCtx) (addr len : Word) :
    (s.setCbc c x).inRange addr len = s.inRange addr len := rfl
@[simp] theorem State.setCbc_readByte (s : State) (c : Ctx) (x : CbcCtx) (i : Nat) :
    (s.setCbc c x).readByte i = s.readByte i := rfl
@[simp] theorem State.setCbc_readBytes (s : State) (c : Ctx) (x : CbcCtx) (i : Word) (n : Nat) :
    (s.setCbc c x).readBytes i n = s.readBytes i n := rfl

/-! ### `setP13` -/

@[simp] theorem State.setP13_status (s : State) (c : Ctx) (x : P13State) :
    (s.setP13 c x).status = s.status := rfl
@[simp] theorem State.setP13_result (s : State) (c : Ctx) (x : P13State) :
    (s.setP13 c x).result = s.result := rfl
@[simp] theorem State.setP13_mem (s : State) (c : Ctx) (x : P13State) :
    (s.setP13 c x).mem = s.mem := rfl
@[simp] theorem State.setP13_cbc (s : State) (c : Ctx) (x : P13State) :
    (s.setP13 c x).cbc = s.cbc := rfl
@[simp] theorem State.setP13_p13 (s : State) (c : Ctx) (x : P13State) :
    (s.setP13 c x).p13 = setSlot s.p13 c x := rfl
@[simp] theorem State.setP13_sc (s : State) (c : Ctx) (x : P13State) :
    (s.setP13 c x).sc = s.sc := rfl
@[simp] theorem State.setP13_aead (s : State) (c : Ctx) (x : P13State) :
    (s.setP13 c x).aead = s.aead := rfl
@[simp] theorem State.setP13_asc (s : State) (c : Ctx) (x : P13State) :
    (s.setP13 c x).asc = s.asc := rfl
@[simp] theorem State.setP13_ash (s : State) (c : Ctx) (x : P13State) :
    (s.setP13 c x).ash = s.ash := rfl
@[simp] theorem State.setP13_par (s : State) (c : Ctx) (x : P13State) :
    (s.setP13 c x).par = s.par := rfl
@[simp] theorem State.setP13_inputs (s : State) (c : Ctx) (x : P13State) :
    (s.setP13 c x).inputs = s.inputs := rfl
@[simp] theorem State.setP13_fresh (s : State) (c : Ctx) (x : P13State) :
    (s.setP13 c x).fresh = s.fresh := rfl
@[simp] theorem State.setP13_cbcAt (s : State) (c : Ctx) (x : P13State) (d : Ctx) :
    (s.setP13 c x).cbcAt d = s.cbcAt d := rfl
@[simp] theorem State.setP13_scAt (s : State) (c : Ctx) (x : P13State) (d : Ctx) :
    (s.setP13 c x).scAt d = s.scAt d := rfl
@[simp] theorem State.setP13_aeadAt (s : State) (c : Ctx) (x : P13State) (d : Ctx) :
    (s.setP13 c x).aeadAt d = s.aeadAt d := rfl
@[simp] theorem State.setP13_ascAt (s : State) (c : Ctx) (x : P13State) (d : Ctx) :
    (s.setP13 c x).ascAt d = s.ascAt d := rfl
@[simp] theorem State.setP13_ashAt (s : State) (c : Ctx) (x : P13State) (d : Ctx) :
    (s.setP13 c x).ashAt d = s.ashAt d := rfl
@[simp] theorem State.setP13_hasCtx (s : State) (c : Ctx) (x : P13State) (d : Ctx) :
    (s.setP13 c x).hasCtx d = s.hasCtx d := rfl
@[simp] theorem State.setP13_blockSizeAt (s : State) (c : Ctx) (x : P13State) (d : Ctx) :
    (s.setP13 c x).blockSizeAt d = s.blockSizeAt d := rfl
@[simp] theorem State.setP13_inRange (s : State) (c : Ctx) (x : P13State) (addr len : Word) :
    (s.setP13 c x).inRange addr len = s.inRange addr len := rfl
@[simp] theorem State.setP13_readByte (s : State) (c : Ctx) (x : P13State) (i : Nat) :
    (s.setP13 c x).readByte i = s.readByte i := rfl
@[simp] theorem State.setP13_readBytes (s : State) (c : Ctx) (x : P13State) (i : Word) (n : Nat) :
    (s.setP13 c x).readBytes i n = s.readBytes i n := rfl

/-! ### `setSc` -/

@[simp] theorem State.setSc_status (s : State) (c : Ctx) (x : ScCtx) :
    (s.setSc c x).status = s.status := rfl
@[simp] theorem State.setSc_result (s : State) (c : Ctx) (x : ScCtx) :
    (s.setSc c x).result = s.result := rfl
@[simp] theorem State.setSc_mem (s : State) (c : Ctx) (x : ScCtx) : (s.setSc c x).mem = s.mem := rfl
@[simp] theorem State.setSc_cbc (s : State) (c : Ctx) (x : ScCtx) : (s.setSc c x).cbc = s.cbc := rfl
@[simp] theorem State.setSc_p13 (s : State) (c : Ctx) (x : ScCtx) : (s.setSc c x).p13 = s.p13 := rfl
@[simp] theorem State.setSc_sc (s : State) (c : Ctx) (x : ScCtx) :
    (s.setSc c x).sc = setSlot s.sc c x := rfl
@[simp] theorem State.setSc_aead (s : State) (c : Ctx) (x : ScCtx) :
    (s.setSc c x).aead = s.aead := rfl
@[simp] theorem State.setSc_asc (s : State) (c : Ctx) (x : ScCtx) : (s.setSc c x).asc = s.asc := rfl
@[simp] theorem State.setSc_ash (s : State) (c : Ctx) (x : ScCtx) : (s.setSc c x).ash = s.ash := rfl
@[simp] theorem State.setSc_par (s : State) (c : Ctx) (x : ScCtx) : (s.setSc c x).par = s.par := rfl
@[simp] theorem State.setSc_inputs (s : State) (c : Ctx) (x : ScCtx) :
    (s.setSc c x).inputs = s.inputs := rfl
@[simp] theorem State.setSc_fresh (s : State) (c : Ctx) (x : ScCtx) :
    (s.setSc c x).fresh = s.fresh := rfl
@[simp] theorem State.setSc_cbcAt (s : State) (c : Ctx) (x : ScCtx) (d : Ctx) :
    (s.setSc c x).cbcAt d = s.cbcAt d := rfl
@[simp] theorem State.setSc_p13At (s : State) (c : Ctx) (x : ScCtx) (d : Ctx) :
    (s.setSc c x).p13At d = s.p13At d := rfl
@[simp] theorem State.setSc_aeadAt (s : State) (c : Ctx) (x : ScCtx) (d : Ctx) :
    (s.setSc c x).aeadAt d = s.aeadAt d := rfl
@[simp] theorem State.setSc_ascAt (s : State) (c : Ctx) (x : ScCtx) (d : Ctx) :
    (s.setSc c x).ascAt d = s.ascAt d := rfl
@[simp] theorem State.setSc_ashAt (s : State) (c : Ctx) (x : ScCtx) (d : Ctx) :
    (s.setSc c x).ashAt d = s.ashAt d := rfl
@[simp] theorem State.setSc_hasCtx (s : State) (c : Ctx) (x : ScCtx) (d : Ctx) :
    (s.setSc c x).hasCtx d = s.hasCtx d := rfl
@[simp] theorem State.setSc_blockSizeAt (s : State) (c : Ctx) (x : ScCtx) (d : Ctx) :
    (s.setSc c x).blockSizeAt d = s.blockSizeAt d := rfl
@[simp] theorem State.setSc_inRange (s : State) (c : Ctx) (x : ScCtx) (addr len : Word) :
    (s.setSc c x).inRange addr len = s.inRange addr len := rfl
@[simp] theorem State.setSc_readByte (s : State) (c : Ctx) (x : ScCtx) (i : Nat) :
    (s.setSc c x).readByte i = s.readByte i := rfl
@[simp] theorem State.setSc_readBytes (s : State) (c : Ctx) (x : ScCtx) (i : Word) (n : Nat) :
    (s.setSc c x).readBytes i n = s.readBytes i n := rfl

/-! ### `setAead` -/

@[simp] theorem State.setAead_status (s : State) (c : Ctx) (x : AeadCtx) :
    (s.setAead c x).status = s.status := rfl
@[simp] theorem State.setAead_result (s : State) (c : Ctx) (x : AeadCtx) :
    (s.setAead c x).result = s.result := rfl
@[simp] theorem State.setAead_mem (s : State) (c : Ctx) (x : AeadCtx) :
    (s.setAead c x).mem = s.mem := rfl
@[simp] theorem State.setAead_cbc (s : State) (c : Ctx) (x : AeadCtx) :
    (s.setAead c x).cbc = s.cbc := rfl
@[simp] theorem State.setAead_p13 (s : State) (c : Ctx) (x : AeadCtx) :
    (s.setAead c x).p13 = s.p13 := rfl
@[simp] theorem State.setAead_sc (s : State) (c : Ctx) (x : AeadCtx) :
    (s.setAead c x).sc = s.sc := rfl
@[simp] theorem State.setAead_aead (s : State) (c : Ctx) (x : AeadCtx) :
    (s.setAead c x).aead = setSlot s.aead c x := rfl
@[simp] theorem State.setAead_asc (s : State) (c : Ctx) (x : AeadCtx) :
    (s.setAead c x).asc = s.asc := rfl
@[simp] theorem State.setAead_ash (s : State) (c : Ctx) (x : AeadCtx) :
    (s.setAead c x).ash = s.ash := rfl
@[simp] theorem State.setAead_par (s : State) (c : Ctx) (x : AeadCtx) :
    (s.setAead c x).par = s.par := rfl
@[simp] theorem State.setAead_inputs (s : State) (c : Ctx) (x : AeadCtx) :
    (s.setAead c x).inputs = s.inputs := rfl
@[simp] theorem State.setAead_fresh (s : State) (c : Ctx) (x : AeadCtx) :
    (s.setAead c x).fresh = s.fresh := rfl
@[simp] theorem State.setAead_cbcAt (s : State) (c : Ctx) (x : AeadCtx) (d : Ctx) :
    (s.setAead c x).cbcAt d = s.cbcAt d := rfl
@[simp] theorem State.setAead_p13At (s : State) (c : Ctx) (x : AeadCtx) (d : Ctx) :
    (s.setAead c x).p13At d = s.p13At d := rfl
@[simp] theorem State.setAead_scAt (s : State) (c : Ctx) (x : AeadCtx) (d : Ctx) :
    (s.setAead c x).scAt d = s.scAt d := rfl
@[simp] theorem State.setAead_ascAt (s : State) (c : Ctx) (x : AeadCtx) (d : Ctx) :
    (s.setAead c x).ascAt d = s.ascAt d := rfl
@[simp] theorem State.setAead_ashAt (s : State) (c : Ctx) (x : AeadCtx) (d : Ctx) :
    (s.setAead c x).ashAt d = s.ashAt d := rfl
@[simp] theorem State.setAead_hasCtx (s : State) (c : Ctx) (x : AeadCtx) (d : Ctx) :
    (s.setAead c x).hasCtx d = s.hasCtx d := rfl
@[simp] theorem State.setAead_blockSizeAt (s : State) (c : Ctx) (x : AeadCtx) (d : Ctx) :
    (s.setAead c x).blockSizeAt d = s.blockSizeAt d := rfl
@[simp] theorem State.setAead_inRange (s : State) (c : Ctx) (x : AeadCtx) (addr len : Word) :
    (s.setAead c x).inRange addr len = s.inRange addr len := rfl
@[simp] theorem State.setAead_readByte (s : State) (c : Ctx) (x : AeadCtx) (i : Nat) :
    (s.setAead c x).readByte i = s.readByte i := rfl
@[simp] theorem State.setAead_readBytes (s : State) (c : Ctx) (x : AeadCtx) (i : Word) (n : Nat) :
    (s.setAead c x).readBytes i n = s.readBytes i n := rfl

/-! ### `setAsc` -/

@[simp] theorem State.setAsc_status (s : State) (c : Ctx) (x : AscCtx) :
    (s.setAsc c x).status = s.status := rfl
@[simp] theorem State.setAsc_result (s : State) (c : Ctx) (x : AscCtx) :
    (s.setAsc c x).result = s.result := rfl
@[simp] theorem State.setAsc_mem (s : State) (c : Ctx) (x : AscCtx) :
    (s.setAsc c x).mem = s.mem := rfl
@[simp] theorem State.setAsc_cbc (s : State) (c : Ctx) (x : AscCtx) :
    (s.setAsc c x).cbc = s.cbc := rfl
@[simp] theorem State.setAsc_p13 (s : State) (c : Ctx) (x : AscCtx) :
    (s.setAsc c x).p13 = s.p13 := rfl
@[simp] theorem State.setAsc_sc (s : State) (c : Ctx) (x : AscCtx) : (s.setAsc c x).sc = s.sc := rfl
@[simp] theorem State.setAsc_aead (s : State) (c : Ctx) (x : AscCtx) :
    (s.setAsc c x).aead = s.aead := rfl
@[simp] theorem State.setAsc_asc (s : State) (c : Ctx) (x : AscCtx) :
    (s.setAsc c x).asc = setSlot s.asc c x := rfl
@[simp] theorem State.setAsc_ash (s : State) (c : Ctx) (x : AscCtx) :
    (s.setAsc c x).ash = s.ash := rfl
@[simp] theorem State.setAsc_par (s : State) (c : Ctx) (x : AscCtx) :
    (s.setAsc c x).par = s.par := rfl
@[simp] theorem State.setAsc_inputs (s : State) (c : Ctx) (x : AscCtx) :
    (s.setAsc c x).inputs = s.inputs := rfl
@[simp] theorem State.setAsc_fresh (s : State) (c : Ctx) (x : AscCtx) :
    (s.setAsc c x).fresh = s.fresh := rfl
@[simp] theorem State.setAsc_cbcAt (s : State) (c : Ctx) (x : AscCtx) (d : Ctx) :
    (s.setAsc c x).cbcAt d = s.cbcAt d := rfl
@[simp] theorem State.setAsc_p13At (s : State) (c : Ctx) (x : AscCtx) (d : Ctx) :
    (s.setAsc c x).p13At d = s.p13At d := rfl
@[simp] theorem State.setAsc_scAt (s : State) (c : Ctx) (x : AscCtx) (d : Ctx) :
    (s.setAsc c x).scAt d = s.scAt d := rfl
@[simp] theorem State.setAsc_aeadAt (s : State) (c : Ctx) (x : AscCtx) (d : Ctx) :
    (s.setAsc c x).aeadAt d = s.aeadAt d := rfl
@[simp] theorem State.setAsc_ashAt (s : State) (c : Ctx) (x : AscCtx) (d : Ctx) :
    (s.setAsc c x).ashAt d = s.ashAt d := rfl
@[simp] theorem State.setAsc_hasCtx (s : State) (c : Ctx) (x : AscCtx) (d : Ctx) :
    (s.setAsc c x).hasCtx d = s.hasCtx d := rfl
@[simp] theorem State.setAsc_blockSizeAt (s : State) (c : Ctx) (x : AscCtx) (d : Ctx) :
    (s.setAsc c x).blockSizeAt d = s.blockSizeAt d := rfl
@[simp] theorem State.setAsc_inRange (s : State) (c : Ctx) (x : AscCtx) (addr len : Word) :
    (s.setAsc c x).inRange addr len = s.inRange addr len := rfl
@[simp] theorem State.setAsc_readByte (s : State) (c : Ctx) (x : AscCtx) (i : Nat) :
    (s.setAsc c x).readByte i = s.readByte i := rfl
@[simp] theorem State.setAsc_readBytes (s : State) (c : Ctx) (x : AscCtx) (i : Word) (n : Nat) :
    (s.setAsc c x).readBytes i n = s.readBytes i n := rfl

/-! ### `setAsh` -/

@[simp] theorem State.setAsh_status (s : State) (c : Ctx) (x : AshCtx) :
    (s.setAsh c x).status = s.status := rfl
@[simp] theorem State.setAsh_result (s : State) (c : Ctx) (x : AshCtx) :
    (s.setAsh c x).result = s.result := rfl
@[simp] theorem State.setAsh_mem (s : State) (c : Ctx) (x : AshCtx) :
    (s.setAsh c x).mem = s.mem := rfl
@[simp] theorem State.setAsh_cbc (s : State) (c : Ctx) (x : AshCtx) :
    (s.setAsh c x).cbc = s.cbc := rfl
@[simp] theorem State.setAsh_p13 (s : State) (c : Ctx) (x : AshCtx) :
    (s.setAsh c x).p13 = s.p13 := rfl
@[simp] theorem State.setAsh_sc (s : State) (c : Ctx) (x : AshCtx) : (s.setAsh c x).sc = s.sc := rfl
@[simp] theorem State.setAsh_aead (s : State) (c : Ctx) (x : AshCtx) :
    (s.setAsh c x).aead = s.aead := rfl
@[simp] theorem State.setAsh_asc (s : State) (c : Ctx) (x : AshCtx) :
    (s.setAsh c x).asc = s.asc := rfl
@[simp] theorem State.setAsh_ash (s : State) (c : Ctx) (x : AshCtx) :
    (s.setAsh c x).ash = setSlot s.ash c x := rfl
@[simp] theorem State.setAsh_par (s : State) (c : Ctx) (x : AshCtx) :
    (s.setAsh c x).par = s.par := rfl
@[simp] theorem State.setAsh_inputs (s : State) (c : Ctx) (x : AshCtx) :
    (s.setAsh c x).inputs = s.inputs := rfl
@[simp] theorem State.setAsh_fresh (s : State) (c : Ctx) (x : AshCtx) :
    (s.setAsh c x).fresh = s.fresh := rfl
@[simp] theorem State.setAsh_cbcAt (s : State) (c : Ctx) (x : AshCtx) (d : Ctx) :
    (s.setAsh c x).cbcAt d = s.cbcAt d := rfl
@[simp] theorem State.setAsh_p13At (s : State) (c : Ctx) (x : AshCtx) (d : Ctx) :
    (s.setAsh c x).p13At d = s.p13At d := rfl
@[simp] theorem State.setAsh_scAt (s : State) (c : Ctx) (x : AshCtx) (d : Ctx) :
    (s.setAsh c x).scAt d = s.scAt d := rfl
@[simp] theorem State.setAsh_aeadAt (s : State) (c : Ctx) (x : AshCtx) (d : Ctx) :
    (s.setAsh c x).aeadAt d = s.aeadAt d := rfl
@[simp] theorem State.setAsh_ascAt (s : State) (c : Ctx) (x : AshCtx) (d : Ctx) :
    (s.setAsh c x).ascAt d = s.ascAt d := rfl
@[simp] theorem State.setAsh_hasCtx (s : State) (c : Ctx) (x : AshCtx) (d : Ctx) :
    (s.setAsh c x).hasCtx d = s.hasCtx d := rfl
@[simp] theorem State.setAsh_blockSizeAt (s : State) (c : Ctx) (x : AshCtx) (d : Ctx) :
    (s.setAsh c x).blockSizeAt d = s.blockSizeAt d := rfl
@[simp] theorem State.setAsh_inRange (s : State) (c : Ctx) (x : AshCtx) (addr len : Word) :
    (s.setAsh c x).inRange addr len = s.inRange addr len := rfl
@[simp] theorem State.setAsh_readByte (s : State) (c : Ctx) (x : AshCtx) (i : Nat) :
    (s.setAsh c x).readByte i = s.readByte i := rfl
@[simp] theorem State.setAsh_readBytes (s : State) (c : Ctx) (x : AshCtx) (i : Word) (n : Nat) :
    (s.setAsh c x).readBytes i n = s.readBytes i n := rfl

/-! ### Slots -/

@[simp] theorem slot_setSlot {α : Type} (v : Vector α 16) (c : Ctx) (x : α) (d : Ctx) :
    slot (setSlot v c x) d = if d = c then x else slot v d := by
  unfold slot setSlot
  rw [Vector.getElem_set]
  by_cases h : d = c
  · simp [h]
  · have : c.toNat ≠ d.toNat := fun e => h (BitVec.eq_of_toNat_eq e.symm)
    simp [h, this]

/-- Writing a slot with what it holds changes nothing. -/
@[simp] theorem setSlot_slot {α : Type} (v : Vector α 16) (c : Ctx) : setSlot v c (slot v c) = v := by
  simp [setSlot, slot]

@[simp] theorem State.setCbc_cbcAt (s : State) (c : Ctx) (x : CbcCtx) (d : Ctx) :
    (s.setCbc c x).cbcAt d = if d = c then x else s.cbcAt d := slot_setSlot ..
@[simp] theorem State.setCbc_self (s : State) (c : Ctx) : s.setCbc c (s.cbcAt c) = s := by
  simp [State.setCbc, State.cbcAt]
@[simp] theorem State.setP13_p13At (s : State) (c : Ctx) (x : P13State) (d : Ctx) :
    (s.setP13 c x).p13At d = if d = c then x else s.p13At d := slot_setSlot ..
@[simp] theorem State.setP13_self (s : State) (c : Ctx) : s.setP13 c (s.p13At c) = s := by
  simp [State.setP13, State.p13At]
@[simp] theorem State.setSc_scAt (s : State) (c : Ctx) (x : ScCtx) (d : Ctx) :
    (s.setSc c x).scAt d = if d = c then x else s.scAt d := slot_setSlot ..
@[simp] theorem State.setSc_self (s : State) (c : Ctx) : s.setSc c (s.scAt c) = s := by
  simp [State.setSc, State.scAt]
@[simp] theorem State.setAead_aeadAt (s : State) (c : Ctx) (x : AeadCtx) (d : Ctx) :
    (s.setAead c x).aeadAt d = if d = c then x else s.aeadAt d := slot_setSlot ..
@[simp] theorem State.setAead_self (s : State) (c : Ctx) : s.setAead c (s.aeadAt c) = s := by
  simp [State.setAead, State.aeadAt]
@[simp] theorem State.setAsc_ascAt (s : State) (c : Ctx) (x : AscCtx) (d : Ctx) :
    (s.setAsc c x).ascAt d = if d = c then x else s.ascAt d := slot_setSlot ..
@[simp] theorem State.setAsc_self (s : State) (c : Ctx) : s.setAsc c (s.ascAt c) = s := by
  simp [State.setAsc, State.ascAt]
@[simp] theorem State.setAsh_ashAt (s : State) (c : Ctx) (x : AshCtx) (d : Ctx) :
    (s.setAsh c x).ashAt d = if d = c then x else s.ashAt d := slot_setSlot ..
@[simp] theorem State.setAsh_self (s : State) (c : Ctx) : s.setAsh c (s.ashAt c) = s := by
  simp [State.setAsh, State.ashAt]

/-! ### `platformReset` -/

@[simp] theorem State.platformReset_status (s : State) : s.platformReset.status = 0 := rfl
@[simp] theorem State.platformReset_result (s : State) : s.platformReset.result = 0 := rfl
@[simp] theorem State.platformReset_mem (s : State) : s.platformReset.mem = s.mem := rfl
@[simp] theorem State.platformReset_par (s : State) : s.platformReset.par = s.par := rfl
@[simp] theorem State.platformReset_inputs (s : State) : s.platformReset.inputs = s.inputs := rfl
@[simp] theorem State.platformReset_fresh (s : State) : s.platformReset.fresh = s.fresh + 1 := rfl
@[simp] theorem State.platformReset_cbcAt_valid (s : State) (c : Ctx) :
    (s.platformReset.cbcAt c).valid = false := by
  simp [State.platformReset, State.cbcAt, slot]
@[simp] theorem State.platformReset_p13At_valid (s : State) (c : Ctx) :
    (s.platformReset.p13At c).valid = false := by
  simp [State.platformReset, State.p13At, slot]
@[simp] theorem State.platformReset_scAt_valid (s : State) (c : Ctx) :
    (s.platformReset.scAt c).valid = false := by
  simp [State.platformReset, State.scAt, slot]
@[simp] theorem State.platformReset_aeadAt_valid (s : State) (c : Ctx) :
    (s.platformReset.aeadAt c).valid = false := by
  simp [State.platformReset, State.aeadAt, slot]
@[simp] theorem State.platformReset_ascAt_valid (s : State) (c : Ctx) :
    (s.platformReset.ascAt c).valid = false := by
  simp [State.platformReset, State.ascAt, slot]
@[simp] theorem State.platformReset_ashAt_valid (s : State) (c : Ctx) :
    (s.platformReset.ashAt c).valid = false := by
  simp [State.platformReset, State.ashAt, slot]

end Sys2Proof.Machine
end

