-- ==== Sys2Proof/Laws/Memory.lean ====
section
/-! SUPPORT. The laws of the buffer memory: what a byte reads as after a write, and that every memory
operation keeps the canonical form. -/

namespace Sys2Proof.Machine

/-! ### One byte -/

theorem Memory.lookup_insert (a : Nat) (b : Byte) (l : List (Nat × Byte)) (x : Nat) :
    Memory.lookup x (Memory.insert a b l) = if x = a then some b else Memory.lookup x l := by
  induction l with
  | nil => simp [Memory.insert, Memory.lookup, eq_comm]
  | cons e l ih =>
    obtain ⟨y, c⟩ := e
    simp only [Memory.insert]
    split
    · simp [Memory.lookup, eq_comm]
    · split
      · subst y; by_cases h : x = a <;> simp [Memory.lookup, h, Ne.symm]
      · rename_i h₁ h₂
        simp only [Memory.lookup, ih]
        by_cases hx : y = x
        · subst hx; simp [Ne.symm h₂]
        · simp [hx]

@[simp] theorem Memory.get?_put (m : Memory) (a : Nat) (b : Byte) (x : Nat) :
    (m.put a b).get? x = if x = a then some b else m.get? x :=
  Memory.lookup_insert a b m.cells x

theorem Memory.rises_insert (a : Nat) (b : Byte) (l : List (Nat × Byte)) (lo : Nat) (h : lo ≤ a)
    (hl : Memory.rises lo l = true) : Memory.rises lo (Memory.insert a b l) = true := by
  induction l generalizing lo with
  | nil => simp [Memory.insert, Memory.rises, h]
  | cons e l ih =>
    obtain ⟨y, c⟩ := e
    simp only [Memory.rises, Bool.and_eq_true, decide_eq_true_eq] at hl
    simp only [Memory.insert]
    split
    · simp [Memory.rises, h, hl.2]; omega
    · split
      · subst y; simpa [Memory.rises, h] using hl.2
      · simpa [Memory.rises, hl.1] using ih (y + 1) (by omega) hl.2

theorem Memory.wf_put (m : Memory) (a : Nat) (b : Byte) (h : m.wf = true) : (m.put a b).wf = true :=
  Memory.rises_insert a b m.cells 0 (Nat.zero_le a) h

/-! ### Byte strings -/

theorem Memory.wf_writeBytes (m : Memory) (a : Nat) (X : List Byte) (h : m.wf = true) :
    (m.writeBytes a X).wf = true := by
  induction X generalizing m a with
  | nil => exact h
  | cons b X ih => exact ih (m.put a b) (a + 1) (m.wf_put a b h)

/-- What every byte holds after a write: the byte of the string at its place, else what it held. -/
theorem Memory.get?_writeBytes (m : Memory) (a : Nat) (X : List Byte) (x : Nat) :
    (m.writeBytes a X).get? x =
      if a ≤ x ∧ x < a + X.length then X[x - a]? else m.get? x := by
  induction X generalizing m a with
  | nil =>
    simp only [Memory.writeBytes, List.length_nil]
    rw [if_neg (by omega)]
  | cons b X ih =>
    simp only [Memory.writeBytes, ih, Memory.get?_put, List.length_cons]
    by_cases hx : x = a
    · subst hx
      rw [if_neg (by omega), if_pos rfl, if_pos (by omega)]
      simp
    · by_cases hin : a + 1 ≤ x ∧ x < a + 1 + X.length
      · rw [if_pos hin, if_pos (by omega), show x - a = (x - (a + 1)) + 1 by omega,
          List.getElem?_cons_succ]
      · rw [if_neg hin, if_neg hx, if_neg (by omega)]

@[simp] theorem Memory.writeBytes_nil (m : Memory) (a : Nat) : m.writeBytes a [] = m := rfl

/-- Two memories in canonical form that hold the same at every address are equal. -/
theorem Memory.ext_of_rises (l₁ l₂ : List (Nat × Byte)) (lo : Nat)
    (h₁ : Memory.rises lo l₁ = true) (h₂ : Memory.rises lo l₂ = true)
    (h : ∀ x, Memory.lookup x l₁ = Memory.lookup x l₂) : l₁ = l₂ := by
  have absent : ∀ (l : List (Nat × Byte)) (lo x : Nat), Memory.rises lo l = true → x < lo →
      Memory.lookup x l = none := by
    intro l
    induction l with
    | nil => intros; rfl
    | cons e l ih =>
      obtain ⟨y, c⟩ := e
      intro lo x hl hx
      simp only [Memory.rises, Bool.and_eq_true, decide_eq_true_eq] at hl
      simp only [Memory.lookup]
      rw [if_neg (by omega)]
      exact ih (y + 1) x hl.2 (by omega)
  induction l₁ generalizing l₂ lo with
  | nil =>
    cases l₂ with
    | nil => rfl
    | cons e l₂ =>
      have := h e.1
      simp [Memory.lookup] at this
  | cons e l₁ ih =>
    cases l₂ with
    | nil => have := h e.1; simp [Memory.lookup] at this
    | cons f l₂ =>
      obtain ⟨y, c⟩ := e
      obtain ⟨z, d⟩ := f
      simp only [Memory.rises, Bool.and_eq_true, decide_eq_true_eq] at h₁ h₂
      have hyz : y = z := by
        rcases Nat.lt_trichotomy y z with hlt | heq | hgt
        · have := h y
          simp only [Memory.lookup, if_pos] at this
          rw [if_neg (by omega), absent l₂ (z + 1) y h₂.2 (by omega)] at this
          simp at this
        · exact heq
        · have := h z
          simp only [Memory.lookup, if_pos] at this
          rw [if_neg (by omega), absent l₁ (y + 1) z h₁.2 (by omega)] at this
          simp at this
      subst hyz
      have hcd : c = d := by simpa [Memory.lookup] using h y
      subst hcd
      rw [ih l₂ (y + 1) h₁.2 h₂.2 fun x => ?_]
      by_cases hx : x = y
      · subst hx
        rw [absent l₁ (x + 1) x h₁.2 (by omega), absent l₂ (x + 1) x h₂.2 (by omega)]
      · have := h x
        simpa [Memory.lookup, Ne.symm hx] using this

theorem Memory.ext_of_wf (m₁ m₂ : Memory) (h₁ : m₁.wf = true) (h₂ : m₂.wf = true)
    (h : ∀ x, m₁.get? x = m₂.get? x) : m₁ = m₂ := by
  cases m₁; cases m₂
  exact congrArg Memory.mk (Memory.ext_of_rises _ _ 0 h₁ h₂ h)

theorem State.reset_mem_wf : State.reset.mem.wf = true := rfl

/-! ### Memory as commands read it -/

@[simp] theorem State.readBytes_length (s : State) (a : Word) (n : Nat) :
    (s.readBytes a n).length = n := by simp [State.readBytes]

@[simp] theorem State.readBytes_getElem? (s : State) (a : Word) (n i : Nat) (h : i < n) :
    (s.readBytes a n)[i]? = some (s.readByte (a.toNat + i)) := by
  simp [State.readBytes, List.getElem?_range h]

theorem State.readByte_writeBytes (s : State) (a : Word) (X : List Byte) (x : Nat) :
    (s.writeBytes a X).readByte x =
      if a.toNat ≤ x ∧ x < a.toNat + X.length then X.getD (x - a.toNat) 0 else s.readByte x := by
  simp only [State.readByte, State.writeBytes_mem, Memory.get?_writeBytes]
  split
  · rename_i h
    rw [List.getElem?_eq_getElem (by omega), List.getD_eq_getElem _ _ (by omega)]
    rfl
  · rfl

/-- A byte outside the addresses written reads as before. -/
theorem State.readByte_writeBytes_of_outside (s : State) (a : Word) (X : List Byte) (x : Nat)
    (h : x < a.toNat ∨ a.toNat + X.length ≤ x) : (s.writeBytes a X).readByte x = s.readByte x := by
  rw [State.readByte_writeBytes, if_neg (by omega)]

@[simp] theorem State.writeBytes_nil (s : State) (a : Word) : s.writeBytes a [] = s := rfl

end Sys2Proof.Machine
end

