-- ==== Sys2Proof/Laws/Command.lean ====
section
/-! SUPPORT. What a command can do, said once: an error from one of its checks, or its body; what the
ends of a command (`output`, `raiseLate`, `lateOutput`) leave; and what its window checks mean. -/

namespace Sys2Proof.Machine

/-! ### Checks -/

@[simp] theorem firstError_nil : firstError [] = none := rfl

@[simp] theorem firstError_cons (bad : Bool) (e : Err) (rest : List (Bool × Err)) :
    firstError ((bad, e) :: rest) = if bad then some e else firstError rest := rfl

theorem firstError_eq_none {checks : List (Bool × Err)} :
    firstError checks = none ↔ ∀ p ∈ checks, p.1 = false := by
  induction checks with
  | nil => simp
  | cons p rest ih => obtain ⟨bad, e⟩ := p; cases bad <;> simp [ih]

theorem firstError_append (l r : List (Bool × Err)) :
    firstError (l ++ r) = (firstError l).or (firstError r) := by
  induction l with
  | nil => rfl
  | cons p rest ih => obtain ⟨bad, e⟩ := p; cases bad <;> simp [ih]

/-- The error reported is that of a check that failed. -/
theorem mem_of_firstError {checks : List (Bool × Err)} {e : Err} (h : firstError checks = some e) :
    (true, e) ∈ checks := by
  induction checks with
  | nil => simp at h
  | cons p rest ih =>
    obtain ⟨bad, f⟩ := p
    cases bad
    · simp only [firstError_cons, Bool.false_eq_true, if_false] at h
      exact List.mem_cons_of_mem _ (ih h)
    · simp only [firstError_cons, if_true, Option.some.injEq] at h
      simp [h]

@[simp] theorem command_nil (s : State) (body : Host.Outcome State Fault Refusal) :
    command s [] body = body := rfl

@[simp] theorem command_failed (s : State) (e : Err) (rest : List (Bool × Err))
    (body : Host.Outcome State Fault Refusal) :
    command s ((true, e) :: rest) body = .next (s.raise e) := rfl

@[simp] theorem command_passed (s : State) (e : Err) (rest : List (Bool × Err))
    (body : Host.Outcome State Fault Refusal) :
    command s ((false, e) :: rest) body = command s rest body := rfl

theorem command_cons (s : State) (bad : Bool) (e : Err) (rest : List (Bool × Err))
    (body : Host.Outcome State Fault Refusal) :
    command s ((bad, e) :: rest) body =
      if bad then .next (s.raise e) else command s rest body := by cases bad <;> rfl

theorem command_of_error {s : State} {checks : List (Bool × Err)} {e : Err}
    (body : Host.Outcome State Fault Refusal) (h : firstError checks = some e) :
    command s checks body = .next (s.raise e) := by simp [command, h]

theorem command_of_passed {s : State} {checks : List (Bool × Err)}
    (body : Host.Outcome State Fault Refusal) (h : firstError checks = none) :
    command s checks body = body := by simp [command, h]

/-- All a command can do: the first of its errors, or its body when every check passes. -/
theorem command_cases {s t : State} {checks : List (Bool × Err)}
    {body : Host.Outcome State Fault Refusal} (h : command s checks body = .next t) :
    (∃ e, firstError checks = some e ∧ t = s.raise e) ∨
      (firstError checks = none ∧ body = .next t) := by
  unfold command at h
  split at h
  · rename_i e he
    exact .inl ⟨e, he, by simpa using h.symm⟩
  · rename_i he
    exact .inr ⟨he, h⟩

@[simp] theorem State.noCtx_of_hasCtx {s : State} {c : Ctx} (h : s.hasCtx c = true) :
    s.noCtx c = (false, .illegal) := by simp [State.noCtx, h]

@[simp] theorem State.noCtx_of_absent {s : State} {c : Ctx} (h : s.hasCtx c = false) :
    s.noCtx c = (true, .illegal) := by simp [State.noCtx, h]

/-! ### Windows -/

@[simp] theorem State.offRange_of_inRange {s : State} {addr len : Word}
    (h : s.inRange addr len = true) : s.offRange addr len = (false, .capacity) := by
  simp [State.offRange, h]

/-- The window checks pass exactly on windows that are in range and do not overlap in part. -/
theorem firstError_windowChecks {s : State} {src slen dst dcap : Word} :
    firstError (s.windowChecks src slen dst dcap) = none ↔
      s.inRange src slen = true ∧ s.inRange dst dcap = true ∧
        partialOverlap src slen dst dcap = false := by
  rw [firstError_eq_none]
  simp [State.windowChecks, State.offRange]

/-- The window checks only ever report these two errors. -/
theorem windowChecks_errors {s : State} {src slen dst dcap : Word} {e : Err}
    (h : firstError (s.windowChecks src slen dst dcap) = some e) : e = .capacity ∨ e = .overlap := by
  have := mem_of_firstError h
  simp only [State.windowChecks, State.offRange, List.mem_cons, Prod.mk.injEq, List.not_mem_nil,
    or_false] at this
  rcases this with h | h | h <;> simp [h.2]

@[simp] theorem State.source_length (s : State) (src slen : Word) :
    (s.source src slen).length = slen.toNat := by simp [State.source]

theorem State.source_eq (s : State) (src slen : Word) :
    s.source src slen = s.readBytes src slen.toNat := rfl

/-! ### The end of a command -/

/-- Everything a successful output does. -/
theorem State.output_eq (s : State) (dst : Word) (X : List Byte) :
    s.output dst X = (s.writeBytes dst X).finish X.length := rfl

@[simp] theorem State.output_status (s : State) (dst : Word) (X : List Byte) :
    (s.output dst X).status = 0 := rfl
@[simp] theorem State.output_result (s : State) (dst : Word) (X : List Byte) :
    (s.output dst X).result = BitVec.ofNat 32 X.length := rfl
@[simp] theorem State.output_mem (s : State) (dst : Word) (X : List Byte) :
    (s.output dst X).mem = s.mem.writeBytes dst.toNat X := rfl
@[simp] theorem State.output_par (s : State) (dst : Word) (X : List Byte) :
    (s.output dst X).par = s.par := rfl
@[simp] theorem State.output_inputs (s : State) (dst : Word) (X : List Byte) :
    (s.output dst X).inputs = s.inputs := rfl
@[simp] theorem State.output_cbcAt (s : State) (dst : Word) (X : List Byte) (c : Ctx) :
    (s.output dst X).cbcAt c = s.cbcAt c := rfl
@[simp] theorem State.output_p13At (s : State) (dst : Word) (X : List Byte) (c : Ctx) :
    (s.output dst X).p13At c = s.p13At c := rfl
@[simp] theorem State.output_scAt (s : State) (dst : Word) (X : List Byte) (c : Ctx) :
    (s.output dst X).scAt c = s.scAt c := rfl
@[simp] theorem State.output_aeadAt (s : State) (dst : Word) (X : List Byte) (c : Ctx) :
    (s.output dst X).aeadAt c = s.aeadAt c := rfl
@[simp] theorem State.output_ascAt (s : State) (dst : Word) (X : List Byte) (c : Ctx) :
    (s.output dst X).ascAt c = s.ascAt c := rfl
@[simp] theorem State.output_ashAt (s : State) (dst : Word) (X : List Byte) (c : Ctx) :
    (s.output dst X).ashAt c = s.ashAt c := rfl

/-- Everything a late error does: the bytes of the destination window and the count of free values
besides the response. -/
theorem State.raiseLate_eq (s : State) (e : Err) (dst dcap : Word) :
    ∃ W : List Byte, W.length = dcap.toNat ∧
      s.raiseLate e dst dcap = ((s.writeBytes dst W).tick).raise e :=
  ⟨_, by simp, rfl⟩

@[simp] theorem State.raiseLate_status (s : State) (e : Err) (dst dcap : Word) :
    (s.raiseLate e dst dcap).status = e.code := rfl
@[simp] theorem State.raiseLate_result (s : State) (e : Err) (dst dcap : Word) :
    (s.raiseLate e dst dcap).result = 0 := rfl

/-- Everything `lateOutput` does: the output where there is one that fits, else a late error. -/
theorem State.lateOutput_cases (s : State) (dst dcap : Word) (U : Option (List Byte)) :
    (∃ X, U = some X ∧ X.length ≤ dcap.toNat ∧ s.lateOutput dst dcap U = s.output dst X) ∨
    (∃ X, U = some X ∧ dcap.toNat < X.length ∧
      s.lateOutput dst dcap U = s.raiseLate .capacity dst dcap) ∨
    (U = none ∧ s.lateOutput dst dcap U = s.raiseLate .content dst dcap) := by
  cases U with
  | none => exact .inr (.inr ⟨rfl, rfl⟩)
  | some X =>
    by_cases h : dcap.toNat < X.length
    · exact .inr (.inl ⟨X, rfl, h, by simp [State.lateOutput, h]⟩)
    · exact .inl ⟨X, rfl, by omega, by simp [State.lateOutput, h]⟩

/-! ### Every operation keeps the canonical form -/

theorem State.writeBytes_keeps_wf (s : State) (a : Word) (X : List Byte) (h : s.mem.wf = true) :
    (s.writeBytes a X).mem.wf = true := Memory.wf_writeBytes _ _ _ h

theorem State.output_keeps_wf (s : State) (dst : Word) (X : List Byte) (h : s.mem.wf = true) :
    (s.output dst X).mem.wf = true := Memory.wf_writeBytes _ _ _ h

theorem State.raiseLate_keeps_wf (s : State) (e : Err) (dst dcap : Word) (h : s.mem.wf = true) :
    (s.raiseLate e dst dcap).mem.wf = true := Memory.wf_writeBytes _ _ _ h

theorem State.lateOutput_keeps_wf (s : State) (dst dcap : Word) (U : Option (List Byte))
    (h : s.mem.wf = true) : (s.lateOutput dst dcap U).mem.wf = true := by
  rcases s.lateOutput_cases dst dcap U with ⟨X, -, -, e⟩ | ⟨X, -, -, e⟩ | ⟨-, e⟩ <;> rw [e]
  · exact s.output_keeps_wf dst X h
  · exact s.raiseLate_keeps_wf .capacity dst dcap h
  · exact s.raiseLate_keeps_wf .content dst dcap h

theorem State.platformReset_keeps_wf (s : State) (h : s.mem.wf = true) :
    s.platformReset.mem.wf = true := h

theorem State.hostWrite_keeps_wf {s t : State} {addr : Word} {data : List Byte}
    (h : s.mem.wf = true) (ht : s.hostWrite addr data = .next t) : t.mem.wf = true := by
  unfold State.hostWrite at ht
  split at ht
  · cases ht; exact s.writeBytes_keeps_wf addr data h
  · cases ht

/-- Everything a host write does: the bytes, where their addresses exist, else a stop. -/
theorem State.hostWrite_eq (s : State) (addr : Word) (data : List Byte) :
    s.hostWrite addr data =
      if data = [] ∨ addr.toNat + data.length ≤ s.par.memSize then .next (s.writeBytes addr data)
      else .fault .hostWriteOutsideMemory := rfl

end Sys2Proof.Machine
end

