-- ==== Sys2Proof/Laws/Poly1305.lean ====
section
/-! SUPPORT. The small lemmas of the P13 unit: what a load, a block step and an absorbed byte leave in
every field, the fill pointer, and the length of a tag. -/

namespace Sys2Proof.Machine

/-! ### Key load -/

@[simp] theorem P13State.load_valid (K : List Byte) (junk : Vector Byte 16) :
    (P13State.load K junk).valid = true := rfl
@[simp] theorem P13State.load_fill (K : List Byte) (junk : Vector Byte 16) :
    (P13State.load K junk).fill = 0 := rfl
@[simp] theorem P13State.load_buf (K : List Byte) (junk : Vector Byte 16) :
    (P13State.load K junk).buf = junk := rfl

/-! ### Block step -/

@[simp] theorem P13State.block_valid (st : P13State) (B : List Byte) (final : Bool) :
    (st.block B final).valid = st.valid := rfl
@[simp] theorem P13State.block_r (st : P13State) (B : List Byte) (final : Bool) :
    (st.block B final).r = st.r := rfl
@[simp] theorem P13State.block_s (st : P13State) (B : List Byte) (final : Bool) :
    (st.block B final).s = st.s := rfl
@[simp] theorem P13State.block_buf (st : P13State) (B : List Byte) (final : Bool) :
    (st.block B final).buf = st.buf := rfl
@[simp] theorem P13State.block_fill (st : P13State) (B : List Byte) (final : Bool) :
    (st.block B final).fill = st.fill := rfl
theorem P13State.block_a (st : P13State) (B : List Byte) (final : Bool) :
    (st.block B final).a =
      storeLimbs 16 10 (mulLimbs (addBlock (limbs st.a) B final) (limbs st.r)) := rfl

/-! ### Absorbing -/

/-- All an absorbed byte does: it waits, or completes a block. -/
theorem P13State.absorb_cases (st : P13State) (b : Byte) :
    (st.fill.toNat < 15 ∧ st.absorb b =
      { st with buf := st.buf.set st.fill.toNat b (by omega), fill := st.fill + 1 }) ∨
    (st.fill.toNat = 15 ∧ st.absorb b =
      { (({ st with buf := st.buf.set st.fill.toNat b (by omega) } : P13State).block
          (st.buf.set st.fill.toNat b (by omega)).toList false) with fill := 0 }) := by
  by_cases h : st.fill.toNat + 1 = 16
  · exact .inr ⟨by omega, by simp [P13State.absorb, h]⟩
  · exact .inl ⟨by omega, by simp [P13State.absorb, h]⟩

@[simp] theorem P13State.absorb_valid (st : P13State) (b : Byte) :
    (st.absorb b).valid = st.valid := by
  rcases st.absorb_cases b with ⟨-, h⟩ | ⟨-, h⟩ <;> rw [h]; rfl
@[simp] theorem P13State.absorb_r (st : P13State) (b : Byte) : (st.absorb b).r = st.r := by
  rcases st.absorb_cases b with ⟨-, h⟩ | ⟨-, h⟩ <;> rw [h]; rfl
@[simp] theorem P13State.absorb_s (st : P13State) (b : Byte) : (st.absorb b).s = st.s := by
  rcases st.absorb_cases b with ⟨-, h⟩ | ⟨-, h⟩ <;> rw [h]; rfl

theorem P13State.absorb_fill (st : P13State) (b : Byte) :
    (st.absorb b).fill.toNat = (st.fill.toNat + 1) % 16 := by
  rcases st.absorb_cases b with ⟨hf, h⟩ | ⟨hf, h⟩ <;> rw [h]
  · simp [BitVec.toNat_add]
  · simp [hf]

@[simp] theorem P13State.write_nil (st : P13State) : st.write [] = st := rfl
@[simp] theorem P13State.write_cons (st : P13State) (b : Byte) (X : List Byte) :
    st.write (b :: X) = (st.absorb b).write X := rfl

@[simp] theorem P13State.write_valid (st : P13State) (X : List Byte) :
    (st.write X).valid = st.valid := by
  induction X generalizing st with
  | nil => rfl
  | cons b X ih => simp [ih]
@[simp] theorem P13State.write_r (st : P13State) (X : List Byte) : (st.write X).r = st.r := by
  induction X generalizing st with
  | nil => rfl
  | cons b X ih => simp [ih]
@[simp] theorem P13State.write_s (st : P13State) (X : List Byte) : (st.write X).s = st.s := by
  induction X generalizing st with
  | nil => rfl
  | cons b X ih => simp [ih]

/-- The fill pointer counts the bytes written, modulo 16. -/
theorem P13State.write_fill (st : P13State) (X : List Byte) :
    (st.write X).fill.toNat = (st.fill.toNat + X.length) % 16 := by
  induction X generalizing st with
  | nil => simp; omega
  | cons b X ih => simp only [P13State.write_cons, ih, P13State.absorb_fill, List.length_cons]; omega

/-! ### Finalization -/

@[simp] theorem limbs_length {w n : Nat} (v : Vector (BitVec w) n) : (limbs v).length = n := by
  simp [limbs]

@[simp] theorem limbsOf_length (w v n : Nat) : (limbsOf w v n).length = n := by simp [limbsOf]

theorem addAddend_length (f : Nat) (u s : List Nat) :
    (addAddend f u s).length = min u.length s.length := by
  induction u generalizing f s with
  | nil => simp [addAddend]
  | cons a u ih => cases s with
    | nil => simp [addAddend]
    | cons b s => simp [addAddend, ih]

/-- A tag has 16 bytes. -/
@[simp] theorem P13State.final_length (st : P13State) : st.final.length = 16 := by
  have words : ∀ l : List Nat, (l.map fun u => toLE u 2).flatten.length = 2 * l.length := by
    intro l
    induction l with
    | nil => rfl
    | cons u l ih => simp only [List.map_cons, List.flatten_cons, List.length_append, ih,
        toLE_length, List.length_cons]; omega
  simp [P13State.final, emitTag, words, addAddend_length]

@[simp] theorem consumedP13_valid (event : Nat) (c : Ctx) : (consumedP13 event c).valid = false := rfl

end Sys2Proof.Machine
end

