-- ==== Sys2Proof/Laws/Ports.lean ====
section
/-! SUPPORT. The small lemmas of the external ports: the law of the block cipher and the lengths. -/

namespace Sys2Proof.Machine

@[simp] theorem bcEnc_length (c : Ctx) (bs : Nat) (B : List Byte) : (bcEnc c bs B).length = bs := by
  simp [bcEnc]

@[simp] theorem bcDec_length (c : Ctx) (bs : Nat) (B : List Byte) : (bcDec c bs B).length = bs := by
  simp [bcDec]

theorem toVec_ofFn {n : Nat} (V : Vector Byte n) : toVec n (List.ofFn fun i : Fin n => V[i]) = V := by
  ext i h
  simp [toVec]

theorem ofFn_toVec {n : Nat} (X : List Byte) (h : X.length = n) :
    (List.ofFn fun i : Fin n => (toVec n X)[i]) = X := by
  subst h
  simp [toVec]

/-- The law of the block-cipher port: `BC_dec(BC_enc(B)) = B` on every block. -/
theorem bcDec_bcEnc (c : Ctx) (bs : Nat) (B : List Byte) (h : B.length = bs) :
    bcDec c bs (bcEnc c bs B) = B := by
  rw [bcDec, bcEnc, toVec_ofFn, Equiv.symm_apply_apply]
  exact ofFn_toVec B h

/-- And the other way round. -/
theorem bcEnc_bcDec (c : Ctx) (bs : Nat) (B : List Byte) (h : B.length = bs) :
    bcEnc c bs (bcDec c bs B) = B := by
  rw [bcDec, bcEnc, toVec_ofFn, Equiv.apply_symm_apply]
  exact ofFn_toVec B h

@[simp] theorem keystream_length (bs : Nat) (σ : Sigma) (n : Nat) :
    (keystream bs σ n).length = n := by simp [keystream]

@[simp] theorem scXor_output_length (bs : Nat) (σ : Sigma) (X : List Byte) :
    (scXor bs σ X).2.length = X.length := by simp [scXor]

/-- All a call does to an instance: its length is counted. -/
@[simp] theorem scXor_instance (bs : Nat) (σ : Sigma) (X : List Byte) :
    (scXor bs σ X).1 = { σ with calls := X.length :: σ.calls } := rfl

theorem scXor_output (bs : Nat) (σ : Sigma) (X : List Byte) :
    (scXor bs σ X).2 = xorBytes X (keystream bs σ X.length) := rfl

/-- A call of whole blocks stays since the boundary it started from. -/
theorem sinceBoundary_whole (bs n : Nat) (calls : List Nat) (h : n % bs = 0) :
    sinceBoundary bs (n :: calls) = ((sinceBoundary bs calls).1, (sinceBoundary bs calls).2 + n) := by
  simp [sinceBoundary, h]

end Sys2Proof.Machine
end

