-- ==== Sys2Proof/Laws/Aead.lean ====
section
/-! SUPPORT. The small lemmas of the SC and AEAD units: what each operation on a context leaves in its
fields, the lengths of outputs, and all that the shared handle construction can do. -/

namespace Sys2Proof.Machine

/-- All `SC.INIT.*` can do. -/
theorem execScInit_cases {cipher : Cipher} {nlen : Nat} {h : Ctx} {src slen : Word} {s t : State}
    (ht : execScInit cipher nlen h src slen s = .next t) :
    (∃ e, (e = .illegal ∨ e = .construct ∨ e = .capacity) ∧ t = s.raise e) ∨
      (s.hasCtx h = true ∧ slen.toNat = 32 + nlen ∧ s.inRange src slen = true ∧
        t = (s.setSc h ⟨true, cipher, scFresh cipher (slice (s.readBytes src slen.toNat) 0 32)
          (slice (s.readBytes src slen.toNat) 32 (32 + nlen))⟩).finish 0) := by
  rcases command_cases ht with ⟨e, he, rfl⟩ | ⟨hp, hb⟩
  · refine .inl ⟨e, ?_, rfl⟩
    have := mem_of_firstError he
    simp only [State.noCtx, State.offRange, List.mem_cons, Prod.mk.injEq, List.not_mem_nil,
      or_false] at this
    rcases this with h | h | h <;> simp [h.2]
  · rw [firstError_eq_none] at hp
    simp only [State.noCtx, State.offRange, List.mem_cons, List.not_mem_nil, or_false,
      forall_eq_or_imp, forall_eq, Bool.not_eq_false', bne_eq_false_iff_eq] at hp
    cases hb
    exact .inr ⟨hp.1, hp.2.1, hp.2.2, rfl⟩

/-! ### The composer -/

theorem pad16_length (n : Nat) : (pad16 n).length = (16 - n % 16) % 16 := by
  unfold pad16
  split
  · simp [*]
  · simp only [zeros_length]; omega

/-- All the end of associated data does: nothing once the data phase has begun, else the padding of
the associated data is hashed. -/
theorem AeadCtx.finalizeAD_cases (x : AeadCtx) :
    (x.stage.beforeData = false ∧ x.finalizeAD = x) ∨
    (x.stage.beforeData = true ∧ x.finalizeAD =
      { x with poly := x.poly.write (pad16 x.adLen.toNat), stage := .data }) := by
  unfold AeadCtx.finalizeAD
  cases x.stage.beforeData <;> simp

@[simp] theorem AeadCtx.finalizeAD_valid (x : AeadCtx) : x.finalizeAD.valid = x.valid := by
  rcases x.finalizeAD_cases with ⟨-, h⟩ | ⟨-, h⟩ <;> rw [h]
@[simp] theorem AeadCtx.finalizeAD_cipher (x : AeadCtx) : x.finalizeAD.cipher = x.cipher := by
  rcases x.finalizeAD_cases with ⟨-, h⟩ | ⟨-, h⟩ <;> rw [h]
@[simp] theorem AeadCtx.finalizeAD_sigma (x : AeadCtx) : x.finalizeAD.sigma = x.sigma := by
  rcases x.finalizeAD_cases with ⟨-, h⟩ | ⟨-, h⟩ <;> rw [h]
@[simp] theorem AeadCtx.finalizeAD_adLen (x : AeadCtx) : x.finalizeAD.adLen = x.adLen := by
  rcases x.finalizeAD_cases with ⟨-, h⟩ | ⟨-, h⟩ <;> rw [h]
@[simp] theorem AeadCtx.finalizeAD_ctLen (x : AeadCtx) : x.finalizeAD.ctLen = x.ctLen := by
  rcases x.finalizeAD_cases with ⟨-, h⟩ | ⟨-, h⟩ <;> rw [h]
@[simp] theorem AeadCtx.finalizeAD_poly_valid (x : AeadCtx) :
    x.finalizeAD.poly.valid = x.poly.valid := by
  rcases x.finalizeAD_cases with ⟨-, h⟩ | ⟨-, h⟩ <;> simp [h]
theorem AeadCtx.finalizeAD_stage (x : AeadCtx) (h : x.stage ≠ .done) :
    x.finalizeAD.stage = .data := by
  rcases x.finalizeAD_cases with ⟨hb, e⟩ | ⟨-, e⟩ <;> rw [e]
  revert hb h
  cases x.stage <;> simp [Stage.beforeData, Stage.code]

@[simp] theorem AeadCtx.encrypt_output (bs : Nat) (x : AeadCtx) (X : List Byte) :
    (x.encrypt bs X).2 = (scXor bs x.sigma X).2 := rfl
@[simp] theorem AeadCtx.encrypt_context (bs : Nat) (x : AeadCtx) (X : List Byte) :
    (x.encrypt bs X).1 =
      { x.finalizeAD.hashCiphertext (scXor bs x.sigma X).2 with sigma := (scXor bs x.sigma X).1 } :=
  rfl
@[simp] theorem AeadCtx.decrypt_output (bs : Nat) (x : AeadCtx) (X : List Byte) :
    (x.decrypt bs X).2 = (scXor bs x.sigma X).2 := rfl
@[simp] theorem AeadCtx.decrypt_context (bs : Nat) (x : AeadCtx) (X : List Byte) :
    (x.decrypt bs X).1 =
      { x.finalizeAD.hashCiphertext X with sigma := (scXor bs x.sigma X).1 } := rfl

/-- A tag has 16 bytes. -/
@[simp] theorem AeadCtx.tag_length (x : AeadCtx) : x.tag.length = 16 := by simp [AeadCtx.tag]

@[simp] theorem consumedAead_valid (event : Nat) (c : Ctx) :
    (consumedAead event c).valid = true := rfl
@[simp] theorem consumedAead_stage (event : Nat) (c : Ctx) :
    (consumedAead event c).stage = .done := rfl
@[simp] theorem consumedAead_poly_valid (event : Nat) (c : Ctx) :
    (consumedAead event c).poly.valid = false := rfl
@[simp] theorem consumedSc_valid (event : Nat) (h : Ctx) : (consumedSc event h).valid = false := rfl

end Sys2Proof.Machine
end

