-- ==== Sys2Proof/Laws/Ascon.lean ====
section
/-! SUPPORT. The small lemmas of the ASC and ASH units: what each operation on a context leaves in its
fields, the cursor, the lengths of outputs, and all that the shared construction can do. -/

namespace Sys2Proof.Machine

/-! ### Ascon AEAD contexts -/

/-- All an advance does: the cursor moves, or a full rate block is permuted. -/
theorem AscCtx.advance_cases (x : AscCtx) :
    (x.cur.toNat + 1 = x.var.rate ∧ x.advance = { x with S := perm x.S x.var.bRounds, cur := 0 }) ∨
      (x.cur.toNat + 1 ≠ x.var.rate ∧ x.advance = { x with cur := x.cur + 1 }) := by
  by_cases h : x.cur.toNat + 1 = x.var.rate
  · exact .inl ⟨h, by simp [AscCtx.advance, h]⟩
  · exact .inr ⟨h, by simp [AscCtx.advance, h]⟩

@[simp] theorem AscCtx.advance_valid (x : AscCtx) : x.advance.valid = x.valid := by
  rcases x.advance_cases with ⟨-, h⟩ | ⟨-, h⟩ <;> rw [h]
@[simp] theorem AscCtx.advance_var (x : AscCtx) : x.advance.var = x.var := by
  rcases x.advance_cases with ⟨-, h⟩ | ⟨-, h⟩ <;> rw [h]
@[simp] theorem AscCtx.advance_stage (x : AscCtx) : x.advance.stage = x.stage := by
  rcases x.advance_cases with ⟨-, h⟩ | ⟨-, h⟩ <;> rw [h]
@[simp] theorem AscCtx.advance_adAny (x : AscCtx) : x.advance.adAny = x.adAny := by
  rcases x.advance_cases with ⟨-, h⟩ | ⟨-, h⟩ <;> rw [h]
@[simp] theorem AscCtx.advance_key (x : AscCtx) : x.advance.key = x.key := by
  rcases x.advance_cases with ⟨-, h⟩ | ⟨-, h⟩ <;> rw [h]

/-- An advance keeps the cursor in the rate portion. -/
theorem AscCtx.advance_cur_lt (x : AscCtx) (h : x.cur.toNat < x.var.rate) :
    x.advance.cur.toNat < x.var.rate := by
  rcases x.advance_cases with ⟨-, e⟩ | ⟨hn, e⟩ <;> rw [e]
  · exact Nat.pos_of_ne_zero (by cases x.var <;> simp [AscVar.rate])
  · have : x.var.rate ≤ 16 := by cases x.var <;> simp [AscVar.rate]
    have : (x.cur + 1).toNat = (x.cur.toNat + 1) % 32 := BitVec.toNat_add ..
    change (x.cur + 1).toNat < x.var.rate
    omega

@[simp] theorem AscCtx.put_valid (x : AscCtx) (v : Byte) : (x.put v).valid = x.valid := rfl
@[simp] theorem AscCtx.put_var (x : AscCtx) (v : Byte) : (x.put v).var = x.var := rfl
@[simp] theorem AscCtx.put_cur (x : AscCtx) (v : Byte) : (x.put v).cur = x.cur := rfl
@[simp] theorem AscCtx.put_stage (x : AscCtx) (v : Byte) : (x.put v).stage = x.stage := rfl
@[simp] theorem AscCtx.put_adAny (x : AscCtx) (v : Byte) : (x.put v).adAny = x.adAny := rfl
@[simp] theorem AscCtx.put_key (x : AscCtx) (v : Byte) : (x.put v).key = x.key := rfl

@[simp] theorem AscCtx.absorb_valid (x : AscCtx) (v : Byte) : (x.absorb v).valid = x.valid := by
  simp [AscCtx.absorb]
@[simp] theorem AscCtx.absorb_var (x : AscCtx) (v : Byte) : (x.absorb v).var = x.var := by
  simp [AscCtx.absorb]
@[simp] theorem AscCtx.absorb_stage (x : AscCtx) (v : Byte) : (x.absorb v).stage = x.stage := by
  simp [AscCtx.absorb]
@[simp] theorem AscCtx.absorb_adAny (x : AscCtx) (v : Byte) : (x.absorb v).adAny = x.adAny := by
  simp [AscCtx.absorb]
@[simp] theorem AscCtx.absorb_key (x : AscCtx) (v : Byte) : (x.absorb v).key = x.key := by
  simp [AscCtx.absorb]
theorem AscCtx.absorb_cur_lt (x : AscCtx) (v : Byte) (h : x.cur.toNat < x.var.rate) :
    (x.absorb v).cur.toNat < x.var.rate := (x.put (x.here ^^^ v)).advance_cur_lt h

/-- All the end of associated data does: nothing once the data phase has begun; else the domains are
separated, after a terminator where there was associated data. -/
theorem AscCtx.finalizeAD_cases (x : AscCtx) :
    (x.stage.beforeData = false ∧ x.finalizeAD = x) ∨
    (x.stage.beforeData = true ∧ x.adAny = false ∧ x.finalizeAD = x.separate) ∨
    (x.stage.beforeData = true ∧ x.adAny = true ∧
      x.finalizeAD = AscCtx.separate
        { x with S := perm (x.put (x.here ^^^ 0x80)).S x.var.bRounds, cur := 0 }) := by
  unfold AscCtx.finalizeAD
  cases x.stage.beforeData <;> cases h : x.adAny <;> simp

@[simp] theorem AscCtx.separate_valid (x : AscCtx) : x.separate.valid = x.valid := by
  simp only [AscCtx.separate]
@[simp] theorem AscCtx.separate_var (x : AscCtx) : x.separate.var = x.var := by
  simp only [AscCtx.separate]
@[simp] theorem AscCtx.separate_cur (x : AscCtx) : x.separate.cur = x.cur := by
  simp only [AscCtx.separate]
@[simp] theorem AscCtx.separate_stage (x : AscCtx) : x.separate.stage = .data := by
  simp only [AscCtx.separate]
@[simp] theorem AscCtx.separate_adAny (x : AscCtx) : x.separate.adAny = x.adAny := by
  simp only [AscCtx.separate]
@[simp] theorem AscCtx.separate_key (x : AscCtx) : x.separate.key = x.key := by
  simp only [AscCtx.separate]

@[simp] theorem AscCtx.finalizeAD_valid (x : AscCtx) : x.finalizeAD.valid = x.valid := by
  rcases x.finalizeAD_cases with ⟨-, h⟩ | ⟨-, -, h⟩ | ⟨-, -, h⟩ <;> rw [h] <;>
    simp only [AscCtx.separate]
@[simp] theorem AscCtx.finalizeAD_var (x : AscCtx) : x.finalizeAD.var = x.var := by
  rcases x.finalizeAD_cases with ⟨-, h⟩ | ⟨-, -, h⟩ | ⟨-, -, h⟩ <;> rw [h] <;>
    simp only [AscCtx.separate]
@[simp] theorem AscCtx.finalizeAD_adAny (x : AscCtx) : x.finalizeAD.adAny = x.adAny := by
  rcases x.finalizeAD_cases with ⟨-, h⟩ | ⟨-, -, h⟩ | ⟨-, -, h⟩ <;> rw [h] <;>
    simp only [AscCtx.separate]
@[simp] theorem AscCtx.finalizeAD_key (x : AscCtx) : x.finalizeAD.key = x.key := by
  rcases x.finalizeAD_cases with ⟨-, h⟩ | ⟨-, -, h⟩ | ⟨-, -, h⟩ <;> rw [h] <;>
    simp only [AscCtx.separate]
theorem AscCtx.finalizeAD_stage (x : AscCtx) (h : x.stage ≠ .done) : x.finalizeAD.stage = .data := by
  rcases x.finalizeAD_cases with ⟨hb, e⟩ | ⟨-, -, e⟩ | ⟨-, -, e⟩ <;> rw [e]
  · revert hb h
    cases x.stage <;> simp [Stage.beforeData, Stage.code]
  · exact AscCtx.separate_stage _
  · exact AscCtx.separate_stage _
theorem AscCtx.finalizeAD_cur_lt (x : AscCtx) (h : x.cur.toNat < x.var.rate) :
    x.finalizeAD.cur.toNat < x.var.rate := by
  rcases x.finalizeAD_cases with ⟨-, e⟩ | ⟨-, -, e⟩ | ⟨-, -, e⟩ <;> rw [e]
  · exact h
  · rwa [AscCtx.separate_cur]
  · simp only [AscCtx.separate_cur]
    exact Nat.pos_of_ne_zero (by cases x.var <;> simp [AscVar.rate])

/-- What absorbing associated data leaves in the fields it does not work on, and what it keeps. -/
theorem AscCtx.writeAD_frame (x : AscCtx) (X : List Byte) :
    (x.writeAD X).valid = x.valid ∧ (x.writeAD X).var = x.var ∧ (x.writeAD X).key = x.key ∧
      (x.writeAD X).stage = .associatedData ∧ (x.writeAD X).adAny = (x.adAny || !X.isEmpty) ∧
      (x.cur.toNat < x.var.rate → (x.writeAD X).cur.toNat < x.var.rate) := by
  simp only [AscCtx.writeAD]
  induction X generalizing x with
  | nil => simp
  | cons v X ih =>
    obtain ⟨h1, h2, h3, -, h5, h6⟩ := ih { x.absorb v with adAny := true }
    refine ⟨?_, ?_, ?_, trivial, ?_, fun h => ?_⟩ <;> simp only [List.foldl_cons]
    · exact h1.trans (x.absorb_valid v)
    · exact h2.trans (x.absorb_var v)
    · exact h3.trans (x.absorb_key v)
    · simpa using h5
    · have hv : (x.absorb v).var = x.var := x.absorb_var v
      rw [← hv]
      exact h6 (by simpa [hv] using x.absorb_cur_lt v h)

/-- What the encryption loop leaves in the fields it does not work on, and what it keeps. -/
theorem AscCtx.encLoop_frame (x : AscCtx) (X : List Byte) :
    (x.encLoop X).1.valid = x.valid ∧ (x.encLoop X).1.var = x.var ∧
      (x.encLoop X).1.stage = x.stage ∧ (x.encLoop X).1.adAny = x.adAny ∧
      (x.encLoop X).1.key = x.key ∧ (x.encLoop X).2.length = X.length ∧
      (x.cur.toNat < x.var.rate → (x.encLoop X).1.cur.toNat < x.var.rate) := by
  induction X generalizing x with
  | nil => simp [AscCtx.encLoop]
  | cons v X ih =>
    obtain ⟨h1, h2, h3, h4, h5, h6, h7⟩ := ih (x.absorb v)
    refine ⟨?_, ?_, ?_, ?_, ?_, ?_, fun h => ?_⟩ <;> simp only [AscCtx.encLoop]
    · simp [h1]
    · simp [h2]
    · simp [h3]
    · simp [h4]
    · simp [h5]
    · simp [h6]
    · simpa using h7 (by simpa using x.absorb_cur_lt v h)

/-- What the decryption loop leaves in the fields it does not work on, and what it keeps. -/
theorem AscCtx.decLoop_frame (x : AscCtx) (X : List Byte) :
    (x.decLoop X).1.valid = x.valid ∧ (x.decLoop X).1.var = x.var ∧
      (x.decLoop X).1.stage = x.stage ∧ (x.decLoop X).1.adAny = x.adAny ∧
      (x.decLoop X).1.key = x.key ∧ (x.decLoop X).2.length = X.length ∧
      (x.cur.toNat < x.var.rate → (x.decLoop X).1.cur.toNat < x.var.rate) := by
  induction X generalizing x with
  | nil => simp [AscCtx.decLoop]
  | cons v X ih =>
    obtain ⟨h1, h2, h3, h4, h5, h6, h7⟩ := ih ((x.put v).advance)
    refine ⟨?_, ?_, ?_, ?_, ?_, ?_, fun h => ?_⟩ <;> simp only [AscCtx.decLoop]
    · simp [h1]
    · simp [h2]
    · simp [h3]
    · simp [h4]
    · simp [h5]
    · simp [h6]
    · simpa using h7 (by simpa using (x.put v).advance_cur_lt h)

@[simp] theorem AscCtx.encrypt_output_length (x : AscCtx) (X : List Byte) :
    (x.encrypt X).2.length = X.length := (x.finalizeAD.encLoop_frame X).2.2.2.2.2.1

@[simp] theorem AscCtx.decrypt_output_length (x : AscCtx) (X : List Byte) :
    (x.decrypt X).2.length = X.length := (x.finalizeAD.decLoop_frame X).2.2.2.2.2.1

/-- A tag has 16 bytes. -/
@[simp] theorem AscCtx.tag_length (x : AscCtx) : x.tag.length = 16 := by simp [AscCtx.tag]

@[simp] theorem consumedAsc_valid (event : Nat) (c : Ctx) : (consumedAsc event c).valid = true := rfl
@[simp] theorem consumedAsc_stage (event : Nat) (c : Ctx) : (consumedAsc event c).stage = .done := rfl

/-- All `ASC.INIT.*` can do. -/
theorem execAscInit_cases {v : AscVar} {c : Ctx} {src slen : Word} {s t : State}
    (h : execAscInit v c src slen s = .next t) :
    (∃ e, (e = .illegal ∨ e = .construct ∨ e = .capacity) ∧ t = s.raise e) ∨
      (s.hasCtx c = true ∧ slen.toNat = v.klen + 16 ∧ s.inRange src slen = true ∧
        t = (s.setAsc c (AscCtx.construct v (slice (s.readBytes src slen.toNat) 0 v.klen)
          (slice (s.readBytes src slen.toNat) v.klen (v.klen + 16)))).finish 0) := by
  rcases command_cases h with ⟨e, he, rfl⟩ | ⟨hp, hb⟩
  · refine .inl ⟨e, ?_, rfl⟩
    have := mem_of_firstError he
    simp only [State.noCtx, State.offRange, List.mem_cons, Prod.mk.injEq, List.not_mem_nil,
      or_false] at this
    rcases this with h | h | h <;> simp [h.2]
  · rw [firstError_eq_none] at hp
    simp only [State.noCtx, State.offRange, List.mem_cons, List.not_mem_nil, or_false,
      forall_eq_or_imp, forall_eq, Bool.not_eq_false', bne_eq_false_iff_eq] at hp
    cases hb
    exact .inr ⟨hp.1, hp.2.1, hp.2.2, rfl⟩

/-! ### Ascon hash contexts -/

@[simp] theorem AshCtx.absorb_valid (x : AshCtx) (v : Byte) : (x.absorb v).valid = x.valid := by
  simp only [AshCtx.absorb]; split <;> rfl
@[simp] theorem AshCtx.absorb_var (x : AshCtx) (v : Byte) : (x.absorb v).var = x.var := by
  simp only [AshCtx.absorb]; split <;> rfl
@[simp] theorem AshCtx.absorb_dlen (x : AshCtx) (v : Byte) : (x.absorb v).dlen = x.dlen := by
  simp only [AshCtx.absorb]; split <;> rfl
theorem AshCtx.absorb_cur_lt (x : AshCtx) (v : Byte) (h : x.cur.toNat < 8) :
    (x.absorb v).cur.toNat < 8 := by
  simp only [AshCtx.absorb]
  split
  · simp
  · have : (x.cur + 1).toNat = (x.cur.toNat + 1) % 16 := BitVec.toNat_add ..
    change (x.cur + 1).toNat < 8
    omega

@[simp] theorem AshCtx.write_nil (x : AshCtx) : x.write [] = x := rfl
@[simp] theorem AshCtx.write_cons (x : AshCtx) (v : Byte) (X : List Byte) :
    x.write (v :: X) = (x.absorb v).write X := rfl
@[simp] theorem AshCtx.write_valid (x : AshCtx) (X : List Byte) : (x.write X).valid = x.valid := by
  induction X generalizing x with
  | nil => rfl
  | cons v X ih => simp [ih]
@[simp] theorem AshCtx.write_var (x : AshCtx) (X : List Byte) : (x.write X).var = x.var := by
  induction X generalizing x with
  | nil => rfl
  | cons v X ih => simp [ih]
@[simp] theorem AshCtx.write_dlen (x : AshCtx) (X : List Byte) : (x.write X).dlen = x.dlen := by
  induction X generalizing x with
  | nil => rfl
  | cons v X ih => simp [ih]
theorem AshCtx.write_cur_lt (x : AshCtx) (X : List Byte) (h : x.cur.toNat < 8) :
    (x.write X).cur.toNat < 8 := by
  induction X generalizing x with
  | nil => exact h
  | cons v X ih => exact ih _ (x.absorb_cur_lt v h)

@[simp] theorem squeeze_length (S : Vector Byte 40) (n : Nat) : (squeeze S n).length = 8 * n := by
  induction n generalizing S with
  | zero => rfl
  | succ n ih => simp [squeeze, ih]; omega

/-- A digest has as many bytes as the context says. -/
@[simp] theorem AshCtx.digest_length (x : AshCtx) : x.digest.length = x.dlen.toNat := by
  simp [AshCtx.digest]; omega

@[simp] theorem consumedAsh_valid (event : Nat) (c : Ctx) : (consumedAsh event c).valid = false := rfl

end Sys2Proof.Machine
end

