-- ==== Sys2Proof/Laws/Pad.lean ====
section
/-! SUPPORT. The small lemmas of the PAD unit: lengths, and all that its shared meanings can do. -/

namespace Sys2Proof.Machine

/-! ### Padding -/

theorem pad_zero_length (X : List Byte) (bs : Nat) (h : X.length ≤ bs) :
    (pad .zero X bs).length = bs := by simp [pad]; omega

theorem pad_length (sch : Scheme) (X : List Byte) (bs : Nat) (h : X.length < bs) :
    (pad sch X bs).length = bs := by
  cases sch
  · exact pad_zero_length X bs h.le
  · simp [pad]; omega
  · simp [pad]; omega

theorem padSize_cases (sch : Scheme) (used bs : Nat) :
    padSize sch used bs = bs ∨ (padSize sch used bs = 0 ∧ sch = .zero ∧ bs ≤ used) := by
  cases sch
  · by_cases h : used < bs
    · simp [padSize, h]
    · exact .inr ⟨by simp [padSize, h], rfl, by omega⟩
  · exact .inl rfl
  · exact .inl rfl

/-! ### Unpadding -/

/-- A block is its stripped form and trailing zero bytes. -/
theorem stripZeros_append_zeros (B : List Byte) :
    stripZeros B ++ zeros (B.length - (stripZeros B).length) = B := by
  have key : ∀ L : List Byte,
      L = List.replicate (L.length - (L.dropWhile (· == 0)).length) 0 ++ L.dropWhile (· == 0) := by
    intro L
    induction L with
    | nil => rfl
    | cons b L ih =>
      by_cases h : b = 0
      · subst h
        have hle : (L.dropWhile (· == 0)).length ≤ L.length := List.length_dropWhile_le ..
        simp only [List.dropWhile_cons, beq_self_eq_true, if_true, List.length_cons]
        rw [show L.length + 1 - (L.dropWhile (· == 0)).length =
          (L.length - (L.dropWhile (· == 0)).length) + 1 by omega, List.replicate_succ,
          List.cons_append, ← ih]
      · rw [List.dropWhile_cons_of_neg (by simpa using h)]; simp
  have := congrArg List.reverse (key B.reverse)
  simpa [stripZeros, zeros] using this.symm

/-- The stripped form does not end in a zero byte. -/
theorem stripZeros_getLast? (B : List Byte) : (stripZeros B).getLast? ≠ some 0 := by
  rw [stripZeros, List.getLast?_reverse]
  intro h
  have := List.head?_dropWhile_not (p := (· == (0 : Byte))) B.reverse
  rw [h] at this
  simp at this

theorem stripZeros_length_le (B : List Byte) : (stripZeros B).length ≤ B.length := by
  rw [stripZeros, List.length_reverse, ← B.length_reverse]
  exact List.length_dropWhile_le ..

/-- A string that does not end in a zero byte, and zero bytes, strip to the string. -/
theorem stripZeros_of_append (X : List Byte) (k : Nat) (h : X.getLast? ≠ some 0) :
    stripZeros (X ++ zeros k) = X := by
  have drop : ∀ L : List Byte, (zeros k ++ L).dropWhile (· == 0) = L.dropWhile (· == 0) := by
    simp [zeros]
  have hr : (zeros k).reverse = zeros k := by simp [zeros]
  rw [stripZeros, List.reverse_append, hr, drop]
  cases hX : X.reverse with
  | nil => simpa using hX
  | cons b L =>
    have hb : b ≠ 0 := by
      rintro rfl
      exact h (by rw [List.getLast?_eq_head?_reverse, hX]; rfl)
    rw [List.dropWhile_cons_of_neg (by simpa using hb), ← hX, List.reverse_reverse]

/-- What is unpadded is no longer than the block. -/
theorem unpad_length_le {sch : Scheme} {B U : List Byte} (h : unpad sch B = some U) :
    U.length ≤ B.length := by
  cases sch with
  | zero => simp only [unpad, Option.some.injEq] at h; exact h ▸ stripZeros_length_le B
  | pkcs7 =>
    simp only [unpad, unpadPkcs7] at h
    split at h
    · cases h
    · split at h
      · cases h
      · split at h
        · cases h; simp
        · cases h
  | iso7816 =>
    simp only [unpad, unpadIso7816] at h
    split at h
    · cases h
    · split at h
      · cases h
        have := stripZeros_length_le B
        simp; omega
      · cases h

/-! ### The shared meanings -/

theorem badBlockSize_eq (imm : Word) :
    badBlockSize imm = (decide (imm.toNat < 1 ∨ 255 < imm.toNat), .capacity) := by
  simp [badBlockSize]

/-- All `PAD.*` can do. -/
theorem execPad_cases {sch : Scheme} {tooLong : Bool} {src slen dst dcap imm : Word} {s t : State}
    (h : execPad sch tooLong src slen dst dcap imm s = .next t) :
    (∃ e, (e = .capacity ∨ e = .overlap) ∧ t = s.raise e) ∨
      (1 ≤ imm.toNat ∧ imm.toNat ≤ 255 ∧ tooLong = false ∧ imm.toNat ≤ dcap.toNat ∧
        s.inRange src slen = true ∧ s.inRange dst dcap = true ∧
        partialOverlap src slen dst dcap = false ∧
        t = s.output dst (pad sch (s.readBytes src slen.toNat) imm.toNat)) := by
  rcases command_cases h with ⟨e, he, rfl⟩ | ⟨hp, hb⟩
  · refine .inl ⟨e, ?_, rfl⟩
    rw [firstError_append, Option.or_eq_some_iff] at he
    rcases he with he | ⟨-, he⟩
    · have := mem_of_firstError he
      simp only [badBlockSize, List.mem_cons, Prod.mk.injEq, List.not_mem_nil, or_false] at this
      rcases this with h | h | h <;> exact .inl h.2
    · exact windowChecks_errors he
  · rw [firstError_append, Option.or_eq_none_iff, firstError_windowChecks, firstError_eq_none] at hp
    simp only [badBlockSize_eq, List.mem_cons, List.not_mem_nil, or_false, forall_eq_or_imp,
      forall_eq, decide_eq_false_iff_not, not_or, not_lt] at hp
    obtain ⟨⟨⟨h1, h2⟩, h3, h4⟩, h5, h6, h7⟩ := hp
    cases hb
    exact .inr ⟨h1, h2, h3, h4, h5, h6, h7, rfl⟩

/-- All `UNPAD.*` can do. -/
theorem execUnpad_cases {sch : Scheme} {src slen dst dcap : Word} {s t : State}
    (h : execUnpad sch src slen dst dcap s = .next t) :
    (∃ e, (e = .capacity ∨ e = .overlap) ∧ t = s.raise e) ∨
      (s.inRange src slen = true ∧ s.inRange dst dcap = true ∧
        partialOverlap src slen dst dcap = false ∧
        t = s.lateOutput dst dcap (unpad sch (s.readBytes src slen.toNat))) := by
  rcases command_cases h with ⟨e, he, rfl⟩ | ⟨hp, hb⟩
  · exact .inl ⟨e, windowChecks_errors he, rfl⟩
  · obtain ⟨h1, h2, h3⟩ := firstError_windowChecks.mp hp
    cases hb
    exact .inr ⟨h1, h2, h3, rfl⟩

end Sys2Proof.Machine
end

