-- ==== Sys2Proof/Laws/Cbc.lean ====
section
/-! SUPPORT. The small lemmas of the CBC unit: the blocks of a string, and the chain in both
directions. -/

namespace Sys2Proof.Machine

@[simp] theorem wholeBlocks_length (bs : Nat) (X : List Byte) :
    (wholeBlocks bs X).length = X.length / bs := by simp [wholeBlocks]

/-- Every block of a string is a block. -/
theorem length_of_mem_wholeBlocks {bs : Nat} {X B : List Byte} (h : B ∈ wholeBlocks bs X) :
    B.length = bs := by
  simp only [wholeBlocks, List.mem_map, List.mem_range] at h
  obtain ⟨i, hi, rfl⟩ := h
  have hm : (i + 1) * bs ≤ X.length :=
    le_trans (Nat.mul_le_mul_right bs hi) (Nat.div_mul_le_self X.length bs)
  simp only [slice_length]
  rw [Nat.add_mul, Nat.one_mul] at hm
  omega

/-- The blocks of a block and more. -/
theorem wholeBlocks_append {bs : Nat} (hbs : 1 ≤ bs) (B X : List Byte) (h : B.length = bs) :
    wholeBlocks bs (B ++ X) = B :: wholeBlocks bs X := by
  have hl : (B ++ X).length / bs = X.length / bs + 1 := by
    rw [List.length_append, h, Nat.add_comm, Nat.add_div_right _ hbs]
  rw [wholeBlocks, hl, List.range_succ_eq_map]
  simp only [List.map_cons, List.map_map, wholeBlocks]
  refine congrArg₂ _ ?_ (List.map_congr_left fun i _ => ?_)
  · simp [slice, h]
  · simp only [Function.comp_apply, slice, Nat.succ_eq_add_one]
    rw [List.drop_append, List.drop_eq_nil_of_le (by rw [h]; nlinarith)]
    rw [List.nil_append, show (i + 1) * bs - B.length = i * bs by rw [h, Nat.add_mul]; omega]
    congr 1
    omega

/-- Cutting blocks put together gives the blocks back. -/
theorem wholeBlocks_flatten {bs : Nat} (hbs : 1 ≤ bs) (Bs : List (List Byte))
    (h : ∀ B ∈ Bs, B.length = bs) : wholeBlocks bs Bs.flatten = Bs := by
  induction Bs with
  | nil => simp [wholeBlocks]
  | cons B Bs ih =>
    rw [List.flatten_cons, wholeBlocks_append hbs B _ (h B List.mem_cons_self),
      ih fun C hC => h C (List.mem_cons_of_mem _ hC)]

@[simp] theorem chainEnc_nil (enc : List Byte → List Byte) (prev : List Byte) :
    chainEnc enc prev [] = [] := rfl
@[simp] theorem chainEnc_cons (enc : List Byte → List Byte) (prev B : List Byte)
    (Bs : List (List Byte)) :
    chainEnc enc prev (B :: Bs) =
      enc (xorBytes B prev) :: chainEnc enc (enc (xorBytes B prev)) Bs := rfl
@[simp] theorem chainDec_nil (dec : List Byte → List Byte) (prev : List Byte) :
    chainDec dec prev [] = [] := rfl
@[simp] theorem chainDec_cons (dec : List Byte → List Byte) (prev C : List Byte)
    (Cs : List (List Byte)) :
    chainDec dec prev (C :: Cs) = xorBytes (dec C) prev :: chainDec dec C Cs := rfl

@[simp] theorem chainEnc_length (enc : List Byte → List Byte) (prev : List Byte)
    (Bs : List (List Byte)) : (chainEnc enc prev Bs).length = Bs.length := by
  induction Bs generalizing prev with
  | nil => rfl
  | cons B Bs ih => simp [ih]

/-- Every block of a ciphertext is a block. -/
theorem length_of_mem_chainEnc {c : Ctx} {bs : Nat} {prev : List Byte} {Bs : List (List Byte)}
    {C : List Byte} (h : C ∈ chainEnc (bcEnc c bs) prev Bs) : C.length = bs := by
  induction Bs generalizing prev with
  | nil => simp at h
  | cons B Bs ih =>
    simp only [chainEnc_cons, List.mem_cons] at h
    rcases h with rfl | h
    · exact bcEnc_length ..
    · exact ih h

/-- The chain backwards undoes the chain forwards, block by block. -/
theorem chainDec_chainEnc {c : Ctx} {bs : Nat} {prev : List Byte} {Bs : List (List Byte)}
    (hprev : prev.length = bs) (h : ∀ B ∈ Bs, B.length = bs) :
    chainDec (bcDec c bs) prev (chainEnc (bcEnc c bs) prev Bs) = Bs := by
  induction Bs generalizing prev with
  | nil => rfl
  | cons B Bs ih =>
    have hB : B.length = bs := h B List.mem_cons_self
    have hx : (xorBytes B prev).length = bs := by simp [hB, hprev]
    simp only [chainEnc_cons, chainDec_cons, bcDec_bcEnc c bs _ hx]
    rw [xorBytes_cancel B prev (by omega), ih (bcEnc_length ..) fun C hC =>
      h C (List.mem_cons_of_mem _ hC)]

/-- A ciphertext has as many bytes as `encSize` says. -/
theorem cbcEncrypt_length (c : Ctx) (bs : Nat) (sch : Scheme) (iv P : List Byte) :
    (cbcEncrypt (bcEnc c bs) bs sch iv P).length = encSize sch P.length bs := by
  have blocks : ∀ Cs : List (List Byte), (∀ C ∈ Cs, C.length = bs) →
      Cs.flatten.length = Cs.length * bs := by
    intro Cs h
    rw [List.length_flatten, List.map_congr_left (g := fun _ => bs) h]
    simp
  rw [cbcEncrypt, blocks _ fun C hC => length_of_mem_chainEnc hC, chainEnc_length, plainBlocks,
    List.length_append, wholeBlocks_length, encSize, Nat.add_mul]
  have whole : P.length / bs * bs = P.length - P.length % bs := by
    have := Nat.div_add_mod P.length bs
    rw [Nat.mul_comm] at this
    omega
  rw [whole]
  rcases padSize_cases sch (usedOf P.length bs) bs with h | ⟨h, -, -⟩ <;> rw [h]
  · by_cases hbs : 0 < bs
    · simp [hbs]
    · simp [Nat.eq_zero_of_not_pos hbs]
  · simp

/-- What is decrypted is no longer than the ciphertext. -/
theorem cbcDecrypt_length_le {c : Ctx} {bs : Nat} {sch : Scheme} {iv E U : List Byte}
    (h : cbcDecrypt (bcDec c bs) bs sch iv E = some U) : U.length ≤ E.length / bs * bs := by
  have blocks : ∀ (Cs : List (List Byte)) (prev : List Byte),
      (chainDec (bcDec c bs) prev Cs).length = Cs.length ∧
        ∀ Q ∈ chainDec (bcDec c bs) prev Cs, Q.length ≤ bs := by
    intro Cs
    induction Cs with
    | nil => simp
    | cons C Cs ih =>
      intro prev
      obtain ⟨h1, h2⟩ := ih C
      refine ⟨by simp [h1], fun Q hQ => ?_⟩
      simp only [chainDec_cons, List.mem_cons] at hQ
      rcases hQ with rfl | hQ
      · simp
      · exact h2 Q hQ
  have flat : ∀ Qs : List (List Byte), (∀ Q ∈ Qs, Q.length ≤ bs) →
      Qs.flatten.length ≤ Qs.length * bs := by
    intro Qs
    induction Qs with
    | nil => simp
    | cons Q Qs ih =>
      intro hQ
      have h1 := hQ Q List.mem_cons_self
      have h2 := ih fun R hR => hQ R (List.mem_cons_of_mem _ hR)
      simp only [List.flatten_cons, List.length_append, List.length_cons, Nat.add_mul]
      omega
  obtain ⟨hl, hQ⟩ := blocks (wholeBlocks bs E) iv
  rw [wholeBlocks_length] at hl
  unfold cbcDecrypt at h
  generalize chainDec (bcDec c bs) iv (wholeBlocks bs E) = Q at *
  simp only at h
  split at h
  · cases h; simp
  · rename_i last hlast
    obtain ⟨V, hV, rfl⟩ := Option.map_eq_some_iff.mp h
    have h1 := unpad_length_le hV
    have h2 := hQ last (List.mem_of_getLast? hlast)
    have h3 := flat Q.dropLast fun R hR => hQ R (List.mem_of_mem_dropLast hR)
    have h4 : Q ≠ [] := by rintro rfl; simp at hlast
    have h5 := List.length_pos_iff.mpr h4
    rw [List.length_dropLast, hl, Nat.sub_mul, Nat.one_mul] at h3
    have h6 : bs ≤ E.length / bs * bs := Nat.le_mul_of_pos_left bs (by omega)
    rw [List.length_append]
    omega

end Sys2Proof.Machine
end

