-- ==== Sys2Proof/Laws/Exec.lean ====
section
/-! SUPPORT. All that each meaning can do, said once per command: an early error, which changes the
response alone, or its effect, with every check passed; and, for all commands at once, what a next
state can be (`Effect`, `exec_effect`). The commands that only instantiate a shared
meaning (`PAD.*`, `UNPAD.*`, `SC.INIT.*`, `ASC.INIT.*`) have its lemma. -/

namespace Sys2Proof.Machine

/-- An error that only the window checks can raise comes from windows in range that overlap in part. -/
theorem overlap_of_windowChecks {s : State} {l : List (Bool × Err)} {src slen dst dcap : Word}
    (h : firstError (l ++ s.windowChecks src slen dst dcap) = some .overlap)
    (hl : ∀ p ∈ l, p.2 ≠ .overlap) :
    s.inRange src slen = true ∧ s.inRange dst dcap = true ∧
      partialOverlap src slen dst dcap = true := by
  rw [firstError_append, Option.or_eq_some_iff] at h
  rcases h with h | ⟨-, h⟩
  · exact absurd rfl (hl _ (mem_of_firstError h))
  · revert h
    cases h1 : s.inRange src slen <;> cases h2 : s.inRange dst dcap <;>
      cases h3 : partialOverlap src slen dst dcap <;>
      simp [State.windowChecks, State.offRange, h1, h2, h3]

/-! ### Early errors -/

/-- A command has no early error exactly when its checks pass and its windows are in range and do not
overlap in part. -/
theorem earlyError_eq_none {i : Instr} {s : State} :
    i.earlyError s = none ↔
      i.checksPassed s = true ∧ i.windowsInRange s = true ∧ i.windowsOverlap = false := by
  simp only [Instr.earlyError, Instr.checksPassed]
  constructor
  · intro h
    repeat' split at h
    all_goals simp_all
  · rintro ⟨h, hr, ho⟩
    simp_all

/-- Past the checks of a command only its windows can be at fault. -/
theorem earlyError_of_checksPassed {i : Instr} {s : State} (h : i.checksPassed s = true) :
    i.earlyError s =
      if i.windowsInRange s = false then some .capacity
      else if i.windowsOverlap = true then some .overlap
      else none := by
  simp only [Instr.checksPassed, Bool.and_eq_true, bne_iff_ne] at h
  obtain ⟨⟨⟨⟨h1, h2⟩, h3⟩, h4⟩, h5⟩ := h
  simp [Instr.earlyError, h1, h2, h3, h4, h5]

/-! ### PAD -/

theorem execPadszZ_cases {slen imm : Word} {s t : State}
    (ht : execPadszZ slen imm s = .next t) :
    (∃ e ∈ [Err.capacity], t = s.raise e) ∨
      (1 ≤ imm.toNat ∧ imm.toNat ≤ 255 ∧ slen.toNat ≤ imm.toNat ∧
        t = s.finish (padSize .zero slen.toNat imm.toNat)) := by
  rcases command_cases ht with ⟨e, he, rfl⟩ | ⟨hp, hb⟩
  · have := mem_of_firstError he
    simp only [badBlockSize, List.mem_cons, Prod.mk.injEq, List.not_mem_nil, or_false] at this
    exact .inl ⟨e, by simp only [List.mem_cons]; tauto, rfl⟩
  · rw [firstError_eq_none] at hp
    simp [badBlockSize] at hp
    cases hb
    exact .inr (by simp_all; omega)

theorem execPadszP7_cases {slen imm : Word} {s t : State}
    (ht : execPadszP7 slen imm s = .next t) :
    (∃ e ∈ [Err.capacity], t = s.raise e) ∨
      (1 ≤ imm.toNat ∧ imm.toNat ≤ 255 ∧
        t = s.finish (padSize .pkcs7 slen.toNat imm.toNat)) := by
  rcases command_cases ht with ⟨e, he, rfl⟩ | ⟨hp, hb⟩
  · have := mem_of_firstError he
    simp only [badBlockSize, List.mem_cons, Prod.mk.injEq, List.not_mem_nil, or_false] at this
    exact .inl ⟨e, by simp only [List.mem_cons]; tauto, rfl⟩
  · rw [firstError_eq_none] at hp
    simp [badBlockSize] at hp
    cases hb
    exact .inr (by simp_all; omega)

theorem execPadszI4_cases {slen imm : Word} {s t : State}
    (ht : execPadszI4 slen imm s = .next t) :
    (∃ e ∈ [Err.capacity], t = s.raise e) ∨
      (1 ≤ imm.toNat ∧ imm.toNat ≤ 255 ∧
        t = s.finish (padSize .iso7816 slen.toNat imm.toNat)) := by
  rcases command_cases ht with ⟨e, he, rfl⟩ | ⟨hp, hb⟩
  · have := mem_of_firstError he
    simp only [badBlockSize, List.mem_cons, Prod.mk.injEq, List.not_mem_nil, or_false] at this
    exact .inl ⟨e, by simp only [List.mem_cons]; tauto, rfl⟩
  · rw [firstError_eq_none] at hp
    simp [badBlockSize] at hp
    cases hb
    exact .inr (by simp_all; omega)

/-! ### CBC -/

theorem execCbcInit_cases {c : Ctx} {sch : Scheme} {src slen : Word} {s t : State}
    (ht : execCbcInit c sch src slen s = .next t) :
    (∃ e ∈ [Err.illegal, .construct, .capacity], t = s.raise e) ∨
      (s.hasCtx c = true ∧ slen.toNat = s.blockSizeAt c ∧ s.inRange src slen = true ∧
        t = (s.setCbc c ⟨true, sch, s.readBytes src slen.toNat⟩).finish 0) := by
  rcases command_cases ht with ⟨e, he, rfl⟩ | ⟨hp, hb⟩
  · have := mem_of_firstError he
    simp only [State.noCtx, State.offRange, List.mem_cons, Prod.mk.injEq, List.not_mem_nil,
      or_false] at this
    exact .inl ⟨e, by simp only [List.mem_cons]; tauto, rfl⟩
  · rw [firstError_eq_none] at hp
    simp [State.noCtx, State.offRange] at hp
    cases hb
    exact .inr (by simp_all [State.source])

theorem execCbcEncsz_cases {c : Ctx} {slen : Word} {s t : State}
    (ht : execCbcEncsz c slen s = .next t) :
    (∃ e ∈ [Err.illegal, .usage, .capacity], t = s.raise e) ∨
      (s.hasCtx c = true ∧ (s.cbcAt c).valid = true ∧
        encSize (s.cbcAt c).scheme slen.toNat (s.blockSizeAt c) < 2 ^ 32 ∧
        t = s.finish (encSize (s.cbcAt c).scheme slen.toNat (s.blockSizeAt c))) := by
  rcases command_cases ht with ⟨e, he, rfl⟩ | ⟨hp, hb⟩
  · have := mem_of_firstError he
    simp only [State.noCtx, List.mem_cons, Prod.mk.injEq, List.not_mem_nil, or_false] at this
    exact .inl ⟨e, by simp only [List.mem_cons]; tauto, rfl⟩
  · rw [firstError_eq_none] at hp
    simp [State.noCtx] at hp
    cases hb
    exact .inr (by simp_all)

/-! ### P13 -/

theorem execP13Init_cases {c : Ctx} {src slen : Word} {s t : State}
    (ht : execP13Init c src slen s = .next t) :
    (∃ e ∈ [Err.illegal, .construct, .capacity], t = s.raise e) ∨
      (s.hasCtx c = true ∧ slen.toNat = 32 ∧ s.inRange src slen = true ∧
        t = (s.setP13 c (P13State.load (s.readBytes src slen.toNat) s.junkBuffer)).tick.finish 0) := by
  rcases command_cases ht with ⟨e, he, rfl⟩ | ⟨hp, hb⟩
  · have := mem_of_firstError he
    simp only [State.noCtx, State.offRange, List.mem_cons, Prod.mk.injEq, List.not_mem_nil,
      or_false] at this
    exact .inl ⟨e, by simp only [List.mem_cons]; tauto, rfl⟩
  · rw [firstError_eq_none] at hp
    simp [State.noCtx, State.offRange] at hp
    cases hb
    exact .inr (by simp_all [State.source])

theorem execP13Initsc_cases {c h : Ctx} {s t : State}
    (ht : execP13Initsc c h s = .next t) :
    (∃ e ∈ [Err.illegal, .usage, .construct], t = s.raise e) ∨
      (s.hasCtx c = true ∧ s.hasCtx h = true ∧ (s.scAt h).valid = true ∧
        32 ≤ s.par.streamBlock (s.scAt h).cipher ∧
        t = ((s.setSc h { s.scAt h with sigma := (scXor (s.par.streamBlock (s.scAt h).cipher) (s.scAt h).sigma
        (zeros (s.par.streamBlock (s.scAt h).cipher))).1 }).setP13 c
        (P13State.load (slice (scXor (s.par.streamBlock (s.scAt h).cipher) (s.scAt h).sigma
        (zeros (s.par.streamBlock (s.scAt h).cipher))).2 0 32)
          s.junkBuffer)).tick.finish 0) := by
  rcases command_cases ht with ⟨e, he, rfl⟩ | ⟨hp, hb⟩
  · have := mem_of_firstError he
    simp only [State.noCtx, List.mem_cons, Prod.mk.injEq, List.not_mem_nil, or_false] at this
    exact .inl ⟨e, by simp only [List.mem_cons]; tauto, rfl⟩
  · rw [firstError_eq_none] at hp
    simp [State.noCtx] at hp
    cases hb
    exact .inr (by simp_all)

theorem execP13Write_cases {c : Ctx} {src slen : Word} {s t : State}
    (ht : execP13Write c src slen s = .next t) :
    (∃ e ∈ [Err.illegal, .usage, .capacity], t = s.raise e) ∨
      (s.hasCtx c = true ∧ (s.p13At c).valid = true ∧ s.inRange src slen = true ∧
        t = (s.setP13 c ((s.p13At c).write (s.readBytes src slen.toNat))).finish 0) := by
  rcases command_cases ht with ⟨e, he, rfl⟩ | ⟨hp, hb⟩
  · have := mem_of_firstError he
    simp only [State.noCtx, State.offRange, List.mem_cons, Prod.mk.injEq, List.not_mem_nil,
      or_false] at this
    exact .inl ⟨e, by simp only [List.mem_cons]; tauto, rfl⟩
  · rw [firstError_eq_none] at hp
    simp [State.noCtx, State.offRange] at hp
    cases hb
    exact .inr (by simp_all [State.source])

theorem execP13Sumin_cases {c : Ctx} {dst dcap : Word} {s t : State}
    (ht : execP13Sumin c dst dcap s = .next t) :
    (∃ e ∈ [Err.illegal, .usage, .capacity], t = s.raise e) ∨
      (s.hasCtx c = true ∧ (s.p13At c).valid = true ∧ 16 ≤ dcap.toNat ∧
        s.inRange dst dcap = true ∧
        t = (s.setP13 c (consumedP13 s.fresh c)).tick.output dst (s.p13At c).final) := by
  rcases command_cases ht with ⟨e, he, rfl⟩ | ⟨hp, hb⟩
  · have := mem_of_firstError he
    simp only [State.noCtx, State.offRange, State.p13SumChecks, List.mem_cons, Prod.mk.injEq,
      List.not_mem_nil, or_false] at this
    exact .inl ⟨e, by simp only [List.mem_cons]; tauto, rfl⟩
  · rw [firstError_eq_none] at hp
    simp [State.noCtx, State.offRange, State.p13SumChecks] at hp
    cases hb
    exact .inr (by simp_all)

theorem execP13Sum_cases {c : Ctx} {dst dcap : Word} {s t : State}
    (ht : execP13Sum c dst dcap s = .next t) :
    (∃ e ∈ [Err.illegal, .usage, .capacity], t = s.raise e) ∨
      (s.hasCtx c = true ∧ (s.p13At c).valid = true ∧ 16 ≤ dcap.toNat ∧
        s.inRange dst dcap = true ∧
        t = s.output dst (s.p13At c).final) := by
  rcases command_cases ht with ⟨e, he, rfl⟩ | ⟨hp, hb⟩
  · have := mem_of_firstError he
    simp only [State.noCtx, State.offRange, State.p13SumChecks, List.mem_cons, Prod.mk.injEq,
      List.not_mem_nil, or_false] at this
    exact .inl ⟨e, by simp only [List.mem_cons]; tauto, rfl⟩
  · rw [firstError_eq_none] at hp
    simp [State.noCtx, State.offRange, State.p13SumChecks] at hp
    cases hb
    exact .inr (by simp_all)

theorem execP13Clone_cases {c d : Ctx} {s t : State}
    (ht : execP13Clone c d s = .next t) :
    (∃ e ∈ [Err.illegal, .usage], t = s.raise e) ∨
      (s.hasCtx c = true ∧ s.hasCtx d = true ∧ (s.p13At c).valid = true ∧
        t = (s.setP13 d (s.p13At c)).finish 0) := by
  rcases command_cases ht with ⟨e, he, rfl⟩ | ⟨hp, hb⟩
  · have := mem_of_firstError he
    simp only [State.noCtx, List.mem_cons, Prod.mk.injEq, List.not_mem_nil, or_false] at this
    exact .inl ⟨e, by simp only [List.mem_cons]; tauto, rfl⟩
  · rw [firstError_eq_none] at hp
    simp [State.noCtx] at hp
    cases hb
    exact .inr (by simp_all)

/-! ### ASC -/

theorem execAscClone_cases {c d : Ctx} {s t : State}
    (ht : execAscClone c d s = .next t) :
    (∃ e ∈ [Err.illegal, .usage], t = s.raise e) ∨
      (s.hasCtx c = true ∧ s.hasCtx d = true ∧ (s.ascAt c).valid = true ∧
        t = (s.setAsc d (s.ascAt c)).finish 0) := by
  rcases command_cases ht with ⟨e, he, rfl⟩ | ⟨hp, hb⟩
  · have := mem_of_firstError he
    simp only [State.noCtx, List.mem_cons, Prod.mk.injEq, List.not_mem_nil, or_false] at this
    exact .inl ⟨e, by simp only [List.mem_cons]; tauto, rfl⟩
  · rw [firstError_eq_none] at hp
    simp [State.noCtx] at hp
    cases hb
    exact .inr (by simp_all)

/-! ### ASH -/

theorem execAshClone_cases {c d : Ctx} {s t : State}
    (ht : execAshClone c d s = .next t) :
    (∃ e ∈ [Err.illegal, .usage], t = s.raise e) ∨
      (s.hasCtx c = true ∧ s.hasCtx d = true ∧ (s.ashAt c).valid = true ∧
        t = (s.setAsh d (s.ashAt c)).finish 0) := by
  rcases command_cases ht with ⟨e, he, rfl⟩ | ⟨hp, hb⟩
  · have := mem_of_firstError he
    simp only [State.noCtx, List.mem_cons, Prod.mk.injEq, List.not_mem_nil, or_false] at this
    exact .inl ⟨e, by simp only [List.mem_cons]; tauto, rfl⟩
  · rw [firstError_eq_none] at hp
    simp [State.noCtx] at hp
    cases hb
    exact .inr (by simp_all)

/-! ### AEAD -/

theorem execAeadInit_cases {c h : Ctx} {s t : State}
    (ht : execAeadInit c h s = .next t) :
    (∃ e ∈ [Err.illegal, .usage, .construct], t = s.raise e) ∨
      (s.hasCtx c = true ∧ s.hasCtx h = true ∧ (s.scAt h).valid = true ∧
        32 ≤ s.par.streamBlock (s.scAt h).cipher ∧
        t = ((s.setAead c
        { valid := true, cipher := (s.scAt h).cipher,
          sigma := (scXor (s.par.streamBlock (s.scAt h).cipher) (s.scAt h).sigma
        (zeros (s.par.streamBlock (s.scAt h).cipher))).1,
          poly := P13State.load (slice (scXor (s.par.streamBlock (s.scAt h).cipher) (s.scAt h).sigma
        (zeros (s.par.streamBlock (s.scAt h).cipher))).2 0 32)
            s.junkBuffer,
          stage := .init, adLen := 0, ctLen := 0 }).setSc h (consumedSc s.fresh h)).tick.finish 0) := by
  rcases command_cases ht with ⟨e, he, rfl⟩ | ⟨hp, hb⟩
  · have := mem_of_firstError he
    simp only [State.noCtx, List.mem_cons, Prod.mk.injEq, List.not_mem_nil, or_false] at this
    exact .inl ⟨e, by simp only [List.mem_cons]; tauto, rfl⟩
  · rw [firstError_eq_none] at hp
    simp [State.noCtx] at hp
    cases hb
    exact .inr (by simp_all)

theorem execAeadWrad_cases {c : Ctx} {src slen : Word} {s t : State}
    (ht : execAeadWrad c src slen s = .next t) :
    (∃ e ∈ [Err.illegal, .usage, .capacity], t = s.raise e) ∨
      (s.hasCtx c = true ∧ (s.aeadAt c).valid = true ∧ (s.aeadAt c).stage.beforeData = true ∧
        (s.aeadAt c).adLen.toNat + slen.toNat < 2 ^ 64 ∧ s.inRange src slen = true ∧
        t = (s.setAead c ((s.aeadAt c).writeAD (s.readBytes src slen.toNat))).finish 0) := by
  rcases command_cases ht with ⟨e, he, rfl⟩ | ⟨hp, hb⟩
  · have := mem_of_firstError he
    simp only [State.noCtx, State.offRange, List.mem_cons, Prod.mk.injEq, List.not_mem_nil,
      or_false] at this
    exact .inl ⟨e, by simp only [List.mem_cons]; tauto, rfl⟩
  · rw [firstError_eq_none] at hp
    simp [State.noCtx, State.offRange] at hp
    cases hb
    exact .inr (by simp_all [State.source])

theorem execAeadEnc_cases {c : Ctx} {src slen dst dcap : Word} {s t : State}
    (ht : execAeadEnc c src slen dst dcap s = .next t) :
    (∃ e ∈ [Err.illegal, .usage, .capacity, .overlap], t = s.raise e) ∨
      (s.hasCtx c = true ∧ (s.aeadAt c).valid = true ∧ (s.aeadAt c).stage ≠ .done ∧
        slen.toNat ≤ dcap.toNat ∧ (s.aeadAt c).ctLen.toNat + slen.toNat < 2 ^ 64 ∧
        s.inRange src slen = true ∧ s.inRange dst dcap = true ∧
        partialOverlap src slen dst dcap = false ∧
        t = (s.setAead c ((s.aeadAt c).encrypt (s.par.streamBlock (s.aeadAt c).cipher)
        (s.readBytes src slen.toNat)).1).output dst ((s.aeadAt c).encrypt (s.par.streamBlock (s.aeadAt c).cipher)
        (s.readBytes src slen.toNat)).2) := by
  rcases command_cases ht with ⟨e, he, rfl⟩ | ⟨hp, hb⟩
  · have := mem_of_firstError he
    simp only [State.noCtx, State.offRange, State.windowChecks, State.aeadDataChecks,
      AeadCtx.finished, List.cons_append, List.nil_append, List.mem_cons, Prod.mk.injEq,
      List.not_mem_nil, or_false] at this
    exact .inl ⟨e, by simp only [List.mem_cons]; tauto, rfl⟩
  · rw [firstError_eq_none] at hp
    simp [State.noCtx, State.offRange, State.windowChecks, State.aeadDataChecks,
      AeadCtx.finished] at hp
    cases hb
    exact .inr (by simp_all [State.source])

theorem execAeadDec_cases {c : Ctx} {src slen dst dcap : Word} {s t : State}
    (ht : execAeadDec c src slen dst dcap s = .next t) :
    (∃ e ∈ [Err.illegal, .usage, .capacity, .overlap], t = s.raise e) ∨
      (s.hasCtx c = true ∧ (s.aeadAt c).valid = true ∧ (s.aeadAt c).stage ≠ .done ∧
        slen.toNat ≤ dcap.toNat ∧ (s.aeadAt c).ctLen.toNat + slen.toNat < 2 ^ 64 ∧
        s.inRange src slen = true ∧ s.inRange dst dcap = true ∧
        partialOverlap src slen dst dcap = false ∧
        t = (s.setAead c ((s.aeadAt c).decrypt (s.par.streamBlock (s.aeadAt c).cipher)
        (s.readBytes src slen.toNat)).1).output dst ((s.aeadAt c).decrypt (s.par.streamBlock (s.aeadAt c).cipher)
        (s.readBytes src slen.toNat)).2) := by
  rcases command_cases ht with ⟨e, he, rfl⟩ | ⟨hp, hb⟩
  · have := mem_of_firstError he
    simp only [State.noCtx, State.offRange, State.windowChecks, State.aeadDataChecks,
      AeadCtx.finished, List.cons_append, List.nil_append, List.mem_cons, Prod.mk.injEq,
      List.not_mem_nil, or_false] at this
    exact .inl ⟨e, by simp only [List.mem_cons]; tauto, rfl⟩
  · rw [firstError_eq_none] at hp
    simp [State.noCtx, State.offRange, State.windowChecks, State.aeadDataChecks,
      AeadCtx.finished] at hp
    cases hb
    exact .inr (by simp_all [State.source])

theorem execAeadFin_cases {c : Ctx} {dst dcap : Word} {s t : State}
    (ht : execAeadFin c dst dcap s = .next t) :
    (∃ e ∈ [Err.illegal, .usage, .capacity], t = s.raise e) ∨
      (s.hasCtx c = true ∧ (s.aeadAt c).valid = true ∧ (s.aeadAt c).stage ≠ .done ∧
        16 ≤ dcap.toNat ∧ s.inRange dst dcap = true ∧
        t = (s.setAead c (consumedAead s.fresh c)).tick.output dst (s.aeadAt c).tag) := by
  rcases command_cases ht with ⟨e, he, rfl⟩ | ⟨hp, hb⟩
  · have := mem_of_firstError he
    simp only [State.noCtx, State.offRange, AeadCtx.finished, List.mem_cons, Prod.mk.injEq,
      List.not_mem_nil, or_false] at this
    exact .inl ⟨e, by simp only [List.mem_cons]; tauto, rfl⟩
  · rw [firstError_eq_none] at hp
    simp [State.noCtx, State.offRange, AeadCtx.finished] at hp
    cases hb
    exact .inr (by simp_all)

theorem execAeadVfy_cases {c : Ctx} {src slen : Word} {s t : State}
    (ht : execAeadVfy c src slen s = .next t) :
    (∃ e ∈ [Err.illegal, .usage, .capacity], t = s.raise e) ∨
      (s.hasCtx c = true ∧ (s.aeadAt c).valid = true ∧ (s.aeadAt c).stage ≠ .done ∧
        slen.toNat = 16 ∧ s.inRange src slen = true ∧
        t = (s.setAead c (consumedAead s.fresh c)).tick.finish
        (if tagsAgree (s.aeadAt c).tag (s.readBytes src slen.toNat) then 1 else 0)) := by
  rcases command_cases ht with ⟨e, he, rfl⟩ | ⟨hp, hb⟩
  · have := mem_of_firstError he
    simp only [State.noCtx, State.offRange, AeadCtx.finished, List.mem_cons, Prod.mk.injEq,
      List.not_mem_nil, or_false] at this
    exact .inl ⟨e, by simp only [List.mem_cons]; tauto, rfl⟩
  · rw [firstError_eq_none] at hp
    simp [State.noCtx, State.offRange, AeadCtx.finished] at hp
    cases hb
    exact .inr (by simp_all [State.source])

theorem execAeadEncsz_cases {c : Ctx} {slen : Word} {s t : State}
    (ht : execAeadEncsz c slen s = .next t) :
    (∃ e ∈ [Err.illegal, .usage], t = s.raise e) ∨
      (s.hasCtx c = true ∧ (s.aeadAt c).valid = true ∧
        t = s.finish slen.toNat) := by
  rcases command_cases ht with ⟨e, he, rfl⟩ | ⟨hp, hb⟩
  · have := mem_of_firstError he
    simp only [State.noCtx, List.mem_cons, Prod.mk.injEq, List.not_mem_nil, or_false] at this
    exact .inl ⟨e, by simp only [List.mem_cons]; tauto, rfl⟩
  · rw [firstError_eq_none] at hp
    simp [State.noCtx] at hp
    cases hb
    exact .inr (by simp_all)

/-! ### ASC -/

theorem execAscWrad_cases {c : Ctx} {src slen : Word} {s t : State}
    (ht : execAscWrad c src slen s = .next t) :
    (∃ e ∈ [Err.illegal, .usage, .capacity], t = s.raise e) ∨
      (s.hasCtx c = true ∧ (s.ascAt c).valid = true ∧ (s.ascAt c).stage.beforeData = true ∧
        s.inRange src slen = true ∧
        t = (s.setAsc c ((s.ascAt c).writeAD (s.readBytes src slen.toNat))).finish 0) := by
  rcases command_cases ht with ⟨e, he, rfl⟩ | ⟨hp, hb⟩
  · have := mem_of_firstError he
    simp only [State.noCtx, State.offRange, List.mem_cons, Prod.mk.injEq, List.not_mem_nil,
      or_false] at this
    exact .inl ⟨e, by simp only [List.mem_cons]; tauto, rfl⟩
  · rw [firstError_eq_none] at hp
    simp [State.noCtx, State.offRange] at hp
    cases hb
    exact .inr (by simp_all [State.source])

theorem execAscEnc_cases {c : Ctx} {src slen dst dcap : Word} {s t : State}
    (ht : execAscEnc c src slen dst dcap s = .next t) :
    (∃ e ∈ [Err.illegal, .usage, .capacity, .overlap], t = s.raise e) ∨
      (s.hasCtx c = true ∧ (s.ascAt c).valid = true ∧ (s.ascAt c).stage ≠ .done ∧
        slen.toNat ≤ dcap.toNat ∧ s.inRange src slen = true ∧ s.inRange dst dcap = true ∧
        partialOverlap src slen dst dcap = false ∧
        t = (s.setAsc c ((s.ascAt c).encrypt (s.readBytes src slen.toNat)).1).output dst
        ((s.ascAt c).encrypt (s.readBytes src slen.toNat)).2) := by
  rcases command_cases ht with ⟨e, he, rfl⟩ | ⟨hp, hb⟩
  · have := mem_of_firstError he
    simp only [State.noCtx, State.offRange, State.windowChecks, State.ascDataChecks,
      AscCtx.finished, List.cons_append, List.nil_append, List.mem_cons, Prod.mk.injEq,
      List.not_mem_nil, or_false] at this
    exact .inl ⟨e, by simp only [List.mem_cons]; tauto, rfl⟩
  · rw [firstError_eq_none] at hp
    simp [State.noCtx, State.offRange, State.windowChecks, State.ascDataChecks,
      AscCtx.finished] at hp
    cases hb
    exact .inr (by simp_all [State.source])

theorem execAscDec_cases {c : Ctx} {src slen dst dcap : Word} {s t : State}
    (ht : execAscDec c src slen dst dcap s = .next t) :
    (∃ e ∈ [Err.illegal, .usage, .capacity, .overlap], t = s.raise e) ∨
      (s.hasCtx c = true ∧ (s.ascAt c).valid = true ∧ (s.ascAt c).stage ≠ .done ∧
        slen.toNat ≤ dcap.toNat ∧ s.inRange src slen = true ∧ s.inRange dst dcap = true ∧
        partialOverlap src slen dst dcap = false ∧
        t = (s.setAsc c ((s.ascAt c).decrypt (s.readBytes src slen.toNat)).1).output dst
        ((s.ascAt c).decrypt (s.readBytes src slen.toNat)).2) := by
  rcases command_cases ht with ⟨e, he, rfl⟩ | ⟨hp, hb⟩
  · have := mem_of_firstError he
    simp only [State.noCtx, State.offRange, State.windowChecks, State.ascDataChecks,
      AscCtx.finished, List.cons_append, List.nil_append, List.mem_cons, Prod.mk.injEq,
      List.not_mem_nil, or_false] at this
    exact .inl ⟨e, by simp only [List.mem_cons]; tauto, rfl⟩
  · rw [firstError_eq_none] at hp
    simp [State.noCtx, State.offRange, State.windowChecks, State.ascDataChecks,
      AscCtx.finished] at hp
    cases hb
    exact .inr (by simp_all [State.source])

theorem execAscFin_cases {c : Ctx} {dst dcap : Word} {s t : State}
    (ht : execAscFin c dst dcap s = .next t) :
    (∃ e ∈ [Err.illegal, .usage, .capacity], t = s.raise e) ∨
      (s.hasCtx c = true ∧ (s.ascAt c).valid = true ∧ (s.ascAt c).stage ≠ .done ∧
        16 ≤ dcap.toNat ∧ s.inRange dst dcap = true ∧
        t = (s.setAsc c (consumedAsc s.fresh c)).tick.output dst (s.ascAt c).tag) := by
  rcases command_cases ht with ⟨e, he, rfl⟩ | ⟨hp, hb⟩
  · have := mem_of_firstError he
    simp only [State.noCtx, State.offRange, AscCtx.finished, List.mem_cons, Prod.mk.injEq,
      List.not_mem_nil, or_false] at this
    exact .inl ⟨e, by simp only [List.mem_cons]; tauto, rfl⟩
  · rw [firstError_eq_none] at hp
    simp [State.noCtx, State.offRange, AscCtx.finished] at hp
    cases hb
    exact .inr (by simp_all)

theorem execAscVfy_cases {c : Ctx} {src slen : Word} {s t : State}
    (ht : execAscVfy c src slen s = .next t) :
    (∃ e ∈ [Err.illegal, .usage, .capacity], t = s.raise e) ∨
      (s.hasCtx c = true ∧ (s.ascAt c).valid = true ∧ (s.ascAt c).stage ≠ .done ∧
        slen.toNat = 16 ∧ s.inRange src slen = true ∧
        t = (s.setAsc c (consumedAsc s.fresh c)).tick.finish
        (if tagsAgree (s.ascAt c).tag (s.readBytes src slen.toNat) then 1 else 0)) := by
  rcases command_cases ht with ⟨e, he, rfl⟩ | ⟨hp, hb⟩
  · have := mem_of_firstError he
    simp only [State.noCtx, State.offRange, AscCtx.finished, List.mem_cons, Prod.mk.injEq,
      List.not_mem_nil, or_false] at this
    exact .inl ⟨e, by simp only [List.mem_cons]; tauto, rfl⟩
  · rw [firstError_eq_none] at hp
    simp [State.noCtx, State.offRange, AscCtx.finished] at hp
    cases hb
    exact .inr (by simp_all [State.source])

theorem execAscEncsz_cases {c : Ctx} {slen : Word} {s t : State}
    (ht : execAscEncsz c slen s = .next t) :
    (∃ e ∈ [Err.illegal, .usage], t = s.raise e) ∨
      (s.hasCtx c = true ∧ (s.ascAt c).valid = true ∧
        t = s.finish slen.toNat) := by
  rcases command_cases ht with ⟨e, he, rfl⟩ | ⟨hp, hb⟩
  · have := mem_of_firstError he
    simp only [State.noCtx, List.mem_cons, Prod.mk.injEq, List.not_mem_nil, or_false] at this
    exact .inl ⟨e, by simp only [List.mem_cons]; tauto, rfl⟩
  · rw [firstError_eq_none] at hp
    simp [State.noCtx] at hp
    cases hb
    exact .inr (by simp_all)

/-! ### ASH -/

theorem execAshInitHash_cases {c : Ctx} {s t : State}
    (ht : execAshInitHash c s = .next t) :
    (∃ e ∈ [Err.illegal], t = s.raise e) ∨
      (s.hasCtx c = true ∧
        t = (s.setAsh c (AshCtx.construct .hash 32)).finish 0) := by
  rcases command_cases ht with ⟨e, he, rfl⟩ | ⟨hp, hb⟩
  · have := mem_of_firstError he
    simp only [State.noCtx, List.mem_cons, Prod.mk.injEq, List.not_mem_nil, or_false] at this
    exact .inl ⟨e, by simp only [List.mem_cons]; tauto, rfl⟩
  · rw [firstError_eq_none] at hp
    simp [State.noCtx] at hp
    cases hb
    exact .inr (by simp_all)

theorem execAshInitXof_cases {c : Ctx} {imm : Word} {s t : State}
    (ht : execAshInitXof c imm s = .next t) :
    (∃ e ∈ [Err.illegal], t = s.raise e) ∨
      (s.hasCtx c = true ∧
        t = (s.setAsh c (AshCtx.construct .xof imm)).finish 0) := by
  rcases command_cases ht with ⟨e, he, rfl⟩ | ⟨hp, hb⟩
  · have := mem_of_firstError he
    simp only [State.noCtx, List.mem_cons, Prod.mk.injEq, List.not_mem_nil, or_false] at this
    exact .inl ⟨e, by simp only [List.mem_cons]; tauto, rfl⟩
  · rw [firstError_eq_none] at hp
    simp [State.noCtx] at hp
    cases hb
    exact .inr (by simp_all)

theorem execAshWrite_cases {c : Ctx} {src slen : Word} {s t : State}
    (ht : execAshWrite c src slen s = .next t) :
    (∃ e ∈ [Err.illegal, .usage, .capacity], t = s.raise e) ∨
      (s.hasCtx c = true ∧ (s.ashAt c).valid = true ∧ s.inRange src slen = true ∧
        t = (s.setAsh c ((s.ashAt c).write (s.readBytes src slen.toNat))).finish 0) := by
  rcases command_cases ht with ⟨e, he, rfl⟩ | ⟨hp, hb⟩
  · have := mem_of_firstError he
    simp only [State.noCtx, State.offRange, List.mem_cons, Prod.mk.injEq, List.not_mem_nil,
      or_false] at this
    exact .inl ⟨e, by simp only [List.mem_cons]; tauto, rfl⟩
  · rw [firstError_eq_none] at hp
    simp [State.noCtx, State.offRange] at hp
    cases hb
    exact .inr (by simp_all [State.source])

theorem execAshSumin_cases {c : Ctx} {dst dcap : Word} {s t : State}
    (ht : execAshSumin c dst dcap s = .next t) :
    (∃ e ∈ [Err.illegal, .usage, .capacity], t = s.raise e) ∨
      (s.hasCtx c = true ∧ (s.ashAt c).valid = true ∧ (s.ashAt c).dlen.toNat ≤ dcap.toNat ∧
        s.inRange dst dcap = true ∧
        t = (s.setAsh c (consumedAsh s.fresh c)).tick.output dst (s.ashAt c).digest) := by
  rcases command_cases ht with ⟨e, he, rfl⟩ | ⟨hp, hb⟩
  · have := mem_of_firstError he
    simp only [State.noCtx, State.offRange, State.ashSumChecks, List.mem_cons, Prod.mk.injEq,
      List.not_mem_nil, or_false] at this
    exact .inl ⟨e, by simp only [List.mem_cons]; tauto, rfl⟩
  · rw [firstError_eq_none] at hp
    simp [State.noCtx, State.offRange, State.ashSumChecks] at hp
    cases hb
    exact .inr (by simp_all)

theorem execAshSum_cases {c : Ctx} {dst dcap : Word} {s t : State}
    (ht : execAshSum c dst dcap s = .next t) :
    (∃ e ∈ [Err.illegal, .usage, .capacity], t = s.raise e) ∨
      (s.hasCtx c = true ∧ (s.ashAt c).valid = true ∧ (s.ashAt c).dlen.toNat ≤ dcap.toNat ∧
        s.inRange dst dcap = true ∧
        t = s.output dst (s.ashAt c).digest) := by
  rcases command_cases ht with ⟨e, he, rfl⟩ | ⟨hp, hb⟩
  · have := mem_of_firstError he
    simp only [State.noCtx, State.offRange, State.ashSumChecks, List.mem_cons, Prod.mk.injEq,
      List.not_mem_nil, or_false] at this
    exact .inl ⟨e, by simp only [List.mem_cons]; tauto, rfl⟩
  · rw [firstError_eq_none] at hp
    simp [State.noCtx, State.offRange, State.ashSumChecks] at hp
    cases hb
    exact .inr (by simp_all)

/-! ### CBC data -/

theorem execCbcEnc_cases {c : Ctx} {src slen dst dcap : Word} {s t : State}
    (ht : execCbcEnc c src slen dst dcap s = .next t) :
    (∃ e ∈ [Err.illegal, .usage, .capacity, .overlap], t = s.raise e) ∨
      (s.hasCtx c = true ∧ (s.cbcAt c).valid = true ∧
        encSize (s.cbcAt c).scheme slen.toNat (s.blockSizeAt c) ≤ dcap.toNat ∧
        s.inRange src slen = true ∧ s.inRange dst dcap = true ∧
        partialOverlap src slen dst dcap = false ∧ (s.cbcAt c).iv.length = s.blockSizeAt c ∧
        t = s.output dst (cbcEncrypt (bcEnc c (s.blockSizeAt c)) (s.blockSizeAt c)
          (s.cbcAt c).scheme (s.cbcAt c).iv (s.readBytes src slen.toNat))) := by
  rcases command_cases ht with ⟨e, he, rfl⟩ | ⟨hp, hb⟩
  · have := mem_of_firstError he
    simp only [State.noCtx, State.windowChecks, State.offRange, List.cons_append, List.nil_append,
      List.mem_cons, Prod.mk.injEq, List.not_mem_nil, or_false] at this
    exact .inl ⟨e, by simp only [List.mem_cons]; tauto, rfl⟩
  · rw [firstError_eq_none] at hp
    simp [State.noCtx, State.windowChecks, State.offRange] at hp
    split at hb
    · cases hb
      exact .inr (by simp_all [State.source])
    · cases hb

theorem execCbcDec_cases {c : Ctx} {src slen dst dcap : Word} {s t : State}
    (ht : execCbcDec c src slen dst dcap s = .next t) :
    (∃ e ∈ [Err.illegal, .usage, .capacity, .overlap], t = s.raise e) ∨
      (s.hasCtx c = true ∧ (s.cbcAt c).valid = true ∧ slen.toNat % s.blockSizeAt c = 0 ∧
        s.inRange src slen = true ∧ s.inRange dst dcap = true ∧
        partialOverlap src slen dst dcap = false ∧ (s.cbcAt c).iv.length = s.blockSizeAt c ∧
        t = s.lateOutput dst dcap (cbcDecrypt (bcDec c (s.blockSizeAt c)) (s.blockSizeAt c)
          (s.cbcAt c).scheme (s.cbcAt c).iv (s.readBytes src slen.toNat))) := by
  rcases command_cases ht with ⟨e, he, rfl⟩ | ⟨hp, hb⟩
  · have := mem_of_firstError he
    simp only [State.noCtx, State.windowChecks, State.offRange, List.cons_append, List.nil_append,
      List.mem_cons, Prod.mk.injEq, List.not_mem_nil, or_false] at this
    exact .inl ⟨e, by simp only [List.mem_cons]; tauto, rfl⟩
  · rw [firstError_eq_none] at hp
    simp [State.noCtx, State.windowChecks, State.offRange] at hp
    split at hb
    · cases hb
      exact .inr (by simp_all [State.source])
    · cases hb

/-! ### All commands -/

/-- What a next state of a command can be: the state with an error response; the response alone after
changes that leave `M`, the parameters and the inputs; an output of at most `DCAP` bytes into a
destination window in range after such changes; or a late error. -/
inductive Effect (i : Instr) (s : State) : State → Prop where
  | early (e : Err) (he : e ≠ .content) : Effect i s (s.raise e)
  | quiet (u : State) (v : Nat) (hd : i.destination = none)
      (hu : u.mem = s.mem ∧ u.par = s.par ∧ u.inputs = s.inputs) : Effect i s (u.finish v)
  | writes (u : State) (dst dcap : Word) (X : List Byte) (hd : i.destination = some (dst, dcap))
      (hr : s.inRange dst dcap = true) (hx : X.length ≤ dcap.toNat)
      (hu : u.mem = s.mem ∧ u.par = s.par ∧ u.inputs = s.inputs)
      (hl : i.mayFailLate = true → u = s) : Effect i s (u.output dst X)
  | late (e : Err) (dst dcap : Word) (hl : i.mayFailLate = true)
      (hd : i.destination = some (dst, dcap)) (hr : s.inRange dst dcap = true)
      (he : e = .content ∨ e = .capacity) : Effect i s (s.raiseLate e dst dcap)

theorem Effect.early_of_mem {i : Instr} {s : State} {e : Err} {l : List Err} (he : e ∈ l)
    (hl : .content ∉ l) : Effect i s (s.raise e) := .early e fun h => hl (h ▸ he)

theorem Effect.late_output {i : Instr} {s : State} {dst dcap : Word} (U : Option (List Byte))
    (hl : i.mayFailLate = true) (hd : i.destination = some (dst, dcap))
    (hr : s.inRange dst dcap = true) : Effect i s (s.lateOutput dst dcap U) := by
  rcases s.lateOutput_cases dst dcap U with ⟨X, -, hx, e⟩ | ⟨X, -, -, e⟩ | ⟨-, e⟩ <;> rw [e]
  · exact .writes s dst dcap X hd hr hx ⟨rfl, rfl, rfl⟩ fun _ => rfl
  · exact .late .capacity dst dcap hl hd hr (.inr rfl)
  · exact .late .content dst dcap hl hd hr (.inl rfl)

/-- Every next state of every command is one of these. -/
theorem exec_effect {i : Instr} {s t : State} (h : exec i s = .next t) : Effect i s t := by
  cases i with
  | padszZ slen imm =>
    rcases execPadszZ_cases h with ⟨e, he, rfl⟩ | ⟨-, -, -, rfl⟩
    · exact .early_of_mem he (by decide)
    · exact .quiet _ _ rfl ⟨rfl, rfl, rfl⟩
  | padszP7 slen imm =>
    rcases execPadszP7_cases h with ⟨e, he, rfl⟩ | ⟨-, -, rfl⟩
    · exact .early_of_mem he (by decide)
    · exact .quiet _ _ rfl ⟨rfl, rfl, rfl⟩
  | padszI4 slen imm =>
    rcases execPadszI4_cases h with ⟨e, he, rfl⟩ | ⟨-, -, rfl⟩
    · exact .early_of_mem he (by decide)
    · exact .quiet _ _ rfl ⟨rfl, rfl, rfl⟩
  | padZ src slen dst dcap imm =>
    rcases execPad_cases h with ⟨e, he, rfl⟩ | ⟨-, -, h3, h4, -, hr, -, rfl⟩
    · exact .early e (by rcases he with rfl | rfl <;> decide)
    · exact .writes s dst dcap _ rfl hr (by rw [pad_zero_length _ _ (by simpa using h3)]; exact h4)
        ⟨rfl, rfl, rfl⟩ (by simp [Instr.mayFailLate])
  | padP7 src slen dst dcap imm =>
    rcases execPad_cases h with ⟨e, he, rfl⟩ | ⟨-, -, h3, h4, -, hr, -, rfl⟩
    · exact .early e (by rcases he with rfl | rfl <;> decide)
    · exact .writes s dst dcap _ rfl hr (by rw [pad_length _ _ _ (by simpa using h3)]; exact h4)
        ⟨rfl, rfl, rfl⟩ (by simp [Instr.mayFailLate])
  | padI4 src slen dst dcap imm =>
    rcases execPad_cases h with ⟨e, he, rfl⟩ | ⟨-, -, h3, h4, -, hr, -, rfl⟩
    · exact .early e (by rcases he with rfl | rfl <;> decide)
    · exact .writes s dst dcap _ rfl hr (by rw [pad_length _ _ _ (by simpa using h3)]; exact h4)
        ⟨rfl, rfl, rfl⟩ (by simp [Instr.mayFailLate])
  | unpadZ src slen dst dcap =>
    rcases execUnpad_cases h with ⟨e, he, rfl⟩ | ⟨-, hr, -, rfl⟩
    · exact .early e (by rcases he with rfl | rfl <;> decide)
    · exact .late_output _ rfl rfl hr
  | unpadP7 src slen dst dcap =>
    rcases execUnpad_cases h with ⟨e, he, rfl⟩ | ⟨-, hr, -, rfl⟩
    · exact .early e (by rcases he with rfl | rfl <;> decide)
    · exact .late_output _ rfl rfl hr
  | unpadI4 src slen dst dcap =>
    rcases execUnpad_cases h with ⟨e, he, rfl⟩ | ⟨-, hr, -, rfl⟩
    · exact .early e (by rcases he with rfl | rfl <;> decide)
    · exact .late_output _ rfl rfl hr
  | cbcInit c scheme src slen =>
    rcases execCbcInit_cases h with ⟨e, he, rfl⟩ | ⟨-, -, -, rfl⟩
    · exact .early_of_mem he (by decide)
    · exact .quiet _ _ rfl ⟨rfl, rfl, rfl⟩
  | cbcEncsz c slen =>
    rcases execCbcEncsz_cases h with ⟨e, he, rfl⟩ | ⟨-, -, -, rfl⟩
    · exact .early_of_mem he (by decide)
    · exact .quiet _ _ rfl ⟨rfl, rfl, rfl⟩
  | cbcEnc c src slen dst dcap =>
    rcases execCbcEnc_cases h with ⟨e, he, rfl⟩ | ⟨-, -, hn, -, hr, -, -, rfl⟩
    · exact .early_of_mem he (by decide)
    · exact .writes s dst dcap _ rfl hr (by rwa [cbcEncrypt_length, State.readBytes_length])
        ⟨rfl, rfl, rfl⟩ (by simp [Instr.mayFailLate])
  | cbcDec c src slen dst dcap =>
    rcases execCbcDec_cases h with ⟨e, he, rfl⟩ | ⟨-, -, -, -, hr, -, -, rfl⟩
    · exact .early_of_mem he (by decide)
    · exact .late_output _ rfl rfl hr
  | p13Init c src slen =>
    rcases execP13Init_cases h with ⟨e, he, rfl⟩ | ⟨-, -, -, rfl⟩
    · exact .early_of_mem he (by decide)
    · exact .quiet _ _ rfl ⟨rfl, rfl, rfl⟩
  | p13Initsc c h =>
    rcases execP13Initsc_cases h with ⟨e, he, rfl⟩ | ⟨-, -, -, -, rfl⟩
    · exact .early_of_mem he (by decide)
    · exact .quiet _ _ rfl ⟨rfl, rfl, rfl⟩
  | p13Write c src slen =>
    rcases execP13Write_cases h with ⟨e, he, rfl⟩ | ⟨-, -, -, rfl⟩
    · exact .early_of_mem he (by decide)
    · exact .quiet _ _ rfl ⟨rfl, rfl, rfl⟩
  | p13Sumin c dst dcap =>
    rcases execP13Sumin_cases h with ⟨e, he, rfl⟩ | ⟨-, -, hn, hr, rfl⟩
    · exact .early_of_mem he (by decide)
    · exact .writes _ dst dcap _ rfl hr (by simpa using hn) ⟨rfl, rfl, rfl⟩
        (by simp [Instr.mayFailLate])
  | p13Sum c dst dcap =>
    rcases execP13Sum_cases h with ⟨e, he, rfl⟩ | ⟨-, -, hn, hr, rfl⟩
    · exact .early_of_mem he (by decide)
    · exact .writes _ dst dcap _ rfl hr (by simpa using hn) ⟨rfl, rfl, rfl⟩
        (by simp [Instr.mayFailLate])
  | p13Clone c d =>
    rcases execP13Clone_cases h with ⟨e, he, rfl⟩ | ⟨-, -, -, rfl⟩
    · exact .early_of_mem he (by decide)
    · exact .quiet _ _ rfl ⟨rfl, rfl, rfl⟩
  | scInitCc20 h src slen =>
    rcases execScInit_cases h with ⟨e, he, rfl⟩ | ⟨-, -, -, rfl⟩
    · exact .early e (by rcases he with rfl | rfl | rfl <;> decide)
    · exact .quiet _ _ rfl ⟨rfl, rfl, rfl⟩
  | scInitSs20 h src slen =>
    rcases execScInit_cases h with ⟨e, he, rfl⟩ | ⟨-, -, -, rfl⟩
    · exact .early e (by rcases he with rfl | rfl | rfl <;> decide)
    · exact .quiet _ _ rfl ⟨rfl, rfl, rfl⟩
  | scInitXcc20 h src slen =>
    rcases execScInit_cases h with ⟨e, he, rfl⟩ | ⟨-, -, -, rfl⟩
    · exact .early e (by rcases he with rfl | rfl | rfl <;> decide)
    · exact .quiet _ _ rfl ⟨rfl, rfl, rfl⟩
  | scInitXss20 h src slen =>
    rcases execScInit_cases h with ⟨e, he, rfl⟩ | ⟨-, -, -, rfl⟩
    · exact .early e (by rcases he with rfl | rfl | rfl <;> decide)
    · exact .quiet _ _ rfl ⟨rfl, rfl, rfl⟩
  | aeadInit c h =>
    rcases execAeadInit_cases h with ⟨e, he, rfl⟩ | ⟨-, -, -, -, rfl⟩
    · exact .early_of_mem he (by decide)
    · exact .quiet _ _ rfl ⟨rfl, rfl, rfl⟩
  | aeadWrad c src slen =>
    rcases execAeadWrad_cases h with ⟨e, he, rfl⟩ | ⟨-, -, -, -, -, rfl⟩
    · exact .early_of_mem he (by decide)
    · exact .quiet _ _ rfl ⟨rfl, rfl, rfl⟩
  | aeadEnc c src slen dst dcap =>
    rcases execAeadEnc_cases h with ⟨e, he, rfl⟩ | ⟨-, -, -, hn, -, -, hr, -, rfl⟩
    · exact .early_of_mem he (by decide)
    · exact .writes _ dst dcap _ rfl hr (by simpa using hn) ⟨rfl, rfl, rfl⟩
        (by simp [Instr.mayFailLate])
  | aeadDec c src slen dst dcap =>
    rcases execAeadDec_cases h with ⟨e, he, rfl⟩ | ⟨-, -, -, hn, -, -, hr, -, rfl⟩
    · exact .early_of_mem he (by decide)
    · exact .writes _ dst dcap _ rfl hr (by simpa using hn) ⟨rfl, rfl, rfl⟩
        (by simp [Instr.mayFailLate])
  | aeadFin c dst dcap =>
    rcases execAeadFin_cases h with ⟨e, he, rfl⟩ | ⟨-, -, -, hn, hr, rfl⟩
    · exact .early_of_mem he (by decide)
    · exact .writes _ dst dcap _ rfl hr (by simpa using hn) ⟨rfl, rfl, rfl⟩
        (by simp [Instr.mayFailLate])
  | aeadVfy c src slen =>
    rcases execAeadVfy_cases h with ⟨e, he, rfl⟩ | ⟨-, -, -, -, -, rfl⟩
    · exact .early_of_mem he (by decide)
    · exact .quiet _ _ rfl ⟨rfl, rfl, rfl⟩
  | aeadEncsz c slen =>
    rcases execAeadEncsz_cases h with ⟨e, he, rfl⟩ | ⟨-, -, rfl⟩
    · exact .early_of_mem he (by decide)
    · exact .quiet _ _ rfl ⟨rfl, rfl, rfl⟩
  | ascInit128 c src slen =>
    rcases execAscInit_cases h with ⟨e, he, rfl⟩ | ⟨-, -, -, rfl⟩
    · exact .early e (by rcases he with rfl | rfl | rfl <;> decide)
    · exact .quiet _ _ rfl ⟨rfl, rfl, rfl⟩
  | ascInit128a c src slen =>
    rcases execAscInit_cases h with ⟨e, he, rfl⟩ | ⟨-, -, -, rfl⟩
    · exact .early e (by rcases he with rfl | rfl | rfl <;> decide)
    · exact .quiet _ _ rfl ⟨rfl, rfl, rfl⟩
  | ascInit80pq c src slen =>
    rcases execAscInit_cases h with ⟨e, he, rfl⟩ | ⟨-, -, -, rfl⟩
    · exact .early e (by rcases he with rfl | rfl | rfl <;> decide)
    · exact .quiet _ _ rfl ⟨rfl, rfl, rfl⟩
  | ascWrad c src slen =>
    rcases execAscWrad_cases h with ⟨e, he, rfl⟩ | ⟨-, -, -, -, rfl⟩
    · exact .early_of_mem he (by decide)
    · exact .quiet _ _ rfl ⟨rfl, rfl, rfl⟩
  | ascEnc c src slen dst dcap =>
    rcases execAscEnc_cases h with ⟨e, he, rfl⟩ | ⟨-, -, -, hn, -, hr, -, rfl⟩
    · exact .early_of_mem he (by decide)
    · exact .writes _ dst dcap _ rfl hr (by simpa using hn) ⟨rfl, rfl, rfl⟩
        (by simp [Instr.mayFailLate])
  | ascDec c src slen dst dcap =>
    rcases execAscDec_cases h with ⟨e, he, rfl⟩ | ⟨-, -, -, hn, -, hr, -, rfl⟩
    · exact .early_of_mem he (by decide)
    · exact .writes _ dst dcap _ rfl hr (by simpa using hn) ⟨rfl, rfl, rfl⟩
        (by simp [Instr.mayFailLate])
  | ascFin c dst dcap =>
    rcases execAscFin_cases h with ⟨e, he, rfl⟩ | ⟨-, -, -, hn, hr, rfl⟩
    · exact .early_of_mem he (by decide)
    · exact .writes _ dst dcap _ rfl hr (by simpa using hn) ⟨rfl, rfl, rfl⟩
        (by simp [Instr.mayFailLate])
  | ascVfy c src slen =>
    rcases execAscVfy_cases h with ⟨e, he, rfl⟩ | ⟨-, -, -, -, -, rfl⟩
    · exact .early_of_mem he (by decide)
    · exact .quiet _ _ rfl ⟨rfl, rfl, rfl⟩
  | ascEncsz c slen =>
    rcases execAscEncsz_cases h with ⟨e, he, rfl⟩ | ⟨-, -, rfl⟩
    · exact .early_of_mem he (by decide)
    · exact .quiet _ _ rfl ⟨rfl, rfl, rfl⟩
  | ascClone c d =>
    rcases execAscClone_cases h with ⟨e, he, rfl⟩ | ⟨-, -, -, rfl⟩
    · exact .early_of_mem he (by decide)
    · exact .quiet _ _ rfl ⟨rfl, rfl, rfl⟩
  | ashInitHash c =>
    rcases execAshInitHash_cases h with ⟨e, he, rfl⟩ | ⟨-, rfl⟩
    · exact .early_of_mem he (by decide)
    · exact .quiet _ _ rfl ⟨rfl, rfl, rfl⟩
  | ashInitXof c imm =>
    rcases execAshInitXof_cases h with ⟨e, he, rfl⟩ | ⟨-, rfl⟩
    · exact .early_of_mem he (by decide)
    · exact .quiet _ _ rfl ⟨rfl, rfl, rfl⟩
  | ashWrite c src slen =>
    rcases execAshWrite_cases h with ⟨e, he, rfl⟩ | ⟨-, -, -, rfl⟩
    · exact .early_of_mem he (by decide)
    · exact .quiet _ _ rfl ⟨rfl, rfl, rfl⟩
  | ashSumin c dst dcap =>
    rcases execAshSumin_cases h with ⟨e, he, rfl⟩ | ⟨-, -, hn, hr, rfl⟩
    · exact .early_of_mem he (by decide)
    · exact .writes _ dst dcap _ rfl hr (by simpa using hn) ⟨rfl, rfl, rfl⟩
        (by simp [Instr.mayFailLate])
  | ashSum c dst dcap =>
    rcases execAshSum_cases h with ⟨e, he, rfl⟩ | ⟨-, -, hn, hr, rfl⟩
    · exact .early_of_mem he (by decide)
    · exact .writes _ dst dcap _ rfl hr (by simpa using hn) ⟨rfl, rfl, rfl⟩
        (by simp [Instr.mayFailLate])
  | ashClone c d =>
    rcases execAshClone_cases h with ⟨e, he, rfl⟩ | ⟨-, -, -, rfl⟩
    · exact .early_of_mem he (by decide)
    · exact .quiet _ _ rfl ⟨rfl, rfl, rfl⟩

end Sys2Proof.Machine
end

