-- ==== Sys2Proof/Laws/PerInstr.lean ====
section
/-! SUPPORT. The header word of every command: the fields that `header` puts together read back
(30_encoding.md R91), and, per command, that its encoding has `RSV` 0 and carries exactly the context
numbers the command names. -/

namespace Sys2Proof

/-! ### Fields of a header word (R91) -/

theorem header_toNat {unit op var : Nat} (c d : Ctx) (hu : unit < 16) (ho : op < 16)
    (hv : var < 256) :
    (header unit op c d var).toNat =
      unit * 2 ^ 28 + op * 2 ^ 24 + c.toNat * 2 ^ 20 + d.toNat * 2 ^ 16 + var * 2 ^ 8 := by
  have := c.isLt
  have := d.isLt
  simp only [header, BitVec.toNat_ofNat]
  omega

section Fields

variable {unit op var : Nat} (c d : Ctx) (w1 w2 w3 w4 w5 : Word)

theorem header_unit (hu : unit < 16) (ho : op < 16) (hv : var < 256) :
    (Descriptor.mk (header unit op c d var) w1 w2 w3 w4 w5).unit = unit := by
  have := c.isLt
  have := d.isLt
  simp only [Descriptor.unit, Word.bits, header_toNat c d hu ho hv]
  omega

theorem header_op (hu : unit < 16) (ho : op < 16) (hv : var < 256) :
    (Descriptor.mk (header unit op c d var) w1 w2 w3 w4 w5).op = op := by
  have := c.isLt
  have := d.isLt
  simp only [Descriptor.op, Word.bits, header_toNat c d hu ho hv]
  omega

theorem header_ctx (hu : unit < 16) (ho : op < 16) (hv : var < 256) :
    (Descriptor.mk (header unit op c d var) w1 w2 w3 w4 w5).ctx = c := by
  have := c.isLt
  have := d.isLt
  apply BitVec.eq_of_toNat_eq
  simp only [Descriptor.ctx, Word.bits, header_toNat c d hu ho hv, BitVec.toNat_ofNat]
  omega

theorem header_ctx2 (hu : unit < 16) (ho : op < 16) (hv : var < 256) :
    (Descriptor.mk (header unit op c d var) w1 w2 w3 w4 w5).ctx2 = d := by
  have := c.isLt
  have := d.isLt
  apply BitVec.eq_of_toNat_eq
  simp only [Descriptor.ctx2, Word.bits, header_toNat c d hu ho hv, BitVec.toNat_ofNat]
  omega

theorem header_var (hu : unit < 16) (ho : op < 16) (hv : var < 256) :
    (Descriptor.mk (header unit op c d var) w1 w2 w3 w4 w5).var = var := by
  have := c.isLt
  have := d.isLt
  simp only [Descriptor.var, Word.bits, header_toNat c d hu ho hv]
  omega

theorem header_rsv (hu : unit < 16) (ho : op < 16) (hv : var < 256) :
    (Descriptor.mk (header unit op c d var) w1 w2 w3 w4 w5).rsv = 0 := by
  simp only [Descriptor.rsv, Word.bits, header_toNat c d hu ho hv]
  omega

end Fields

theorem Scheme.code_lt (sch : Scheme) : sch.code < 256 := by cases sch <;> decide

/-! ### Per command -/

namespace Laws.EncodedHeader

/-- The encoding of a command has `RSV` 0, and its fields `CTX` and `CTX2` are the context numbers the
command names, 0 where it names none (R92, R93, R95). -/
def Statement (i : Instr) : Prop :=
  (encode i).rsv = 0 ∧
    match i.contexts with
    | [] => (encode i).ctx = 0 ∧ (encode i).ctx2 = 0
    | [c] => (encode i).ctx = c ∧ (encode i).ctx2 = 0
    | [c, d] => (encode i).ctx = c ∧ (encode i).ctx2 = d
    | _ => False

/-- A header in range with the contexts a command names, whatever the other words. -/
theorem fields {unit op var : Nat} (c d : Ctx) (w1 w2 w3 w4 w5 : Word) (hu : unit < 16)
    (ho : op < 16) (hv : var < 256) :
    (Descriptor.mk (header unit op c d var) w1 w2 w3 w4 w5).rsv = 0 ∧
      (Descriptor.mk (header unit op c d var) w1 w2 w3 w4 w5).ctx = c ∧
      (Descriptor.mk (header unit op c d var) w1 w2 w3 w4 w5).ctx2 = d :=
  ⟨header_rsv c d w1 w2 w3 w4 w5 hu ho hv, header_ctx c d w1 w2 w3 w4 w5 hu ho hv,
    header_ctx2 c d w1 w2 w3 w4 w5 hu ho hv⟩

theorem padszZ (slen imm : Word) : Statement (.padszZ slen imm) :=
  fields _ _ _ _ _ _ _ (by decide) (by decide) (by decide)
theorem padszP7 (slen imm : Word) : Statement (.padszP7 slen imm) :=
  fields _ _ _ _ _ _ _ (by decide) (by decide) (by decide)
theorem padszI4 (slen imm : Word) : Statement (.padszI4 slen imm) :=
  fields _ _ _ _ _ _ _ (by decide) (by decide) (by decide)
theorem padZ (src slen dst dcap imm : Word) : Statement (.padZ src slen dst dcap imm) :=
  fields _ _ _ _ _ _ _ (by decide) (by decide) (by decide)
theorem padP7 (src slen dst dcap imm : Word) : Statement (.padP7 src slen dst dcap imm) :=
  fields _ _ _ _ _ _ _ (by decide) (by decide) (by decide)
theorem padI4 (src slen dst dcap imm : Word) : Statement (.padI4 src slen dst dcap imm) :=
  fields _ _ _ _ _ _ _ (by decide) (by decide) (by decide)
theorem unpadZ (src slen dst dcap : Word) : Statement (.unpadZ src slen dst dcap) :=
  fields _ _ _ _ _ _ _ (by decide) (by decide) (by decide)
theorem unpadP7 (src slen dst dcap : Word) : Statement (.unpadP7 src slen dst dcap) :=
  fields _ _ _ _ _ _ _ (by decide) (by decide) (by decide)
theorem unpadI4 (src slen dst dcap : Word) : Statement (.unpadI4 src slen dst dcap) :=
  fields _ _ _ _ _ _ _ (by decide) (by decide) (by decide)
theorem cbcInit (c : Ctx) (scheme : Scheme) (src slen : Word) :
    Statement (.cbcInit c scheme src slen) :=
  fields _ _ _ _ _ _ _ (by decide) (by decide) scheme.code_lt
theorem cbcEncsz (c : Ctx) (slen : Word) : Statement (.cbcEncsz c slen) :=
  fields _ _ _ _ _ _ _ (by decide) (by decide) (by decide)
theorem cbcEnc (c : Ctx) (src slen dst dcap : Word) : Statement (.cbcEnc c src slen dst dcap) :=
  fields _ _ _ _ _ _ _ (by decide) (by decide) (by decide)
theorem cbcDec (c : Ctx) (src slen dst dcap : Word) : Statement (.cbcDec c src slen dst dcap) :=
  fields _ _ _ _ _ _ _ (by decide) (by decide) (by decide)
theorem p13Init (c : Ctx) (src slen : Word) : Statement (.p13Init c src slen) :=
  fields _ _ _ _ _ _ _ (by decide) (by decide) (by decide)
theorem p13Initsc (c h : Ctx) : Statement (.p13Initsc c h) :=
  fields _ _ _ _ _ _ _ (by decide) (by decide) (by decide)
theorem p13Write (c : Ctx) (src slen : Word) : Statement (.p13Write c src slen) :=
  fields _ _ _ _ _ _ _ (by decide) (by decide) (by decide)
theorem p13Sumin (c : Ctx) (dst dcap : Word) : Statement (.p13Sumin c dst dcap) :=
  fields _ _ _ _ _ _ _ (by decide) (by decide) (by decide)
theorem p13Sum (c : Ctx) (dst dcap : Word) : Statement (.p13Sum c dst dcap) :=
  fields _ _ _ _ _ _ _ (by decide) (by decide) (by decide)
theorem p13Clone (c d : Ctx) : Statement (.p13Clone c d) :=
  fields _ _ _ _ _ _ _ (by decide) (by decide) (by decide)
theorem scInitCc20 (h : Ctx) (src slen : Word) : Statement (.scInitCc20 h src slen) :=
  fields _ _ _ _ _ _ _ (by decide) (by decide) (by decide)
theorem scInitSs20 (h : Ctx) (src slen : Word) : Statement (.scInitSs20 h src slen) :=
  fields _ _ _ _ _ _ _ (by decide) (by decide) (by decide)
theorem scInitXcc20 (h : Ctx) (src slen : Word) : Statement (.scInitXcc20 h src slen) :=
  fields _ _ _ _ _ _ _ (by decide) (by decide) (by decide)
theorem scInitXss20 (h : Ctx) (src slen : Word) : Statement (.scInitXss20 h src slen) :=
  fields _ _ _ _ _ _ _ (by decide) (by decide) (by decide)
theorem aeadInit (c h : Ctx) : Statement (.aeadInit c h) :=
  fields _ _ _ _ _ _ _ (by decide) (by decide) (by decide)
theorem aeadWrad (c : Ctx) (src slen : Word) : Statement (.aeadWrad c src slen) :=
  fields _ _ _ _ _ _ _ (by decide) (by decide) (by decide)
theorem aeadEnc (c : Ctx) (src slen dst dcap : Word) : Statement (.aeadEnc c src slen dst dcap) :=
  fields _ _ _ _ _ _ _ (by decide) (by decide) (by decide)
theorem aeadDec (c : Ctx) (src slen dst dcap : Word) : Statement (.aeadDec c src slen dst dcap) :=
  fields _ _ _ _ _ _ _ (by decide) (by decide) (by decide)
theorem aeadFin (c : Ctx) (dst dcap : Word) : Statement (.aeadFin c dst dcap) :=
  fields _ _ _ _ _ _ _ (by decide) (by decide) (by decide)
theorem aeadVfy (c : Ctx) (src slen : Word) : Statement (.aeadVfy c src slen) :=
  fields _ _ _ _ _ _ _ (by decide) (by decide) (by decide)
theorem aeadEncsz (c : Ctx) (slen : Word) : Statement (.aeadEncsz c slen) :=
  fields _ _ _ _ _ _ _ (by decide) (by decide) (by decide)
theorem ascInit128 (c : Ctx) (src slen : Word) : Statement (.ascInit128 c src slen) :=
  fields _ _ _ _ _ _ _ (by decide) (by decide) (by decide)
theorem ascInit128a (c : Ctx) (src slen : Word) : Statement (.ascInit128a c src slen) :=
  fields _ _ _ _ _ _ _ (by decide) (by decide) (by decide)
theorem ascInit80pq (c : Ctx) (src slen : Word) : Statement (.ascInit80pq c src slen) :=
  fields _ _ _ _ _ _ _ (by decide) (by decide) (by decide)
theorem ascWrad (c : Ctx) (src slen : Word) : Statement (.ascWrad c src slen) :=
  fields _ _ _ _ _ _ _ (by decide) (by decide) (by decide)
theorem ascEnc (c : Ctx) (src slen dst dcap : Word) : Statement (.ascEnc c src slen dst dcap) :=
  fields _ _ _ _ _ _ _ (by decide) (by decide) (by decide)
theorem ascDec (c : Ctx) (src slen dst dcap : Word) : Statement (.ascDec c src slen dst dcap) :=
  fields _ _ _ _ _ _ _ (by decide) (by decide) (by decide)
theorem ascFin (c : Ctx) (dst dcap : Word) : Statement (.ascFin c dst dcap) :=
  fields _ _ _ _ _ _ _ (by decide) (by decide) (by decide)
theorem ascVfy (c : Ctx) (src slen : Word) : Statement (.ascVfy c src slen) :=
  fields _ _ _ _ _ _ _ (by decide) (by decide) (by decide)
theorem ascEncsz (c : Ctx) (slen : Word) : Statement (.ascEncsz c slen) :=
  fields _ _ _ _ _ _ _ (by decide) (by decide) (by decide)
theorem ascClone (c d : Ctx) : Statement (.ascClone c d) :=
  fields _ _ _ _ _ _ _ (by decide) (by decide) (by decide)
theorem ashInitHash (c : Ctx) : Statement (.ashInitHash c) :=
  fields _ _ _ _ _ _ _ (by decide) (by decide) (by decide)
theorem ashInitXof (c : Ctx) (imm : Word) : Statement (.ashInitXof c imm) :=
  fields _ _ _ _ _ _ _ (by decide) (by decide) (by decide)
theorem ashWrite (c : Ctx) (src slen : Word) : Statement (.ashWrite c src slen) :=
  fields _ _ _ _ _ _ _ (by decide) (by decide) (by decide)
theorem ashSumin (c : Ctx) (dst dcap : Word) : Statement (.ashSumin c dst dcap) :=
  fields _ _ _ _ _ _ _ (by decide) (by decide) (by decide)
theorem ashSum (c : Ctx) (dst dcap : Word) : Statement (.ashSum c dst dcap) :=
  fields _ _ _ _ _ _ _ (by decide) (by decide) (by decide)
theorem ashClone (c d : Ctx) : Statement (.ashClone c d) :=
  fields _ _ _ _ _ _ _ (by decide) (by decide) (by decide)

end Laws.EncodedHeader

end Sys2Proof
end

