-- ==== Sys2Proof/Laws/Step.lean ====
section
/-! SUPPORT. All a step can do, said once. -/

namespace Sys2Proof.Machine

/-- Everything a step can do, by the act of the host it takes. -/
theorem step_cases {s t : State} (h : step s = .next t) :
    (s.inputs = [] ∧ t = s) ∨
    (∃ d rest i, s.inputs = .command d :: rest ∧ decode d = .ok i ∧
      exec i (s.withInputs rest) = .next t) ∨
    (∃ d rest e, s.inputs = .command d :: rest ∧ decode d = .error e ∧
      t = (s.withInputs rest).raise .illegal) ∨
    (∃ addr data rest, s.inputs = .write addr data :: rest ∧
      (data = [] ∨ addr.toNat + data.length ≤ s.par.memSize) ∧
      t = (s.withInputs rest).writeBytes addr data) ∨
    (∃ rest, s.inputs = .reset :: rest ∧ t = (s.withInputs rest).platformReset) := by
  unfold step at h
  split at h
  · rename_i hi
    exact .inl ⟨hi, by simpa using h.symm⟩
  · rename_i d rest hi
    split at h
    · rename_i i hd
      exact .inr (.inl ⟨d, rest, i, hi, hd, h⟩)
    · rename_i e hd
      exact .inr (.inr (.inl ⟨d, rest, e, hi, hd, by simpa [State.rejectDescriptor] using h.symm⟩))
  · rename_i addr data rest hi
    rw [State.hostWrite_eq] at h
    split at h
    · rename_i hr
      exact .inr (.inr (.inr (.inl ⟨addr, data, rest, hi, hr, by simpa using h.symm⟩)))
    · cases h
  · rename_i rest hi
    exact .inr (.inr (.inr (.inr ⟨rest, hi, by simpa using h.symm⟩)))

end Sys2Proof.Machine
end

