-- ==== Sys2Proof/Tests/Slice0.lean ====
section
/-! SUPPORT. The model's own tests: the well-formedness smoke, words written out from the encoding
rules, single commands on small states, and, at the end, a state and operands that meet the hypotheses
of each statement that has some. Expected values come from 95_test_vectors.md, section and line named. -/

namespace Sys2Proof.Tests

open Sys2Proof.Machine

/-! ### Helpers -/

/-- Consecutive numbers as bytes. -/
def iota (n : Nat) : List Byte := (List.range n).map (BitVec.ofNat 8)

/-- An outcome's response, `STATUS` and `RESULT`; none for a stop. -/
def response : Host.Outcome State Fault Refusal → Option (Nat × Nat)
  | .next t => some (t.status.toNat, t.result.toNat)
  | .fault _ => none
  | .refused _ => none

/-- An outcome's response, and `n` bytes of its memory from `a` on. -/
def responseAnd (a : Word) (n : Nat) :
    Host.Outcome State Fault Refusal → Option (Nat × Nat × List Byte)
  | .next t => some (t.status.toNat, t.result.toNat, t.readBytes a n)
  | .fault _ => none
  | .refused _ => none

/-- The reset state with `X` at address 0 and `0xee` in the 16 bytes from 0x40 on. -/
def holding (X : List Byte) : State :=
  (State.reset.writeBytes 0 X).writeBytes 0x40 (List.replicate 16 0xee)

/-- A live instance of the ChaCha20 core. -/
def core0 : Sigma := scFresh .chacha20 (iota 32) (iota 12)

/-- A live instance in context 0 of every unit (stage Init), handle 0 too, and the 64 bytes at address 0
written. -/
def live : State where
  status := 0
  result := 0
  mem := ⟨(List.range 64).map fun i => (i, BitVec.ofNat 8 i)⟩
  cbc := setSlot (Vector.replicate 16 CbcCtx.blank) 0 ⟨true, .pkcs7, iota 4⟩
  p13 := setSlot (Vector.replicate 16 P13State.blank) 0
    (P13State.load (iota 32) (Vector.replicate 16 0))
  sc := setSlot (Vector.replicate 16 ScCtx.blank) 0 ⟨true, .chacha20, core0⟩
  aead := setSlot (Vector.replicate 16 AeadCtx.blank) 0
    ⟨true, .chacha20, core0, P13State.load (iota 32) (Vector.replicate 16 0), .init, 0, 0⟩
  asc := setSlot (Vector.replicate 16 AscCtx.blank) 0
    ⟨true, .ascon128, Vector.replicate 40 0, 0, .init, false, iota 16⟩
  ash := setSlot (Vector.replicate 16 AshCtx.blank) 0
    ⟨true, .hash, Vector.replicate 40 0, 0, 32⟩
  par := Config.params
  inputs := []
  fresh := 0

/-- `live` with the AEAD and Ascon contexts 0 in a stage. -/
def liveIn (g : Stage) : State :=
  (live.setAead 0 { live.aeadAt 0 with stage := g }).setAsc 0 { live.ascAt 0 with stage := g }

/-- `live` with a CBC context 0 of another scheme. -/
def liveCbc (sch : Scheme) : State := live.setCbc 0 ⟨true, sch, iota 4⟩

/-! ### Well-formedness (R93, R95 step (4)) -/

theorem test_context_below_nctx_is_well_formed : (Instr.p13Write 3 0 0).wellFormed 4 = true := by decide
theorem test_context_at_nctx_is_ill_formed : (Instr.p13Write 4 0 0).wellFormed 4 = false := by decide
theorem test_second_context_at_nctx_is_ill_formed :
    (Instr.p13Clone 0 4).wellFormed 4 = false ∧ (Instr.aeadInit 0 15).wellFormed 4 = false := by decide
theorem test_command_without_context_is_well_formed :
    (Instr.padszZ 0 0).wellFormed 1 = true := by decide

/-! ### Decoding: words written out from 30_encoding.md R91, R92 and R94 -/

theorem test_decode_padsz :
    decode ⟨0x10000000, 0, 5, 0, 0, 8⟩ = .ok (.padszZ 5 8) ∧
    decode ⟨0x10000100, 0, 5, 0, 0, 8⟩ = .ok (.padszP7 5 8) ∧
    decode ⟨0x10000200, 0, 5, 0, 0, 8⟩ = .ok (.padszI4 5 8) := by decide
theorem test_decode_pad :
    decode ⟨0x11000000, 1, 2, 3, 4, 5⟩ = .ok (.padZ 1 2 3 4 5) ∧
    decode ⟨0x11000100, 1, 2, 3, 4, 5⟩ = .ok (.padP7 1 2 3 4 5) ∧
    decode ⟨0x11000200, 1, 2, 3, 4, 5⟩ = .ok (.padI4 1 2 3 4 5) := by decide
theorem test_decode_unpad :
    decode ⟨0x12000000, 1, 2, 3, 4, 0⟩ = .ok (.unpadZ 1 2 3 4) ∧
    decode ⟨0x12000100, 1, 2, 3, 4, 0⟩ = .ok (.unpadP7 1 2 3 4) ∧
    decode ⟨0x12000200, 1, 2, 3, 4, 0⟩ = .ok (.unpadI4 1 2 3 4) := by decide
theorem test_decode_cbc :
    decode ⟨0x20300000, 1, 2, 0, 0, 0⟩ = .ok (.cbcInit 3 .zero 1 2) ∧
    decode ⟨0x20300100, 1, 2, 0, 0, 0⟩ = .ok (.cbcInit 3 .pkcs7 1 2) ∧
    decode ⟨0x20300200, 1, 2, 0, 0, 0⟩ = .ok (.cbcInit 3 .iso7816 1 2) ∧
    decode ⟨0x21300000, 0, 2, 0, 0, 0⟩ = .ok (.cbcEncsz 3 2) ∧
    decode ⟨0x22300000, 1, 2, 3, 4, 0⟩ = .ok (.cbcEnc 3 1 2 3 4) ∧
    decode ⟨0x23300000, 1, 2, 3, 4, 0⟩ = .ok (.cbcDec 3 1 2 3 4) := by decide
theorem test_decode_p13 :
    decode ⟨0x30300000, 1, 2, 0, 0, 0⟩ = .ok (.p13Init 3 1 2) ∧
    decode ⟨0x31320000, 0, 0, 0, 0, 0⟩ = .ok (.p13Initsc 3 2) ∧
    decode ⟨0x32300000, 1, 2, 0, 0, 0⟩ = .ok (.p13Write 3 1 2) ∧
    decode ⟨0x33300000, 0, 0, 3, 4, 0⟩ = .ok (.p13Sumin 3 3 4) ∧
    decode ⟨0x34300000, 0, 0, 3, 4, 0⟩ = .ok (.p13Sum 3 3 4) ∧
    decode ⟨0x35320000, 0, 0, 0, 0, 0⟩ = .ok (.p13Clone 3 2) := by decide
theorem test_decode_sc :
    decode ⟨0x40300000, 1, 2, 0, 0, 0⟩ = .ok (.scInitCc20 3 1 2) ∧
    decode ⟨0x40300100, 1, 2, 0, 0, 0⟩ = .ok (.scInitSs20 3 1 2) ∧
    decode ⟨0x40300200, 1, 2, 0, 0, 0⟩ = .ok (.scInitXcc20 3 1 2) ∧
    decode ⟨0x40300300, 1, 2, 0, 0, 0⟩ = .ok (.scInitXss20 3 1 2) := by decide
theorem test_decode_aead :
    decode ⟨0x50320000, 0, 0, 0, 0, 0⟩ = .ok (.aeadInit 3 2) ∧
    decode ⟨0x51300000, 1, 2, 0, 0, 0⟩ = .ok (.aeadWrad 3 1 2) ∧
    decode ⟨0x52300000, 1, 2, 3, 4, 0⟩ = .ok (.aeadEnc 3 1 2 3 4) ∧
    decode ⟨0x53300000, 1, 2, 3, 4, 0⟩ = .ok (.aeadDec 3 1 2 3 4) ∧
    decode ⟨0x54300000, 0, 0, 3, 4, 0⟩ = .ok (.aeadFin 3 3 4) ∧
    decode ⟨0x55300000, 1, 2, 0, 0, 0⟩ = .ok (.aeadVfy 3 1 2) ∧
    decode ⟨0x56300000, 0, 2, 0, 0, 0⟩ = .ok (.aeadEncsz 3 2) := by decide
theorem test_decode_asc :
    decode ⟨0x60300000, 1, 2, 0, 0, 0⟩ = .ok (.ascInit128 3 1 2) ∧
    decode ⟨0x60300100, 1, 2, 0, 0, 0⟩ = .ok (.ascInit128a 3 1 2) ∧
    decode ⟨0x60300200, 1, 2, 0, 0, 0⟩ = .ok (.ascInit80pq 3 1 2) ∧
    decode ⟨0x61300000, 1, 2, 0, 0, 0⟩ = .ok (.ascWrad 3 1 2) ∧
    decode ⟨0x62300000, 1, 2, 3, 4, 0⟩ = .ok (.ascEnc 3 1 2 3 4) ∧
    decode ⟨0x63300000, 1, 2, 3, 4, 0⟩ = .ok (.ascDec 3 1 2 3 4) ∧
    decode ⟨0x64300000, 0, 0, 3, 4, 0⟩ = .ok (.ascFin 3 3 4) ∧
    decode ⟨0x65300000, 1, 2, 0, 0, 0⟩ = .ok (.ascVfy 3 1 2) ∧
    decode ⟨0x66300000, 0, 2, 0, 0, 0⟩ = .ok (.ascEncsz 3 2) ∧
    decode ⟨0x67320000, 0, 0, 0, 0, 0⟩ = .ok (.ascClone 3 2) := by decide
theorem test_decode_ash :
    decode ⟨0x70300000, 0, 0, 0, 0, 0⟩ = .ok (.ashInitHash 3) ∧
    decode ⟨0x70300100, 0, 0, 0, 0, 5⟩ = .ok (.ashInitXof 3 5) ∧
    decode ⟨0x71300000, 1, 2, 0, 0, 0⟩ = .ok (.ashWrite 3 1 2) ∧
    decode ⟨0x72300000, 0, 0, 3, 4, 0⟩ = .ok (.ashSumin 3 3 4) ∧
    decode ⟨0x73300000, 0, 0, 3, 4, 0⟩ = .ok (.ashSum 3 3 4) ∧
    decode ⟨0x74320000, 0, 0, 0, 0, 0⟩ = .ok (.ashClone 3 2) := by decide
/-- R96: the all-zero and the all-one first word, a reserved unit, `RSV`, and an unused field. -/
theorem test_decode_refuses_by_name :
    decode ⟨0, 0, 0, 0, 0, 0⟩ = .error .noSuchCommand ∧
    decode ⟨0xffffffff, 0, 0, 0, 0, 0⟩ = .error .reservedBits ∧
    decode ⟨0x80000000, 0, 0, 0, 0, 0⟩ = .error .noSuchCommand ∧
    decode ⟨0x10000001, 0, 0, 0, 0, 0⟩ = .error .reservedBits ∧
    decode ⟨0x20000300, 0, 0, 0, 0, 0⟩ = .error .noSuchCommand ∧
    decode ⟨0x10000000, 1, 0, 0, 0, 0⟩ = .error .unusedField ∧
    decode ⟨0x32010000, 0, 0, 0, 0, 0⟩ = .error .unusedField := by decide

/-! ### PAD (95_test_vectors.md section 2.1) -/

theorem test_padsz :
    response (execPadszZ 5 8 State.reset) = some (0, 8) ∧
    response (execPadszZ 8 8 State.reset) = some (0, 0) ∧
    response (execPadszZ 9 8 State.reset) = some (5, 0) ∧
    response (execPadszP7 9 8 State.reset) = some (0, 8) ∧
    response (execPadszI4 3 256 State.reset) = some (5, 0) ∧
    response (execPadszI4 3 255 State.reset) = some (0, 255) := by decide
theorem test_pad :
    responseAnd 0x40 9 (execPadZ 0 3 0x40 8 8 (holding [0xaa, 0xbb, 0xcc])) =
      some (0, 8, [0xaa, 0xbb, 0xcc, 0, 0, 0, 0, 0, 0xee]) ∧
    responseAnd 0x40 9 (execPadP7 0 3 0x40 8 8 (holding [0xaa, 0xbb, 0xcc])) =
      some (0, 8, [0xaa, 0xbb, 0xcc, 5, 5, 5, 5, 5, 0xee]) ∧
    responseAnd 0x40 9 (execPadI4 0 3 0x40 8 8 (holding [0xaa, 0xbb, 0xcc])) =
      some (0, 8, [0xaa, 0xbb, 0xcc, 0x80, 0, 0, 0, 0, 0xee]) ∧
    response (execPadZ 0 3 0x40 7 8 (holding [0xaa, 0xbb, 0xcc])) = some (5, 0) ∧
    response (execPadZ 0 3 0x40 8 0 (holding [0xaa, 0xbb, 0xcc])) = some (5, 0) ∧
    response (execPadP7 0 8 0x40 8 8 (holding (iota 8))) = some (5, 0) := by decide
theorem test_unpad :
    responseAnd 0x40 4 (execUnpadZ 0 8 0x40 8 (holding [0xaa, 0xbb, 0xcc, 0, 0, 0, 0, 0])) =
      some (0, 3, [0xaa, 0xbb, 0xcc, 0xee]) ∧
    responseAnd 0x40 4 (execUnpadP7 0 8 0x40 8 (holding [0xaa, 0xbb, 0xcc, 5, 5, 5, 5, 5])) =
      some (0, 3, [0xaa, 0xbb, 0xcc, 0xee]) ∧
    responseAnd 0x40 5 (execUnpadI4 0 8 0x40 8 (holding [0xaa, 0xbb, 0x80, 0xcc, 0x80, 0, 0, 0])) =
      some (0, 4, [0xaa, 0xbb, 0x80, 0xcc, 0xee]) ∧
    response (execUnpadP7 0 8 0x40 8 (holding [0xaa, 0xbb, 0xcc, 5, 5, 5, 4, 5])) = some (4, 0) ∧
    response (execUnpadI4 0 8 0x40 8 (holding [0xaa, 0xbb, 0xcc, 0x81, 0, 0, 0, 0])) =
      some (4, 0) ∧
    response (execUnpadP7 0 8 0x40 2 (holding [0xaa, 0xbb, 0xcc, 5, 5, 5, 5, 5])) =
      some (5, 0) := by decide

/-! ### CBC (section 2.2): the toy cipher of the test bench in place of the port -/

/-- `TOY4`, encryption. -/
def toyEnc (B : List Byte) : List Byte := xorBytes (B.drop 1 ++ B.take 1) [0x1b, 0x2c, 0x3d, 0x4e]
/-- `TOY4`, decryption. -/
def toyDec (B : List Byte) : List Byte :=
  let T := xorBytes B [0x1b, 0x2c, 0x3d, 0x4e]
  T.drop 3 ++ T.take 3

theorem test_cbc_encrypts_six_bytes :
    cbcEncrypt toyEnc 4 .zero [1, 2, 3, 4] [0x10, 0x11, 0x12, 0x13, 0x14, 0x15] =
      [0x08, 0x3d, 0x2a, 0x5f, 0x33, 0x06, 0x62, 0x52] ∧
    cbcEncrypt toyEnc 4 .pkcs7 [1, 2, 3, 4] [0x10, 0x11, 0x12, 0x13, 0x14, 0x15] =
      [0x08, 0x3d, 0x2a, 0x5f, 0x33, 0x04, 0x60, 0x52] ∧
    cbcEncrypt toyEnc 4 .iso7816 [1, 2, 3, 4] [0x10, 0x11, 0x12, 0x13, 0x14, 0x15] =
      [0x08, 0x3d, 0x2a, 0x5f, 0x33, 0x86, 0x62, 0x52] := by decide
theorem test_cbc_decrypts_and_finds_bad_padding :
    cbcDecrypt toyDec 4 .pkcs7 [1, 2, 3, 4] [0x08, 0x3d, 0x2a, 0x5f, 0x33, 0x04, 0x60, 0x52] =
      some [0x10, 0x11, 0x12, 0x13, 0x14, 0x15] ∧
    cbcDecrypt toyDec 4 .pkcs7 [1, 2, 3, 4] [0x08, 0x3d, 0x2b, 0x5f, 0x33, 0x04, 0x60, 0x52] =
      none ∧
    cbcDecrypt toyDec 4 .zero [1, 2, 3, 4] [0x08, 0x3d, 0x39, 0x5f] = some [0x10, 0x11, 0x12] ∧
    cbcDecrypt toyDec 4 .pkcs7 [1, 2, 3, 4] [] = some [] := by decide
theorem test_cbc_encsz :
    response (execCbcEncsz 0 0xfffffffb live) = some (0, 4294967292) ∧
    response (execCbcEncsz 0 0xfffffffc live) = some (5, 0) ∧
    response (execCbcEncsz 0 0xfffffffc (liveCbc .zero)) = some (0, 4294967292) ∧
    response (execCbcEncsz 0 0xfffffffd (liveCbc .zero)) = some (5, 0) := by decide
theorem test_cbc_responses :
    response (execCbcInit 0 .pkcs7 0 3 live) = some (2, 0) ∧
    response (execCbcInit 0 .pkcs7 0 4 live) = some (0, 0) ∧
    response (execCbcEnc 2 0 6 0x40 8 live) = some (3, 0) ∧
    response (execCbcEnc 0 0 6 0x40 7 live) = some (5, 0) ∧
    response (execCbcEnc 0 0 6 2 8 live) = some (6, 0) ∧
    response (execCbcEnc 0 0 6 0 8 live) = some (0, 8) ∧
    response (execCbcDec 0 0 7 0x40 8 live) = some (5, 0) ∧
    response (execCbcDec 0 0 8 0x40 3 live) = some (5, 0) ∧
    response (execCbcDec 0 0xfffc 8 0x40 8 live) = some (5, 0) ∧
    response (execCbcDec 0 0 0 0x40 8 live) = some (0, 0) := by decide

/-! ### P13 (section 2.3) -/

/-- The key of vector V1. -/
def keyV1 : List Byte :=
  [0x85, 0xd6, 0xbe, 0x78, 0x57, 0x55, 0x6d, 0x33, 0x7f, 0x44, 0x52, 0xfe, 0x42, 0xd5, 0x06, 0xa8,
    0x01, 0x03, 0x80, 0x8a, 0xfb, 0x0d, 0xb2, 0xfd, 0x4a, 0xbf, 0xf6, 0xaf, 0x41, 0x49, 0xf5, 0x1b]
/-- The message of vector V1. -/
def messageV1 : List Byte :=
  [0x43, 0x72, 0x79, 0x70, 0x74, 0x6f, 0x67, 0x72, 0x61, 0x70, 0x68, 0x69, 0x63, 0x20, 0x46, 0x6f,
    0x72, 0x75, 0x6d, 0x20, 0x52, 0x65, 0x73, 0x65, 0x61, 0x72, 0x63, 0x68, 0x20, 0x47, 0x72, 0x6f,
    0x75, 0x70]

theorem test_p13_limbs_before_final_V1 :
    limbs ((P13State.load keyV1 (Vector.replicate 16 0x5a)).write messageV1).a =
      [0x10de, 0x0259, 0x1a8d, 0x1f69, 0x1ccc, 0x1fd3, 0x00cd, 0x0476, 0x0daf, 0x16c5] := by
  decide +kernel
theorem test_p13_tag_V1 :
    ((P13State.load keyV1 (Vector.replicate 16 0x5a)).write messageV1).final =
      [0xa8, 0x06, 0x1d, 0xc1, 0x30, 0x51, 0x36, 0xc6, 0xc2, 0x2b, 0x8b, 0xaf, 0x0c, 0x01, 0x27,
        0xa9] := by decide +kernel
theorem test_p13_tag_selects_reduced_V5 :
    ((P13State.load (1 :: zeros 31) (Vector.replicate 16 0x5a)).write
      (List.replicate 16 0xff ++ 0xfc :: List.replicate 15 0xff)).final = zeros 16 := by
  decide +kernel
theorem test_p13_responses :
    response (execP13Init 0 0 31 live) = some (2, 0) ∧
    response (execP13Init 1 0 32 live) = some (0, 0) ∧
    response (execP13Initsc 1 0 live) = some (0, 0) ∧
    response (execP13Initsc 1 1 live) = some (3, 0) ∧
    response (execP13Write 1 0 4 live) = some (3, 0) ∧
    response (execP13Write 0 0xffffffff 0 live) = some (0, 0) ∧
    response (execP13Sum 0 0x200 15 live) = some (5, 0) ∧
    responseAnd 0x200 16 (execP13Sum 0 0x200 32 live) = some (0, 16, (iota 32).drop 16) ∧
    responseAnd 0x200 16 (execP13Sumin 0 0x200 16 live) = some (0, 16, (iota 32).drop 16) ∧
    response (execP13Clone 0 3 live) = some (0, 0) ∧
    response (execP13Clone 1 3 live) = some (3, 0) := by decide +kernel

/-! ### SC and AEAD (section 2.4) -/

/-- The one-time key of section 1.2. -/
def oneTimeKey : List Byte :=
  [0x7b, 0xac, 0x2b, 0x25, 0x2d, 0xb4, 0x47, 0xaf, 0x09, 0xb6, 0x7a, 0x55, 0xa4, 0xe9, 0x55, 0x84,
    0x0a, 0xe1, 0xd6, 0x73, 0x10, 0x75, 0xd9, 0xeb, 0x2a, 0x93, 0x75, 0x78, 0x3e, 0xd5, 0x53, 0xff]
/-- A fresh composer under the one-time key of section 1.2. -/
def composer : AeadCtx :=
  ⟨true, .chacha20, core0, P13State.load oneTimeKey (Vector.replicate 16 0x5a), .init, 0, 0⟩

theorem test_aead_tag_of_nothing :
    composer.tag =
      [0xa0, 0x78, 0x4d, 0x7a, 0x47, 0x16, 0xf3, 0xfe, 0xb4, 0xf6, 0x4e, 0x7f, 0x4b, 0x39, 0xbf,
        0x04] := by decide +kernel
theorem test_aead_tag_of_one_ciphertext_byte :
    (composer.finalizeAD.hashCiphertext [0x9f]).tag =
      [0xbb, 0x75, 0x8e, 0x73, 0x7c, 0xb5, 0x6e, 0x18, 0xdf, 0x47, 0x48, 0x42, 0x1b, 0x08, 0x5b,
        0xb0] := by decide +kernel
theorem test_sc_responses :
    response (execScInitCc20 1 0 44 live) = some (0, 0) ∧
    response (execScInitCc20 1 0 40 live) = some (2, 0) ∧
    response (execScInitSs20 1 0 40 live) = some (0, 0) ∧
    response (execScInitSs20 1 0 44 live) = some (2, 0) ∧
    response (execScInitXcc20 1 0 56 live) = some (0, 0) ∧
    response (execScInitXcc20 1 0 44 live) = some (2, 0) ∧
    response (execScInitXss20 1 0 56 live) = some (0, 0) ∧
    response (execScInitXss20 4 0 56 live) = some (1, 0) := by decide
theorem test_aead_responses :
    response (execAeadInit 1 0 live) = some (0, 0) ∧
    response (execAeadInit 1 2 live) = some (3, 0) ∧
    response (execAeadWrad 3 0 12 live) = some (3, 0) ∧
    response (execAeadWrad 0 0 12 live) = some (0, 0) ∧
    response (execAeadWrad 0 0 12 (liveIn .data)) = some (3, 0) ∧
    response (execAeadEnc 0 0 4 0x40 3 live) = some (5, 0) ∧
    response (execAeadEnc 0 0 4 0x40 4 live) = some (0, 4) ∧
    response (execAeadDec 0 0 4 0 4 live) = some (0, 4) ∧
    response (execAeadDec 0 0 4 0x40 4 (liveIn .done)) = some (3, 0) ∧
    response (execAeadFin 0 0x40 15 live) = some (5, 0) ∧
    response (execAeadFin 0 0x40 16 live) = some (0, 16) ∧
    response (execAeadVfy 0 0 15 live) = some (5, 0) ∧
    response (execAeadVfy 0 0 16 live) = some (0, 0) ∧
    response (execAeadEncsz 0 7 (liveIn .done)) = some (0, 7) := by decide +kernel
theorem test_aead_verify_accepts_its_tag :
    response (execAeadVfy 0 0 16 (live.writeBytes 0 (live.aeadAt 0).tag)) = some (0, 1) := by
  decide +kernel

/-! ### ASC (section 2.5) -/

/-- An instance with the key and nonce of section 2.5. -/
def ascon (v : AscVar) : AscCtx := AscCtx.construct v (iota v.klen) (iota 16)

theorem test_ascon_permutation_of_zeros :
    (perm (Vector.replicate 40 0) 12).toList.take 8 =
      [0x78, 0xea, 0x7a, 0xe5, 0xcf, 0xeb, 0xb1, 0x08] := by decide +kernel
theorem test_ascon_128_encrypts_7_9 :
    (((ascon .ascon128).writeAD (iota 7)).encrypt (iota 9)).2 =
      [0x2e, 0x5b, 0xba, 0xde, 0x95, 0x99, 0xac, 0x9f, 0x2d] := by decide +kernel
theorem test_ascon_128_tag_7_9 :
    (((ascon .ascon128).writeAD (iota 7)).encrypt (iota 9)).1.tag =
      [0x7e, 0xa5, 0xa5, 0xc8, 0x32, 0xe8, 0xf4, 0x10, 0x72, 0xbd, 0x34, 0x00, 0xfc, 0xad, 0x0d,
        0x64] := by decide +kernel
theorem test_ascon_128a_tag_of_nothing :
    (ascon .ascon128a).tag =
      [0x7a, 0x83, 0x4e, 0x6f, 0x09, 0x21, 0x09, 0x57, 0x06, 0x7b, 0x10, 0xfd, 0x83, 0x1f, 0x00,
        0x78] := by decide +kernel
theorem test_ascon_80pq_tag_of_nothing :
    (ascon .ascon80pq).tag =
      [0xab, 0xb6, 0x88, 0xef, 0xa0, 0xb9, 0xd5, 0x6b, 0x33, 0x27, 0x7a, 0x2c, 0x97, 0xd2, 0x14,
        0x6b] := by decide +kernel
theorem test_ascon_decrypts_one_byte :
    ((ascon .ascon128).decrypt [0xbc]).2 = [0] := by decide +kernel
theorem test_asc_responses :
    response (execAscInit128 1 0 32 live) = some (0, 0) ∧
    response (execAscInit128a 1 0 31 live) = some (2, 0) ∧
    response (execAscInit80pq 1 0 36 live) = some (0, 0) ∧
    response (execAscWrad 0 0 0 live) = some (0, 0) ∧
    response (execAscWrad 0 0 0 (liveIn .data)) = some (3, 0) ∧
    response (execAscEnc 0 0 4 0x40 3 live) = some (5, 0) ∧
    response (execAscEnc 0 0 4 0x40 4 live) = some (0, 4) ∧
    response (execAscDec 0 0 4 0 4 live) = some (0, 4) ∧
    response (execAscFin 0 0x40 16 live) = some (0, 16) ∧
    response (execAscFin 0 0x40 16 (liveIn .done)) = some (3, 0) ∧
    response (execAscVfy 0 0 16 live) = some (0, 0) ∧
    response (execAscEncsz 0 4 (liveIn .done)) = some (0, 4) ∧
    response (execAscClone 0 3 live) = some (0, 0) ∧
    response (execAscClone 1 3 live) = some (3, 0) := by decide +kernel

/-! ### ASH (section 2.5) -/

theorem test_ascon_hash_of_abc :
    ((AshCtx.construct .hash 32).write [0x61, 0x62, 0x63]).digest.take 8 =
      [0xd3, 0x7f, 0xe9, 0xf1, 0xd1, 0x0d, 0xbc, 0xfa] := by decide +kernel
theorem test_ascon_xof_of_nothing :
    (AshCtx.construct .xof 9).digest =
      [0x5d, 0x4c, 0xbd, 0xe6, 0x35, 0x0e, 0xa4, 0xc1, 0x74] := by decide +kernel
theorem test_ash_responses :
    response (execAshInitHash 3 live) = some (0, 0) ∧
    response (execAshInitHash 4 live) = some (1, 0) ∧
    response (execAshInitXof 3 20 live) = some (0, 0) ∧
    response (execAshWrite 0 0 9 live) = some (0, 0) ∧
    response (execAshWrite 1 0 9 live) = some (3, 0) ∧
    response (execAshSum 0 0x40 31 live) = some (5, 0) ∧
    response (execAshSum 0 0x40 32 live) = some (0, 32) ∧
    response (execAshSumin 0 0x40 40 live) = some (0, 32) ∧
    response (execAshClone 0 0 live) = some (0, 0) := by decide +kernel

/-! ### Witnesses

For each statement with hypotheses, a state and operands that meet them, at the boundary values of its
clauses where they have some. -/

/-- An outcome with a response is a next state with that response. -/
theorem next_of_response {o : Host.Outcome State Fault Refusal} {a b : Nat}
    (h : response o = some (a, b)) : ∃ t, o = .next t ∧ t.status.toNat = a ∧ t.result.toNat = b := by
  cases o with
  | next t => exact ⟨t, rfl, by simpa [response] using h⟩
  | fault _ => simp [response] at h
  | refused _ => simp [response] at h

/-- `live` with an act of the host presented. -/
def presenting (a : HostAction) : State := { live with inputs := [a] }

/-- A descriptor of a first word alone. -/
def first (w0 : Word) : Descriptor := ⟨w0, 0, 0, 0, 0, 0⟩

theorem witness_EncodeInvertsDecode :
    decode ⟨0x33300000, 0, 0, 3, 4, 0⟩ = .ok (.p13Sumin 3 3 4) := by decide

theorem witness_ReservedEncodingsAreIllegal :
    (∀ d, (presenting (.command d)).inputs = .command d :: []) ∧
    (first 0x10000001).rsv ≠ 0 ∧ (first 0).unit = 0 ∧
    8 ≤ (first 0x80000000).unit ∧ 8 ≤ (first 0xf0000000).unit ∧
    ((first 0x13000000).unit = 1 ∧ 3 ≤ (first 0x13000000).op) ∧
    ((first 0x10000300).unit = 1 ∧ 3 ≤ (first 0x10000300).var) ∧
    ((first 0x24000000).unit = 2 ∧ 4 ≤ (first 0x24000000).op) ∧
    ((first 0x20000300).unit = 2 ∧ (first 0x20000300).op = 0 ∧ 3 ≤ (first 0x20000300).var) ∧
    ((first 0x21000100).unit = 2 ∧ (first 0x21000100).op ≠ 0 ∧ (first 0x21000100).var ≠ 0) ∧
    ((first 0x36000000).unit = 3 ∧ 6 ≤ (first 0x36000000).op) ∧
    ((first 0x30000100).unit = 3 ∧ (first 0x30000100).var ≠ 0) ∧
    ((first 0x41000000).unit = 4 ∧ 1 ≤ (first 0x41000000).op) ∧
    ((first 0x40000400).unit = 4 ∧ 4 ≤ (first 0x40000400).var) ∧
    ((first 0x57000000).unit = 5 ∧ 7 ≤ (first 0x57000000).op) ∧
    ((first 0x5000ff00).unit = 5 ∧ (first 0x5000ff00).var ≠ 0) ∧
    ((first 0x68000000).unit = 6 ∧ 8 ≤ (first 0x68000000).op) ∧
    ((first 0x60000300).unit = 6 ∧ (first 0x60000300).op = 0 ∧ 3 ≤ (first 0x60000300).var) ∧
    ((first 0x61000100).unit = 6 ∧ (first 0x61000100).op ≠ 0 ∧ (first 0x61000100).var ≠ 0) ∧
    ((first 0x75000000).unit = 7 ∧ 5 ≤ (first 0x75000000).op) ∧
    ((first 0x70000200).unit = 7 ∧ (first 0x70000200).op = 0 ∧ 2 ≤ (first 0x70000200).var) ∧
    ((first 0x71000100).unit = 7 ∧ (first 0x71000100).op ≠ 0 ∧ (first 0x71000100).var ≠ 0) :=
  ⟨fun _ => rfl, by decide⟩

/-- The unit and operation of a descriptor. -/
def named (d : Descriptor) : Nat × Nat := (d.unit, d.op)

/-- An unused field of each kind, not 0, in a command that is legal without it: of `PADSZ.Z`,
`P13.WRITE`, `P13.SUMIN`, `P13.SUM`, `AEAD.INIT`, `ASC.ENCSZ` and `ASH.INIT.HASH`. -/
theorem witness_ReservedEncodingsAreIllegal_unused :
    decode ⟨0x33000000, 1, 0, 0, 16, 0⟩ = .error .unusedField ∧
    ((first 0x10100000).ctx ≠ 0 ∧ (first 0x10100000).unit = 1) ∧
    ((first 0x32010000).ctx2 ≠ 0 ∧ named (first 0x32010000) = (3, 2)) ∧
    ((⟨0x33000000, 1, 0, 0, 16, 0⟩ : Descriptor).w1 ≠ 0 ∧
      named ⟨0x33000000, 1, 0, 0, 16, 0⟩ = (3, 3)) ∧
    ((⟨0x34000000, 0, 1, 0, 16, 0⟩ : Descriptor).w2 ≠ 0 ∧
      named ⟨0x34000000, 0, 1, 0, 16, 0⟩ = (3, 4)) ∧
    ((⟨0x50000000, 0, 0, 1, 0, 0⟩ : Descriptor).w3 ≠ 0 ∧
      named ⟨0x50000000, 0, 0, 1, 0, 0⟩ = (5, 0)) ∧
    ((⟨0x66000000, 0, 9, 0, 1, 0⟩ : Descriptor).w4 ≠ 0 ∧
      named ⟨0x66000000, 0, 9, 0, 1, 0⟩ = (6, 6)) ∧
    ((⟨0x70000000, 0, 0, 0, 0, 32⟩ : Descriptor).w5 ≠ 0 ∧
      named ⟨0x70000000, 0, 0, 0, 0, 32⟩ = (7, 0) ∧
      (⟨0x70000000, 0, 0, 0, 0, 32⟩ : Descriptor).var = 0) := by decide

theorem witness_StepRunsDecodedCommand :
    (presenting (.command (first 0x70300000))).inputs = .command (first 0x70300000) :: [] ∧
    decode (first 0x70300000) = .ok (.ashInitHash 3) ∧
    decodeTableWord 32 0x70300000 = some (.ashInitHash 3) := by decide

theorem witness_AbsentContextIsIllegal :
    (Instr.p13Write 4 0 0).wellFormed live.par.nctx = false ∧
    (Instr.ashInitHash 15).wellFormed live.par.nctx = false ∧
    (Instr.p13Initsc 0 4).wellFormed live.par.nctx = false := by decide

theorem witness_HostActsLandBetweenCommands :
    live.inputs = [] ∧
    (presenting (.write 0xffff [7])).inputs = .write 0xffff [7] :: [] ∧
    (0xffff : Word).toNat + [(7 : Byte)].length ≤ live.par.memSize ∧
    (presenting (.write 0xffff [7, 8])).inputs = .write 0xffff [7, 8] :: [] ∧
    live.par.memSize < (0xffff : Word).toNat + [(7 : Byte), 8].length ∧
    (presenting .reset).inputs = .reset :: [] := by decide

theorem live_p13_limbs (c : Ctx) : (live.p13At c).Ok := by
  simp only [P13State.Ok, P13State.limbsBounded]
  revert c
  decide +kernel

theorem live_aead_limbs (c : Ctx) : (live.aeadAt c).poly.Ok := by
  simp only [P13State.Ok, P13State.limbsBounded]
  revert c
  decide +kernel

theorem witness_StepKeepsLimbBounds :
    (presenting (.command ⟨0x32000000, 0, 17, 0, 0, 0⟩)).LimbsOk ∧
      ∃ t, step (presenting (.command ⟨0x32000000, 0, 17, 0, 0, 0⟩)) = .next t := by
  refine ⟨⟨fun c => live_p13_limbs c, fun c _ => live_aead_limbs c⟩, ?_⟩
  obtain ⟨t, h, -⟩ := next_of_response (o := step (presenting (.command ⟨0x32000000, 0, 17, 0, 0, 0⟩)))
    (a := 0) (b := 0) (by decide +kernel)
  exact ⟨t, h⟩

theorem live_contexts : live.ContextsOk := by
  refine ⟨?_, fun c => ⟨?_, ?_, ?_, ?_, ?_⟩⟩
  · simp only [State.NoAbsentContexts]
    decide +kernel
  · simp only [CbcCtx.Ok]
    revert c
    decide +kernel
  · simp only [ScCtx.Ok, Sigma.Ok]
    revert c
    decide +kernel
  · simp only [AeadCtx.Ok, Sigma.Ok]
    revert c
    decide +kernel
  · simp only [AscCtx.Ok]
    revert c
    decide +kernel
  · simp only [AshCtx.Ok]
    revert c
    decide +kernel

theorem witness_StepKeepsSequencingState :
    (presenting (.command ⟨0x51000000, 0, 17, 0, 0, 0⟩)).ContextsOk ∧
      ∃ t, step (presenting (.command ⟨0x51000000, 0, 17, 0, 0, 0⟩)) = .next t := by
  refine ⟨live_contexts, ?_⟩
  obtain ⟨t, h, -⟩ := next_of_response (o := step (presenting (.command ⟨0x51000000, 0, 17, 0, 0, 0⟩)))
    (a := 0) (b := 0) (by decide +kernel)
  exact ⟨t, h⟩

theorem live_memory : live.MemoryOk := by
  refine ⟨by decide, fun a ha => ?_⟩
  have far : ∀ (l : List (Nat × Byte)), (∀ p ∈ l, p.1 < 64) → 64 ≤ a → Memory.lookup a l = none := by
    intro l
    induction l with
    | nil => intros; rfl
    | cons p l ih =>
      intro h h64
      have := h p List.mem_cons_self
      rw [show Memory.lookup a (p :: l) = if p.1 = a then some p.2 else Memory.lookup a l from rfl,
        if_neg (by omega)]
      exact ih (fun q hq => h q (List.mem_cons_of_mem _ hq)) h64
  refine far _ ?_ (le_trans (by decide) ha)
  simp only [live, List.mem_map, List.mem_range]
  rintro p ⟨i, hi, rfl⟩
  exact hi

theorem witness_StepKeepsMemoryInMemory_and_ResponseCodes_and_Parameters :
    (presenting (.command ⟨0x34000000, 0, 0, 0x40, 16, 0⟩)).MemoryOk ∧
    (presenting (.command ⟨0x34000000, 0, 0, 0x40, 16, 0⟩)).ResponseOk ∧
      ∃ t, step (presenting (.command ⟨0x34000000, 0, 0, 0x40, 16, 0⟩)) = .next t := by
  refine ⟨live_memory, ⟨by decide, fun _ => rfl⟩, ?_⟩
  obtain ⟨t, h, -⟩ :=
    next_of_response (o := step (presenting (.command ⟨0x34000000, 0, 0, 0x40, 16, 0⟩)))
      (a := 0) (b := 16) (by decide +kernel)
  exact ⟨t, h⟩

/-- A command without a destination, a success and an early error of one with a destination. -/
theorem witness_CommandWritesOnlyItsWindow :
    (∃ t, exec (.p13Write 0 0 17) live = .next t) ∧
    (Instr.p13Write 0 0 17).destination = none ∧
    (∃ t, exec (.ascEnc 0 0 4 0x40 9) live = .next t ∧ t.status.toNat = 0) ∧
    (Instr.ascEnc 0 0 4 0x40 9).destination = some (0x40, 9) ∧
    (∃ t, exec (.ascEnc 0 0 4 0x40 3) live = .next t ∧ t.status.toNat = 5) ∧
    (Instr.ascEnc 0 0 4 0x40 3).mayFailLate = false := by
  obtain ⟨t, ht, -⟩ := next_of_response (o := exec (.p13Write 0 0 17) live) (a := 0) (b := 0)
    (by decide +kernel)
  obtain ⟨u, hu, hs, -⟩ := next_of_response (o := exec (.ascEnc 0 0 4 0x40 9) live) (a := 0) (b := 4)
    (by decide +kernel)
  obtain ⟨v, hv, hr, -⟩ := next_of_response (o := exec (.ascEnc 0 0 4 0x40 3) live) (a := 5) (b := 0)
    (by decide +kernel)
  exact ⟨⟨t, ht⟩, rfl, ⟨u, hu, hs⟩, rfl, ⟨v, hv, hr⟩, rfl⟩

/-- An early error of each class, the early capacity errors of commands that can also fail late among
them (a window out of range, a part of a block, whole blocks that do not fit, an overlap), and none. -/
theorem witness_EarlyErrorsChangeNothing :
    (Instr.p13Write 4 0 1).earlyError live = some .illegal ∧
    (Instr.p13Init 0 0 31).earlyError live = some .construct ∧
    (Instr.p13Write 1 0 1).earlyError live = some .usage ∧
    (Instr.p13Sum 0 0 15).earlyError live = some .capacity ∧
    (Instr.unpadZ 0xffff 2 0 4).earlyError live = some .capacity ∧
    (Instr.cbcDec 0 0 7 0x40 8).earlyError live = some .capacity ∧
    (Instr.cbcDec 0 0 12 0x40 7).earlyError live = some .capacity ∧
    (Instr.cbcDec 0 0 12 0x40 8).earlyError live = none ∧
    (Instr.unpadZ 0 8 4 8).earlyError live = some .overlap ∧
    (∃ t, exec (.unpadZ 0 8 4 8) live = .next t ∧ t.status.toNat = 6 ∧ t.result.toNat = 0) ∧
    (Instr.unpadP7 0 8 0x40 8).earlyError live = none ∧
    ∃ t, exec (.unpadP7 0 8 0x40 8) live = .next t ∧ t.status.toNat = 4 ∧ t.result.toNat = 0 :=
  ⟨by decide, by decide, by decide, by decide, by decide, by decide, by decide, by decide, by decide,
    next_of_response (by decide +kernel), by decide, next_of_response (by decide +kernel)⟩

/-- Both late errors: the block 0 .. 7 ends in no PKCS#7 padding, and the block 1 .. 4 under Zero is
longer than the window. -/
theorem witness_LateErrorsDisturbOnlyTheWindow :
    (Instr.unpadP7 0 8 0x40 8).mayFailLate = true ∧
    (Instr.unpadP7 0 8 0x40 8).destination = some (0x40, 8) ∧
    (∃ t, exec (.unpadP7 0 8 0x40 8) live = .next t ∧ t.status.toNat = 4 ∧ t.result.toNat = 0) ∧
    ∃ t, exec (.unpadZ 1 4 0x40 3) live = .next t ∧ t.status.toNat = 5 ∧ t.result.toNat = 0 :=
  ⟨rfl, rfl, next_of_response (by decide +kernel), next_of_response (by decide +kernel)⟩

theorem witness_CommandTouchesOnlyNamedContexts :
    (∃ t, exec (.p13Initsc 1 0) live = .next t ∧ t.status.toNat = 0 ∧ t.result.toNat = 0) ∧
    (2 : Ctx) ∉ (Instr.p13Initsc 1 0).contexts ∧ (Instr.p13Initsc 1 0).unit = 3 :=
  ⟨next_of_response (by decide +kernel), by decide, by decide⟩

theorem witness_EveryCommandResponds :
    ∀ c : Ctx, (live.cbcAt c).Ok (live.blockSizeAt c) := fun c => (live_contexts.2 c).1

theorem witness_MissingInstanceIsUsageError :
    (Instr.ashSum 3 0 0).wellFormed live.par.nctx = true ∧
    (Instr.ashSum 3 0 0).instanceBit live = some false ∧
    (Instr.p13Initsc 0 1).wellFormed live.par.nctx = true ∧
    (Instr.p13Initsc 0 1).instanceBit live = some false := by decide

theorem witness_WrongLengthIsConstructionError :
    live.hasCtx 3 = true ∧ (3 : Word).toNat ≠ live.blockSizeAt 3 ∧ (5 : Word).toNat ≠ live.blockSizeAt 3 ∧
    (31 : Word).toNat ≠ 32 ∧ (33 : Word).toNat ≠ 32 ∧ (40 : Word).toNat ≠ 44 ∧ (44 : Word).toNat ≠ 40 ∧
    (44 : Word).toNat ≠ 56 ∧ (32 : Word).toNat ≠ 36 := by decide

theorem witness_MemoryReadsWhatWasWritten :
    (3 < 4) ∧ ((2 : Nat) < (3 : Word).toNat ∨ (3 : Word).toNat + (iota 4).length ≤ 2) ∧
    ((7 : Nat) < (3 : Word).toNat ∨ (3 : Word).toNat + (iota 4).length ≤ 7) := by decide

/-- A source and a destination out of range, and windows that overlap in part. -/
theorem witness_WindowChecksGuardEveryCommand :
    (∃ t, exec (.p13Write 0 0xffff 2) live = .next t ∧ t.status.toNat = 5 ∧ t.result.toNat = 0) ∧
    (Instr.p13Write 0 0xffff 2).checksPassed live = true ∧
    (Instr.p13Write 0 0xffff 2).sourceWindow = some (0xffff, 2) ∧ live.inRange 0xffff 2 = false ∧
    (∃ t, exec (.p13Sum 0 0xfff1 16) live = .next t ∧ t.status.toNat = 5 ∧ t.result.toNat = 0) ∧
    (Instr.p13Sum 0 0xfff1 16).checksPassed live = true ∧
    (Instr.p13Sum 0 0xfff1 16).destination = some (0xfff1, 16) ∧ live.inRange 0xfff1 16 = false ∧
    (∃ t, exec (.ascEnc 0 0 4 3 4) live = .next t ∧ t.status.toNat = 6 ∧ t.result.toNat = 0) ∧
    (Instr.ascEnc 0 0 4 3 4).checksPassed live = true ∧
    live.inRange 0 4 = true ∧ live.inRange 3 4 = true ∧
    (Instr.ascEnc 0 0 4 3 4).sourceWindow = some (0, 4) ∧
    (Instr.ascEnc 0 0 4 3 4).destination = some (3, 4) ∧ partialOverlap 0 4 3 4 = true :=
  ⟨next_of_response (by decide +kernel), by decide, rfl, by decide,
    next_of_response (by decide +kernel), by decide, rfl, by decide,
    next_of_response (by decide +kernel), by decide, by decide, by decide, rfl, rfl, by decide⟩

theorem witness_PadszAnswers :
    (1 ≤ (1 : Word).toNat ∧ (1 : Word).toNat ≤ 255) ∧ (1 ≤ (255 : Word).toNat ∧ (255 : Word).toNat ≤ 255) ∧
    (254 : Word).toNat < (255 : Word).toNat ∧ (255 : Word).toNat < (256 : Word).toNat ∧
    (0 : Word).toNat < 1 ∧ 255 < (256 : Word).toNat := by decide

theorem witness_PadAnswers :
    live.windowsOk 0 8 0x40 8 ∧ (8 : Word).toNat ≤ (8 : Word).toNat ∧
    live.windowsOk 0 7 0x40 8 ∧ (7 : Word).toNat < (8 : Word).toNat ∧
    live.windowsOk 0 0 0x40 255 ∧ (255 : Word).toNat ≤ 255 := by
  simp only [State.windowsOk]
  decide

theorem witness_UnpadAnswers :
    live.windowsOk 1 4 0x40 4 ∧
    unpad .zero (live.readBytes 1 (4 : Word).toNat) = some [1, 2, 3, 4] ∧
    [(1 : Byte), 2, 3, 4].length ≤ (4 : Word).toNat ∧
    live.windowsOk 1 4 0x40 3 ∧ (3 : Word).toNat < [(1 : Byte), 2, 3, 4].length ∧
    live.windowsOk 1 1 0x40 1 ∧ unpad .pkcs7 (live.readBytes 1 (1 : Word).toNat) = some [] ∧
    unpad .pkcs7 (live.readBytes 1 (4 : Word).toNat) = none ∧
    unpad .iso7816 (live.readBytes 1 (4 : Word).toNat) = none ∧
    (holding [5, 0x80, 0]).windowsOk 0 3 0x40 3 ∧
    unpad .iso7816 ((holding [5, 0x80, 0]).readBytes 0 (3 : Word).toNat) = some [5] := by
  simp only [State.windowsOk]
  decide

theorem witness_PaddingRoundTrip : (iota 254).length < 255 ∧ ([] : List Byte).length < 1 := by
  simp [iota]

theorem witness_CbcInitAndEncszAnswer :
    live.hasCtx 0 = true ∧ (4 : Word).toNat = live.blockSizeAt 0 ∧ live.inRange 0 4 = true ∧
    (live.cbcAt 0).valid = true ∧
    encSize (live.cbcAt 0).scheme (0xfffffffb : Word).toNat (live.blockSizeAt 0) < 2 ^ 32 ∧
    2 ^ 32 ≤ encSize (live.cbcAt 0).scheme (0xfffffffc : Word).toNat (live.blockSizeAt 0) := by decide

theorem witness_CbcEncAnswers :
    live.hasCtx 0 = true ∧ (live.cbcAt 0).valid = true ∧ 1 ≤ live.blockSizeAt 0 ∧
    live.blockSizeAt 0 ≤ 255 ∧ (live.cbcAt 0).iv.length = live.blockSizeAt 0 ∧
    encSize (live.cbcAt 0).scheme (6 : Word).toNat (live.blockSizeAt 0) ≤ (8 : Word).toNat ∧
    live.windowsOk 0 6 0x40 8 ∧
    (7 : Word).toNat < encSize (live.cbcAt 0).scheme (6 : Word).toNat (live.blockSizeAt 0) ∧
    2 ^ 32 ≤ encSize (live.cbcAt 0).scheme (0xfffffffc : Word).toNat (live.blockSizeAt 0) := by
  simp only [State.windowsOk]
  decide

/-- A plaintext of one block that the port may give: the Zero scheme unpads whatever it is. -/
theorem zero_scheme_decrypts (E : List Byte) :
    ∃ P, cbcDecrypt (bcDec 0 4) 4 .zero (iota 4) E = some P := by
  unfold cbcDecrypt
  generalize chainDec (bcDec 0 4) (iota 4) (wholeBlocks 4 E) = Q
  cases hQ : Q.getLast? with
  | none => exact ⟨[], by simp [hQ]⟩
  | some last => exact ⟨Q.dropLast.flatten ++ stripZeros last, by simp [hQ, unpad]⟩

/-- `live` with the ciphertext of one block `B` at address 0, whatever the cipher is. -/
def holdingBlock (B : List Byte) : State := live.writeBytes 0 (bcEnc 0 4 (xorBytes B (iota 4)))

theorem holdingBlock_decrypts (B : List Byte) (hB : B.length = 4) :
    cbcDecrypt (bcDec 0 4) 4 .pkcs7 (iota 4) ((holdingBlock B).readBytes 0 (4 : Word).toNat) =
      unpad .pkcs7 B := by
  have hx : (xorBytes B (iota 4)).length = 4 := by simp [hB, iota]
  have read : (holdingBlock B).readBytes 0 (4 : Word).toNat = bcEnc 0 4 (xorBytes B (iota 4)) := by
    refine List.ext_getElem (by simp) fun i h _ => ?_
    have hi : i < 4 := by simpa using h
    simp [State.readBytes, holdingBlock, State.readByte_writeBytes, hi]
  have one := wholeBlocks_append (by decide : 1 ≤ 4) _ [] (bcEnc_length 0 4 (xorBytes B (iota 4)))
  rw [List.append_nil] at one
  unfold cbcDecrypt
  rw [read, one]
  have undone := congrArg (xorBytes · (iota 4)) (bcDec_bcEnc 0 4 _ hx)
  simp only [xorBytes_cancel B (iota 4) (by simp [hB, iota])] at undone
  simpa [wholeBlocks] using congrArg (unpad .pkcs7) undone

/-- The early capacity errors at both sides of their boundary; then one block that unpads to three
bytes, which fit 4 and do not fit 2, and one that is no PKCS#7 padding. -/
theorem witness_CbcDecAnswers :
    live.hasCtx 0 = true ∧ (live.cbcAt 0).valid = true ∧ (live.cbcAt 0).scheme = .pkcs7 ∧
    (live.cbcAt 0).iv = iota 4 ∧ live.blockSizeAt 0 = 4 ∧
    (7 : Word).toNat % live.blockSizeAt 0 ≠ 0 ∧
    (0 < (12 : Word).toNat ∧ (7 : Word).toNat < (12 : Word).toNat - live.blockSizeAt 0) ∧
    (∀ B, (holdingBlock B).hasCtx 0 = true ∧ (holdingBlock B).cbcAt 0 = live.cbcAt 0 ∧
      (holdingBlock B).blockSizeAt 0 = 4 ∧ (holdingBlock B).windowsOk 0 4 0x40 4 ∧
      (holdingBlock B).windowsOk 0 4 0x40 2) ∧
    (4 : Word).toNat % 4 = 0 ∧ (4 : Word).toNat ≤ (2 : Word).toNat + 4 ∧
    cbcDecrypt (bcDec 0 4) 4 .pkcs7 (iota 4)
      ((holdingBlock [1, 2, 3, 1]).readBytes 0 (4 : Word).toNat) = some [1, 2, 3] ∧
    [(1 : Byte), 2, 3].length ≤ (4 : Word).toNat ∧ (2 : Word).toNat < [(1 : Byte), 2, 3].length ∧
    cbcDecrypt (bcDec 0 4) 4 .pkcs7 (iota 4)
      ((holdingBlock [1, 2, 3, 0]).readBytes 0 (4 : Word).toNat) = none := by
  refine ⟨by decide, by decide, by decide, by decide, by decide, by decide, by decide, fun B => ?_,
    by decide, by decide, ?_, by decide, by decide, ?_⟩
  · exact ⟨rfl, rfl, rfl, ⟨rfl, rfl, rfl⟩, rfl, rfl, rfl⟩
  · rw [holdingBlock_decrypts _ rfl]
    decide
  · rw [holdingBlock_decrypts _ rfl]
    decide

theorem witness_CbcRoundTrip_and_CiphertextLength : (1 ≤ 255) ∧ (255 ≤ 255) ∧ (iota 255).length = 255 ∧
    (iota 1).length = 1 ∧ 4 ∣ (iota 8).length ∧ Scheme.pkcs7 ≠ .zero := by simp [iota]

theorem witness_CbcErrorPropagation :
    [[(1 : Byte)], [2], [3], [4]].length = [[(1 : Byte)], [7], [3], [4]].length ∧
    (∀ k, k ≠ 1 → [[(1 : Byte)], [2], [3], [4]][k]? = [[(1 : Byte)], [7], [3], [4]][k]?) ∧
    3 ≠ 1 ∧ 3 ≠ 1 + 1 := by
  refine ⟨rfl, fun k hk => ?_, by decide, by decide⟩
  match k with
  | 0 => rfl
  | 1 => exact absurd rfl hk
  | 2 => rfl
  | 3 => rfl
  | k + 4 => rfl

theorem cbc_dec_completes (dst : Word) (hw : firstError ((liveCbc .zero).windowChecks 0 8 dst 8) = none) :
    ∃ t, exec (.cbcDec 0 0 8 dst 8) (liveCbc .zero) = .next t ∧ t.status = 0 := by
  obtain ⟨P, hP⟩ := zero_scheme_decrypts ((liveCbc .zero).readBytes 0 (8 : Word).toNat)
  have hl : ¬ (8 : Word).toNat < P.length :=
    not_lt.mpr (le_trans (cbcDecrypt_length_le hP) (by simp))
  refine ⟨(liveCbc .zero).output dst P, ?_, rfl⟩
  refine (command_of_passed _ ?_).trans ?_
  · rw [firstError_append, hw]
    decide
  · refine (if_pos (by decide)).trans (congrArg _ ?_)
    change (liveCbc .zero).lateOutput dst 8 (cbcDecrypt (bcDec 0 4) 4 .zero (iota 4)
      ((liveCbc .zero).readBytes 0 (8 : Word).toNat)) = _
    rw [hP, State.lateOutput, if_neg hl]

theorem witness_CbcDecryptsInPlace :
    (∃ t, exec (.cbcDec 0 0 8 0x40 8) (liveCbc .zero) = .next t ∧ t.status = 0) ∧
    ∃ u, exec (.cbcDec 0 0 8 0 8) (liveCbc .zero) = .next u ∧ u.status = 0 :=
  ⟨cbc_dec_completes 0x40 (by decide), cbc_dec_completes 0 (by decide)⟩

theorem witness_P13ConstructionAnswers :
    live.hasCtx 1 = true ∧ (32 : Word).toNat = 32 ∧ live.inRange 0 32 = true ∧ live.hasCtx 0 = true ∧
    (live.scAt 0).valid = true ∧ 32 ≤ live.par.streamBlock (live.scAt 0).cipher := by decide

theorem witness_P13WriteAnswers_and_P13SumAnswers :
    live.hasCtx 0 = true ∧ (live.p13At 0).valid = true ∧ live.inRange 0 17 = true ∧
    16 ≤ (16 : Word).toNat ∧ live.inRange 0xfff0 16 = true ∧ (15 : Word).toNat < 16 := by decide

theorem witness_ClonesAnswer :
    live.hasCtx 0 = true ∧ live.hasCtx 3 = true ∧ live.hasCtx 4 = false ∧
    (live.p13At 0).valid = true ∧ (live.ascAt 0).valid = true ∧ (live.ashAt 0).valid = true ∧
    (live.p13At 1).valid = false ∧ (live.ascAt 1).valid = false ∧ (live.ashAt 1).valid = false := by
  decide

theorem witness_BlockStepMultipliesModP : (List.replicate 16 (0xff : Byte)).length = 16 := by decide

theorem witness_FinalizationReducesModP :
    (live.p13At 0).limbsBounded ∧ (live.p13At 0).fill = 0 := by
  refine ⟨(live_p13_limbs 0 (by decide)).1, by decide⟩

theorem witness_Poly1305MatchesRfc : keyV1.length = 32 := by decide

theorem witness_HandleConstructionAnswers :
    live.hasCtx 3 = true ∧ live.inRange 0 44 = true ∧ (44 : Word).toNat = 44 ∧
    live.inRange 0 40 = true ∧ (40 : Word).toNat = 40 ∧ live.inRange 0xffc8 56 = true ∧
    (56 : Word).toNat = 56 := by decide

/-- `live` on an implementation whose ChaCha20 core has blocks of 31 bytes. -/
def liveShort : State := { live with par := { live.par with chacha20Block := 31 } }

theorem witness_AeadInitAnswers :
    live.hasCtx 1 = true ∧ live.hasCtx 0 = true ∧ (live.scAt 0).valid = true ∧
    32 ≤ live.par.streamBlock (live.scAt 0).cipher ∧
    liveShort.hasCtx 1 = true ∧ liveShort.hasCtx 0 = true ∧ (liveShort.scAt 0).valid = true ∧
    liveShort.par.streamBlock (liveShort.scAt 0).cipher < 32 := by decide

/-- `live` with the counters of the AEAD context 0 at their largest value. -/
def liveFull : State :=
  live.setAead 0 { live.aeadAt 0 with adLen := 0xffffffffffffffff, ctLen := 0xffffffffffffffff }

theorem witness_AeadWradAnswers :
    live.hasCtx 0 = true ∧ (live.aeadAt 0).valid = true ∧ (live.aeadAt 0).stage = .init ∧
    (live.aeadAt 0).adLen.toNat + (64 : Word).toNat < 2 ^ 64 ∧ live.inRange 0 64 = true ∧
    liveFull.hasCtx 0 = true ∧ (liveFull.aeadAt 0).valid = true ∧ (liveFull.aeadAt 0).stage = .init ∧
    2 ^ 64 ≤ (liveFull.aeadAt 0).adLen.toNat + (1 : Word).toNat := by decide

theorem witness_AeadDataAnswers :
    live.hasCtx 0 = true ∧ (live.aeadAt 0).valid = true ∧ (live.aeadAt 0).stage ≠ .done ∧
    (33 : Word).toNat ≤ (33 : Word).toNat ∧ (live.aeadAt 0).ctLen.toNat + (33 : Word).toNat < 2 ^ 64 ∧
    live.windowsOk 0 33 0x40 33 ∧ (32 : Word).toNat < (33 : Word).toNat ∧
    liveFull.hasCtx 0 = true ∧ (liveFull.aeadAt 0).valid = true ∧
    (liveFull.aeadAt 0).stage ≠ .done ∧
    2 ^ 64 ≤ (liveFull.aeadAt 0).ctLen.toNat + (1 : Word).toNat := by
  simp only [State.windowsOk]
  decide

theorem witness_AeadTagAnswers :
    live.hasCtx 0 = true ∧ (live.aeadAt 0).valid = true ∧ (live.aeadAt 0).stage ≠ .done ∧
    live.inRange 0xfff0 16 = true ∧ (16 : Word).toNat = 16 ∧ (15 : Word).toNat < 16 ∧
    (17 : Word).toNat ≠ 16 := by decide

theorem witness_EncszAnswers :
    live.hasCtx 4 = false ∧ live.hasCtx 0 = true ∧ (live.aeadAt 0).valid = true ∧
    (live.ascAt 0).valid = true ∧ live.hasCtx 3 = true ∧ (live.aeadAt 3).valid = false ∧
    (live.ascAt 3).valid = false := by decide

theorem witness_StreamPortLaws :
    (iota 5).length = (zeros 5).length ∧ 5 ≤ 9 ∧ 64 ∣ 128 := by decide

theorem witness_AeadTagAuthenticatesMacInput :
    oneTimeKey.length = 32 ∧ [iota 5, iota 7].flatten.length < 2 ^ 64 ∧
    (([(true, iota 64), (false, iota 3)] : List (Bool × List Byte)).map (·.2)).flatten.length <
      2 ^ 64 := by decide

theorem witness_StageOrderErrors :
    (liveIn .data).hasCtx 0 = true ∧ ((liveIn .data).aeadAt 0).stage = .data ∧
    ((liveIn .data).ascAt 0).stage = .data ∧ (liveIn .done).hasCtx 0 = true ∧
    ((liveIn .done).aeadAt 0).stage = .done ∧ ((liveIn .done).ascAt 0).stage = .done := by decide

theorem witness_StageNeverDecreases :
    (∃ t, exec (.ascWrad 0 0 9) live = .next t ∧ t.status.toNat = 0 ∧ t.result.toNat = 0) ∧
    (∀ h, Instr.ascWrad 0 0 9 ≠ .aeadInit 0 h) ∧
    (∀ src slen, Instr.ascWrad 0 0 9 ≠ .ascInit128 0 src slen ∧
      Instr.ascWrad 0 0 9 ≠ .ascInit128a 0 src slen ∧ Instr.ascWrad 0 0 9 ≠ .ascInit80pq 0 src slen) ∧
    ∀ b, Instr.ascWrad 0 0 9 ≠ .ascClone b 0 :=
  ⟨next_of_response (by decide +kernel), by simp, by simp, by simp⟩

theorem witness_AsconConstructionAnswers :
    live.hasCtx 3 = true ∧ live.inRange 0 32 = true ∧ (32 : Word).toNat = 32 ∧
    live.inRange 0xffdc 36 = true ∧ (36 : Word).toNat = 36 := by decide

theorem witness_AscWradAnswers :
    live.hasCtx 0 = true ∧ (live.ascAt 0).valid = true ∧ (live.ascAt 0).stage = .init ∧
    live.inRange 0 17 = true ∧ live.inRange 0xffffffff 0 = true := by decide

theorem witness_AscDataAnswers :
    live.hasCtx 0 = true ∧ (live.ascAt 0).valid = true ∧ (live.ascAt 0).stage ≠ .done ∧
    (33 : Word).toNat ≤ (33 : Word).toNat ∧ live.windowsOk 0 33 0 33 ∧
    (32 : Word).toNat < (33 : Word).toNat := by
  simp only [State.windowsOk]
  decide

theorem witness_AscTagAnswers :
    live.hasCtx 0 = true ∧ (live.ascAt 0).valid = true ∧ (live.ascAt 0).stage ≠ .done ∧
    live.inRange 0xfff0 16 = true ∧ (16 : Word).toNat = 16 ∧ (15 : Word).toNat < 16 ∧
    (17 : Word).toNat ≠ 16 := by decide

theorem witness_AshConstructionAndWriteAnswer :
    live.hasCtx 0 = true ∧ (live.ashAt 0).valid = true ∧ live.inRange 0 9 = true := by decide

theorem witness_AshSumAnswers :
    live.hasCtx 0 = true ∧ (live.ashAt 0).valid = true ∧
    (live.ashAt 0).dlen.toNat ≤ (32 : Word).toNat ∧ live.inRange 0xffe0 32 = true ∧
    (31 : Word).toNat < (live.ashAt 0).dlen.toNat := by decide

theorem witness_XofDigestIsPrefix : (9 : Word).toNat ≤ (64 : Word).toNat := by decide

end Sys2Proof.Tests
end

section
/-! The scope of the block (00_scope.md): a step is one act of the host carried out, it writes no
parameter, and every command gets a response. -/

namespace Sys2Proof.Machine

/-! ### One step per act of the host -/

theorem State.withInputs_withInputs (s : State) (q r : List HostAction) :
    (s.withInputs q).withInputs r = s.withInputs r := rfl

theorem State.withInputs_self (s : State) : s.withInputs s.inputs = s := rfl

theorem step_idle {s : State} (h : s.inputs = []) : step s = .next s := by
  simp [step, h]

theorem step_command {s : State} {d : Descriptor} {rest : List HostAction} {i : Instr}
    (h : s.inputs = .command d :: rest) (hd : decode d = .ok i) :
    step s = exec i (s.withInputs rest) := by
  simp [step, h, hd]

theorem step_write {s : State} {addr : Word} {data : List Byte} {rest : List HostAction}
    (h : s.inputs = .write addr data :: rest) :
    step s = (s.withInputs rest).hostWrite addr data := by
  simp [step, h]

theorem step_reset {s : State} {rest : List HostAction} (h : s.inputs = .reset :: rest) :
    step s = .next (s.withInputs rest).platformReset := by
  simp [step, h]

theorem State.hostWrite_inside {s : State} {addr : Word} {data : List Byte}
    (h : addr.toNat + data.length ≤ s.par.memSize) :
    s.hostWrite addr data = .next (s.writeBytes addr data) := by
  rw [State.hostWrite_eq, if_pos (.inr h)]

theorem State.hostWrite_outside {s : State} {addr : Word} {data : List Byte} (hne : data ≠ [])
    (h : s.par.memSize < addr.toNat + data.length) :
    s.hostWrite addr data = .fault .hostWriteOutsideMemory := by
  rw [State.hostWrite_eq, if_neg (not_or.mpr ⟨hne, Nat.not_le.mpr h⟩)]

/-- The table reading of the decoder forgets only why a word is illegal. -/
theorem decodeTableWord_eq_some {nbits w : Nat} {i : Instr} :
    decodeTableWord nbits w = some i ↔ decode (Descriptor.ofTableWord nbits w) = .ok i := by
  unfold decodeTableWord
  cases decode (Descriptor.ofTableWord nbits w) <;> simp

theorem step_withFetchWord {s : State} {nbits w : Nat} {i : Instr}
    (h : decodeTableWord nbits w = some i) : step (s.withFetchWord nbits w) = exec i s := by
  calc step (s.withFetchWord nbits w)
      = exec i ((s.withFetchWord nbits w).withInputs s.inputs) :=
        step_command rfl (decodeTableWord_eq_some.mp h)
    _ = exec i s := by
        rw [State.withFetchWord, State.withInputs_withInputs, State.withInputs_self]

/-- Settles O5: the two equations of a step on a command, from the queue and from a table word. -/
theorem stepRunsDecodedCommand : Obligations.StepRunsDecodedCommand :=
  ⟨fun _ _ _ _ h hd => step_command h hd, fun _ _ _ _ h => step_withFetchWord h⟩

/-- Settles O7: one step equation per act, and what the reset signal leaves. -/
theorem hostActsLandBetweenCommands : Obligations.HostActsLandBetweenCommands := by
  refine ⟨fun s h => step_idle h,
    fun s addr data rest h => ⟨fun hin => ?inside, fun hne hout => ?outside⟩,
    fun s rest h => ⟨_, step_reset h, ?cleared⟩⟩
  case inside =>
    rw [step_write h]
    exact State.hostWrite_inside hin
  case outside =>
    rw [step_write h]
    exact State.hostWrite_outside hne hout
  case cleared => simp

/-! ### What no step writes -/

/-- No command writes a parameter or the queue of the host's acts: in each of the ways a command can
end, the state it ends from differs in contexts only. -/
theorem exec_par_inputs {i : Instr} {s t : State} (h : exec i s = .next t) :
    t.par = s.par ∧ t.inputs = s.inputs := by
  cases exec_effect h with
  | early e he => exact ⟨rfl, rfl⟩
  | quiet u v hd hu =>
    obtain ⟨-, hpar, hinputs⟩ := hu
    exact ⟨hpar, hinputs⟩
  | writes u dst dcap X hd hr hx hu hl =>
    obtain ⟨-, hpar, hinputs⟩ := hu
    exact ⟨hpar, hinputs⟩
  | late e dst dcap hl hd hr he => exact ⟨rfl, rfl⟩

/-- Settles O13, by the act the step takes; a command's own part is `exec_par_inputs`. -/
theorem stepKeepsParameters : Obligations.StepKeepsParameters := by
  intro s t h
  rcases step_cases h with ⟨hidle, rfl⟩ | ⟨d, rest, i, hcmd, -, hexec⟩ |
    ⟨d, rest, e, hbad, -, rfl⟩ | ⟨addr, data, rest, hwrite, -, rfl⟩ | ⟨rest, hreset, rfl⟩
  · simp [hidle]
  · simpa [hcmd] using exec_par_inputs hexec
  · simp [hbad]
  · simp [hwrite]
  · simp [hreset]

/-! ### Every command gets a response -/

/-- A command responds when its body does wherever its checks pass: a failed check is a response. -/
theorem command_responds (s : State) {checks : List (Bool × Err)}
    {body : Host.Outcome State Fault Refusal}
    (h : firstError checks = none → ∃ t, body = .next t) : ∃ t, command s checks body = .next t := by
  cases he : firstError checks with
  | some e => exact ⟨s.raise e, command_of_error body he⟩
  | none =>
    rw [command_of_passed body he]
    exact h he

theorem command_next_responds (s : State) (checks : List (Bool × Err)) (u : State) :
    ∃ t, command s checks (.next u) = .next t := command_responds s fun _ => ⟨u, rfl⟩

/-- The guard of `CBC.ENC` and `CBC.DEC` on the stored IV stops no command that checks its context
for an instance, where a context that holds one stores an IV of one block. -/
theorem command_ivGuard_responds (s u : State) {checks : List (Bool × Err)} {x : CbcCtx} {bs : Nat}
    (hx : x.Ok bs) (hv : (!x.valid, Err.usage) ∈ checks) :
    ∃ t, command s checks (if x.iv.length = bs then .next u else .fault .portBlockLength) =
      .next t := by
  refine command_responds s fun hpassed => ⟨u, if_pos (hx ?_)⟩
  simpa using firstError_eq_none.mp hpassed _ hv

/-- Settles O18: the body of every command is a response, but for the guard on the stored IV in
`CBC.ENC` and `CBC.DEC`, which the premise meets. -/
theorem everyCommandResponds : Obligations.EveryCommandResponds := by
  intro i s hiv
  cases i with
  | cbcEnc c src slen dst dcap => exact command_ivGuard_responds s _ (hiv c) (by simp)
  | cbcDec c src slen dst dcap => exact command_ivGuard_responds s _ (hiv c) (by simp)
  | _ => exact command_next_responds s _ _

end Sys2Proof.Machine
end

section
/-! The Poly1305 limb machine within its bounds (10_state.md R27, 42_poly1305.md R162 to R167): a
key load clamps the multiplier, and a block step leaves limb 1 at most `0x1fff + 0x3ff` and every other
limb at most `0x1fff`, because the carry out of limb 9 stays small. -/

namespace Sys2Proof.Machine

/-! ### Limb vectors -/

theorem getD_le_of_forall_mem {l : List Nat} {b : Nat} (h : ∀ x ∈ l, x ≤ b) (i : Nat) :
    l.getD i 0 ≤ b := by
  rw [List.getD_eq_getElem?_getD]
  cases hx : l[i]? with
  | none => simp
  | some x => exact h x (List.mem_of_getElem? hx)

theorem limbsOf_succ (w v n : Nat) :
    limbsOf w v (n + 1) = v % 2 ^ w :: limbsOf w (v / 2 ^ w) n := by
  simp only [limbsOf, List.range_succ_eq_map, List.map_cons, List.map_map,
    Nat.and_two_pow_sub_one_eq_mod, Nat.shiftRight_eq_div_pow]
  refine congrArg₂ _ (by simp) (List.map_congr_left fun i _ => ?_)
  simp only [Function.comp_apply, Nat.succ_eq_add_one, Nat.div_div_eq_div_mul, ← pow_add]
  rw [Nat.mul_add, Nat.mul_one, Nat.add_comm]

/-- Digits stand for the number they are digits of, as far as they reach. -/
theorem limbValue_limbsOf (w v n : Nat) : limbValue w (limbsOf w v n) = v % 2 ^ (w * n) := by
  induction n generalizing v with
  | zero => simp [limbsOf, limbValue, Nat.mod_one]
  | succ n ih =>
    rw [limbsOf_succ, limbValue, ih, Nat.mul_add, Nat.mul_one, Nat.add_comm (w * n), pow_add,
      Nat.mod_mul]

theorem lt_of_mem_limbsOf {w v n x : Nat} (h : x ∈ limbsOf w v n) : x < 2 ^ w := by
  simp only [limbsOf, List.mem_map] at h
  obtain ⟨i, -, rfl⟩ := h
  rw [Nat.and_two_pow_sub_one_eq_mod]
  exact Nat.mod_lt _ (Nat.two_pow_pos w)

/-- Numbers that fit their storage read back as they were stored. -/
theorem limbs_storeLimbs {w n : Nat} {l : List Nat} (hn : l.length = n) (hl : ∀ x ∈ l, x < 2 ^ w) :
    limbs (storeLimbs w n l) = l := by
  subst hn
  refine List.ext_getElem (by simp) fun i _ hi => ?_
  simp [limbs, storeLimbs, Nat.mod_eq_of_lt (hl _ (List.getElem_mem hi))]

theorem limbs_le {w n b : Nat} {v : Vector (BitVec w) n} (h : ∀ i : Fin n, v[i].toNat ≤ b) :
    ∀ x ∈ limbs v, x ≤ b := by
  intro x hx
  simp only [limbs, List.mem_map, Vector.mem_toList_iff] at hx
  obtain ⟨d, hd, rfl⟩ := hx
  obtain ⟨i, hi, rfl⟩ := Vector.getElem_of_mem hd
  exact h ⟨i, hi⟩

/-! ### The block step -/

theorem blockLimbs_le {B : List Byte} (hB : B.length ≤ 16) (final : Bool) :
    ∀ x ∈ blockLimbs B final, x ≤ 0x1fff := by
  intro x hx
  rw [blockLimbs, List.mem_append, List.mem_singleton] at hx
  rcases hx with hx | rfl
  · have := lt_of_mem_limbsOf hx
    omega
  · have hlt : leNat B < 2 ^ 128 := calc
      leNat B < 256 ^ B.length := leNat_lt B
      _ ≤ 256 ^ 16 := Nat.pow_le_pow_right (by decide) hB
    have hhigh : leNat B >>> 117 < 2 ^ 12 := by rw [Nat.shiftRight_eq_div_pow]; omega
    have hbit : (if final then 0 else 0x0800) < 2 ^ 12 := by cases final <;> decide
    have := Nat.or_lt_two_pow hhigh hbit
    omega

/-- A limb of an accumulator within R27 and a limb of a block add up to at most this. -/
theorem addBlock_le {a : List Nat} {B : List Byte} (ha : ∀ x ∈ a, x ≤ 0x1fff + 0x3ff)
    (hB : B.length ≤ 16) (final : Bool) :
    ∀ x ∈ addBlock a B final, x ≤ 0x1fff + 0x3ff + 0x1fff := by
  intro x hx
  obtain ⟨i, hi, rfl⟩ := List.getElem_of_mem hx
  simp only [addBlock, List.length_zipWith] at hi
  simp only [addBlock, List.getElem_zipWith]
  exact Nat.add_le_add (ha _ (List.getElem_mem (by omega)))
    (blockLimbs_le hB final _ (List.getElem_mem (by omega)))

theorem mulFactor_le {r : List Nat} (hr : ∀ x ∈ r, x ≤ 0x1fff) (i j : Nat) :
    mulFactor r i j ≤ 5 * 0x1fff := by
  have h₁ := getD_le_of_forall_mem hr (i - j)
  have h₂ := getD_le_of_forall_mem hr (i + 10 - j)
  unfold mulFactor
  split <;> omega

theorem halfColumn_le {a r : List Nat} {b : Nat} (ha : ∀ x ∈ a, x ≤ b) (hr : ∀ x ∈ r, x ≤ 0x1fff)
    (i j : Nat) : halfColumn a r i j ≤ 5 * (b * (5 * 0x1fff)) := by
  have := List.sum_le_card_nsmul
    ((List.range 5).map fun k => a.getD (j + k) 0 * mulFactor r i (j + k)) (b * (5 * 0x1fff)) (by
      intro x hx
      obtain ⟨k, -, rfl⟩ := List.mem_map.mp hx
      exact Nat.mul_le_mul (getD_le_of_forall_mem ha _) (mulFactor_le hr _ _))
  simpa [halfColumn] using this

/-- The bound on the carry from one output limb to the next: it keeps itself, and five times the
carry out of the last limb still leaves less than `0x400` to limb 1. -/
def carryBound : Nat := 870300

theorem column_fst_le (a r : List Nat) (i c : Nat) : (column a r i c).1 ≤ 0x1fff :=
  Nat.and_le_right

theorem column_carry_le {a r : List Nat} (ha : ∀ x ∈ a, x ≤ 0x1fff + 0x3ff + 0x1fff)
    (hr : ∀ x ∈ r, x ≤ 0x1fff) (i : Nat) {c : Nat} (hc : c ≤ carryBound) :
    (column a r i c).2 ≤ carryBound := by
  have h₀ := halfColumn_le ha hr i 0
  have h₅ := halfColumn_le ha hr i 5
  have hlow := Nat.and_le_right (n := c + halfColumn a r i 0) (m := 0x1fff)
  simp only [column, Nat.shiftRight_eq_div_pow]
  unfold carryBound at *
  omega

theorem columns_bounds {a r : List Nat} (ha : ∀ x ∈ a, x ≤ 0x1fff + 0x3ff + 0x1fff)
    (hr : ∀ x ∈ r, x ≤ 0x1fff) (n : Nat) :
    (∀ x ∈ (columns a r n).1, x ≤ 0x1fff) ∧ (columns a r n).2 ≤ carryBound := by
  induction n with
  | zero => simp [columns]
  | succ n ih =>
    obtain ⟨hlimbs, hcarry⟩ := ih
    refine ⟨fun x hx => ?_, column_carry_le ha hr n hcarry⟩
    rw [columns, List.mem_append, List.mem_singleton] at hx
    rcases hx with hx | rfl
    · exact hlimbs x hx
    · exact column_fst_le ..

theorem getD_set_le (l : List Nat) (j x i : Nat) :
    (l.set j x).getD i 0 ≤ if i = j then x else l.getD i 0 := by
  simp only [List.getD_eq_getElem?_getD, List.getElem?_set, eq_comm (a := j)]
  by_cases hij : i = j
  · by_cases hl : j < l.length <;> simp [hij, hl]
  · simp [hij]

/-- Folding a bounded carry into bounded limbs: only limb 1 may pass 13 bits. -/
theorem foldCarry_getD_le {D : List Nat} {c : Nat} (hD : ∀ x ∈ D, x ≤ 0x1fff) (hc : c ≤ carryBound)
    (i : Nat) : (foldCarry D c).getD i 0 ≤ if i = 1 then 0x1fff + 0x3ff else 0x1fff := by
  have hup : (5 * c + D.getD 0 0) >>> 13 ≤ 0x3ff := by
    have := getD_le_of_forall_mem hD 0
    rw [Nat.shiftRight_eq_div_pow]
    unfold carryBound at hc
    omega
  refine (getD_set_le _ _ _ _).trans ?_
  by_cases h₁ : i = 1
  · rw [if_pos h₁, if_pos h₁]
    exact Nat.add_le_add (getD_le_of_forall_mem hD 1) hup
  · rw [if_neg h₁, if_neg h₁]
    refine (getD_set_le _ _ _ _).trans ?_
    by_cases h₀ : i = 0
    · rw [if_pos h₀]
      exact Nat.and_le_right
    · rw [if_neg h₀]
      exact getD_le_of_forall_mem hD i

theorem mulLimbs_getD_le {a r : List Nat} (ha : ∀ x ∈ a, x ≤ 0x1fff + 0x3ff + 0x1fff)
    (hr : ∀ x ∈ r, x ≤ 0x1fff) (i : Nat) :
    (mulLimbs a r).getD i 0 ≤ if i = 1 then 0x1fff + 0x3ff else 0x1fff := by
  obtain ⟨hlimbs, hcarry⟩ := columns_bounds ha hr 10
  exact foldCarry_getD_le hlimbs hcarry i

theorem storeLimbs_toNat_le (w n : Nat) (l : List Nat) (i : Fin n) :
    (storeLimbs w n l)[i].toNat ≤ l.getD i 0 := by
  simpa [storeLimbs] using Nat.mod_le (l.getD i 0) (2 ^ w)

theorem P13State.limbs_a_le {st : P13State} (h : st.limbsBounded) :
    ∀ x ∈ limbs st.a, x ≤ 0x1fff + 0x3ff :=
  limbs_le fun i => (h i).trans (by split <;> decide)

theorem P13State.limbs_r_le (st : P13State) : ∀ x ∈ limbs st.r, x ≤ 0x1fff :=
  limbs_le fun i => Nat.le_of_lt_succ st.r[i].isLt

/-- A block step keeps the accumulator within R27. -/
theorem P13State.block_limbsBounded {st : P13State} {B : List Byte} (h : st.limbsBounded)
    (hB : B.length ≤ 16) (final : Bool) : (st.block B final).limbsBounded := fun i =>
  (storeLimbs_toNat_le 16 10 _ i).trans
    (mulLimbs_getD_le (addBlock_le (limbs_a_le h) hB final) st.limbs_r_le i)

/-! ### Key load and absorbing -/

theorem P13State.load_limbsBounded (K : List Byte) (junk : Vector Byte 16) :
    (P13State.load K junk).limbsBounded := fun i =>
  (storeLimbs_toNat_le 16 10 [] i).trans (by simp)

theorem P13State.load_multiplier (K : List Byte) (junk : Vector Byte 16) :
    (P13State.load K junk).multiplier = leNat (slice K 0 16) &&& clampMask := by
  have hle : leNat (slice K 0 16) &&& clampMask ≤ clampMask := Nat.and_le_right
  rw [P13State.multiplier, P13State.load,
    limbs_storeLimbs (limbsOf_length ..) fun _ => lt_of_mem_limbsOf, limbValue_limbsOf]
  exact Nat.mod_eq_of_lt (hle.trans_lt (by decide))

theorem P13State.load_ok (K : List Byte) (junk : Vector Byte 16) : (P13State.load K junk).Ok :=
  fun _ => ⟨load_limbsBounded K junk, by rw [load_multiplier, Nat.and_assoc, Nat.and_self]⟩

theorem P13State.absorb_ok {st : P13State} (h : st.Ok) (b : Byte) : (st.absorb b).Ok := by
  intro hv
  rw [absorb_valid] at hv
  obtain ⟨hbound, hclamp⟩ := h hv
  refine ⟨?_, by rwa [P13State.multiplier, absorb_r]⟩
  rcases st.absorb_cases b with ⟨-, he⟩ | ⟨-, he⟩ <;> rw [he]
  · exact hbound
  · exact P13State.block_limbsBounded (st := { st with buf := _ }) hbound (by simp) false

theorem P13State.write_ok {st : P13State} (h : st.Ok) (X : List Byte) : (st.write X).Ok := by
  induction X generalizing st with
  | nil => exact h
  | cons b X ih => exact ih (absorb_ok h b)

/-- A record that holds no instance is under no bound. -/
theorem P13State.ok_of_not_valid {st : P13State} (h : st.valid = false) : st.Ok := fun hv => by
  simp [h] at hv

end Sys2Proof.Machine
end

section
/-! What a command makes of the contexts, said once for all commands: which context it changes, that
the command names it and it exists, and which operation of the unit gives its new fields. Which
contexts change, the limb bounds, the sequencing state and the stage all rest on this. -/

namespace Sys2Proof.Machine

/-- Command `i` belongs to unit `unit` and names context `c`, which exists. -/
structure Names (i : Instr) (s : State) (unit : Nat) (c : Ctx) : Prop where
  unit_eq : i.unit = unit
  mem_contexts : c ∈ i.contexts
  present : s.hasCtx c = true

/-- A construction of the Ascon context `c` (44_ascon.md R236). -/
def MakesAsc (i : Instr) (c : Ctx) : Prop :=
  ∃ src slen, i = .ascInit128 c src slen ∨ i = .ascInit128a c src slen ∨ i = .ascInit80pq c src slen

/-- What a P13 command can leave in context `c`. -/
inductive P13Next (s : State) (c : Ctx) : P13State → Prop where
  | load (K : List Byte) (junk : Vector Byte 16) : P13Next s c (.load K junk)
  | write (X : List Byte) (hv : (s.p13At c).valid = true) : P13Next s c ((s.p13At c).write X)
  | consume (event : Nat) : P13Next s c (consumedP13 event c)
  | clone (b : Ctx) (hv : (s.p13At b).valid = true) : P13Next s c (s.p13At b)

/-- What an AEAD command but the construction can leave in context `c`. Encryption and decryption
differ in the bytes `Y` they hash. -/
inductive AeadNext (x : AeadCtx) (c : Ctx) : AeadCtx → Prop where
  | writeAD (X : List Byte) (hg : x.stage.beforeData = true) : AeadNext x c (x.writeAD X)
  | data (Y : List Byte) (calls : List Nat) (hg : x.stage ≠ .done) :
      AeadNext x c { x.finalizeAD.hashCiphertext Y with sigma := { x.sigma with calls := calls } }
  | consume (event : Nat) : AeadNext x c (consumedAead event c)

/-- Context `y` is `x` in the data phase, after the associated data or further into it. -/
structure AscCtx.InData (x y : AscCtx) : Prop where
  valid : y.valid = x.valid
  var : y.var = x.var
  key : y.key = x.key
  stage : y.stage = .data
  cur_lt : x.cur.toNat < x.var.rate → y.cur.toNat < y.var.rate

/-- A loop over data bytes that keeps what the end of associated data left is in the data phase. -/
theorem AscCtx.inData_of_finalizeAD {x y : AscCtx} (hg : x.stage ≠ .done)
    (hvalid : y.valid = x.finalizeAD.valid) (hvar : y.var = x.finalizeAD.var)
    (hstage : y.stage = x.finalizeAD.stage) (hkey : y.key = x.finalizeAD.key)
    (hcur : x.finalizeAD.cur.toNat < x.finalizeAD.var.rate →
      y.cur.toNat < x.finalizeAD.var.rate) : x.InData y where
  valid := by simp [hvalid]
  var := by simp [hvar]
  key := by simp [hkey]
  stage := hstage.trans (x.finalizeAD_stage hg)
  cur_lt h := hvar ▸ hcur (by simpa using x.finalizeAD_cur_lt h)

theorem AscCtx.encrypt_inData {x : AscCtx} (hg : x.stage ≠ .done) (X : List Byte) :
    x.InData (x.encrypt X).1 := by
  obtain ⟨hvalid, hvar, hstage, -, hkey, -, hcur⟩ := x.finalizeAD.encLoop_frame X
  exact inData_of_finalizeAD hg hvalid hvar hstage hkey hcur

theorem AscCtx.decrypt_inData {x : AscCtx} (hg : x.stage ≠ .done) (X : List Byte) :
    x.InData (x.decrypt X).1 := by
  obtain ⟨hvalid, hvar, hstage, -, hkey, -, hcur⟩ := x.finalizeAD.decLoop_frame X
  exact inData_of_finalizeAD hg hvalid hvar hstage hkey hcur

/-- What an ASC command can leave in context `c`. -/
inductive AscNext (i : Instr) (s : State) (c : Ctx) : AscCtx → Prop where
  | construct (v : AscVar) (K N : List Byte) (hi : MakesAsc i c) (hK : K.length = v.klen) :
      AscNext i s c (.construct v K N)
  | clone (b : Ctx) (hi : i = .ascClone b c) (hv : (s.ascAt b).valid = true) :
      AscNext i s c (s.ascAt b)
  | writeAD (X : List Byte) (hv : (s.ascAt c).valid = true)
      (hg : (s.ascAt c).stage.beforeData = true) : AscNext i s c ((s.ascAt c).writeAD X)
  | data {y : AscCtx} (hv : (s.ascAt c).valid = true) (hg : (s.ascAt c).stage ≠ .done)
      (hy : (s.ascAt c).InData y) : AscNext i s c y
  | consume (event : Nat) (hv : (s.ascAt c).valid = true) : AscNext i s c (consumedAsc event c)

/-- What an ASH command can leave in context `c`. -/
inductive AshNext (s : State) (c : Ctx) : AshCtx → Prop where
  | construct (v : AshVar) (n : Word) (hn : v = .hash → n = 32) : AshNext s c (.construct v n)
  | write (X : List Byte) (hv : (s.ashAt c).valid = true) : AshNext s c ((s.ashAt c).write X)
  | consume (event : Nat) : AshNext s c (consumedAsh event c)
  | clone (b : Ctx) (hv : (s.ashAt b).valid = true) : AshNext s c (s.ashAt b)

/-- What a command can make of the contexts of `s`, nothing else being changed. -/
inductive ContextUpdate (i : Instr) (s : State) : State → Prop where
  | none : ContextUpdate i s s
  | cbc {c : Ctx} (hc : Names i s 2 c) (sch : Scheme) (iv : List Byte)
      (hl : iv.length = s.blockSizeAt c) : ContextUpdate i s (s.setCbc c ⟨true, sch, iv⟩)
  | p13 {c : Ctx} (hc : Names i s 3 c) {x : P13State} (hx : P13Next s c x) :
      ContextUpdate i s (s.setP13 c x)
  | p13FromHandle {c h : Ctx} (hc : Names i s 3 c) (hh : Names i s 3 h) (K : List Byte)
      (junk : Vector Byte 16) (calls : List Nat) :
      ContextUpdate i s ((s.setSc h
        { s.scAt h with sigma := { (s.scAt h).sigma with calls := calls } }).setP13 c
          (.load K junk))
  | sc {h : Ctx} (hh : Names i s 4 h) (cipher : Cipher) (K N : List Byte) (hK : K.length = 32)
      (hN : N.length = nonceLength cipher) :
      ContextUpdate i s (s.setSc h ⟨true, cipher, scFresh cipher K N⟩)
  | aead {c : Ctx} (hc : Names i s 5 c) {x : AeadCtx} (hv : (s.aeadAt c).valid = true)
      (hx : AeadNext (s.aeadAt c) c x) : ContextUpdate i s (s.setAead c x)
  | aeadFromHandle {c h : Ctx} (hi : i = .aeadInit c h) (hc : Names i s 5 c) (hh : Names i s 5 h)
      (hv : (s.scAt h).valid = true) (K : List Byte) (junk : Vector Byte 16) (calls : List Nat)
      (event : Nat) :
      ContextUpdate i s ((s.setAead c
        { valid := true, cipher := (s.scAt h).cipher,
          sigma := { (s.scAt h).sigma with calls := calls },
          poly := .load K junk, stage := .init, adLen := 0, ctLen := 0 }).setSc h
            (consumedSc event h))
  | asc {c : Ctx} (hc : Names i s 6 c) {x : AscCtx} (hx : AscNext i s c x) :
      ContextUpdate i s (s.setAsc c x)
  | ash {c : Ctx} (hc : Names i s 7 c) {x : AshCtx} (hx : AshNext s c x) :
      ContextUpdate i s (s.setAsh c x)

/-- The contexts of `t` are those a command can make of the contexts of `s`. -/
def ContextsFollow (i : Instr) (s t : State) : Prop :=
  ∃ u, ContextUpdate i s u ∧ ∀ c, u.sameContextsAt t c

/-! ### The ends of a command leave the contexts -/

theorem State.sameContextsAt_refl (s : State) (c : Ctx) : s.sameContextsAt s c :=
  ⟨rfl, rfl, rfl, rfl, rfl, rfl⟩

theorem ContextsFollow.raise (i : Instr) (s : State) (e : Err) : ContextsFollow i s (s.raise e) :=
  ⟨s, .none, s.sameContextsAt_refl⟩

theorem ContextsFollow.finish {i : Instr} {s u : State} (h : ContextUpdate i s u) (v : Nat) :
    ContextsFollow i s (u.finish v) := ⟨u, h, u.sameContextsAt_refl⟩

theorem ContextsFollow.tick_finish {i : Instr} {s u : State} (h : ContextUpdate i s u) (v : Nat) :
    ContextsFollow i s (u.tick.finish v) := ⟨u, h, u.sameContextsAt_refl⟩

theorem ContextsFollow.output {i : Instr} {s u : State} (h : ContextUpdate i s u) (dst : Word)
    (X : List Byte) : ContextsFollow i s (u.output dst X) := ⟨u, h, u.sameContextsAt_refl⟩

theorem ContextsFollow.tick_output {i : Instr} {s u : State} (h : ContextUpdate i s u) (dst : Word)
    (X : List Byte) : ContextsFollow i s (u.tick.output dst X) := ⟨u, h, u.sameContextsAt_refl⟩

theorem ContextsFollow.lateOutput (i : Instr) (s : State) (dst dcap : Word)
    (U : Option (List Byte)) : ContextsFollow i s (s.lateOutput dst dcap U) := by
  rcases s.lateOutput_cases dst dcap U with ⟨X, -, -, h⟩ | ⟨X, -, -, h⟩ | ⟨-, h⟩ <;>
    rw [h] <;> exact ⟨s, .none, s.sameContextsAt_refl⟩

/-! ### The unit a command belongs to -/

/-- The unit of a command is the one its header word is put together from (R91). -/
theorem unit_of_encode {i : Instr} {unit op var : Nat} {c d : Ctx} {w1 w2 w3 w4 w5 : Word}
    (h : encode i = ⟨header unit op c d var, w1, w2, w3, w4, w5⟩)
    (hu : unit < 16 := by decide) (ho : op < 16 := by decide) (hv : var < 256 := by decide) :
    i.unit = unit := by
  rw [Instr.unit, h, header_unit c d w1 w2 w3 w4 w5 hu ho hv]

section NamedContexts

variable {i : Instr} {s : State} {c b d e : Ctx} {l : List Ctx} {unit op var : Nat}
  {w1 w2 w3 w4 w5 : Word}

/-- The context of the field `CTX`. -/
theorem Names.first (hc : s.hasCtx c = true) (hl : i.contexts = c :: l := by rfl)
    (h : encode i = ⟨header unit op d e var, w1, w2, w3, w4, w5⟩ := by rfl)
    (hu : unit < 16 := by decide) (ho : op < 16 := by decide) (hv : var < 256 := by decide) :
    Names i s unit c :=
  ⟨unit_of_encode h hu ho hv, hl ▸ List.mem_cons_self, hc⟩

/-- The context of the field `CTX2`. -/
theorem Names.second (hb : s.hasCtx b = true) (hl : i.contexts = c :: b :: l := by rfl)
    (h : encode i = ⟨header unit op d e var, w1, w2, w3, w4, w5⟩ := by rfl)
    (hu : unit < 16 := by decide) (ho : op < 16 := by decide) (hv : var < 256 := by decide) :
    Names i s unit b :=
  ⟨unit_of_encode h hu ho hv, hl ▸ List.mem_cons_of_mem _ List.mem_cons_self, hb⟩

end NamedContexts

/-! ### All commands -/

/-- The contexts after a command are those its unit's operation leaves. -/
theorem exec_contexts {i : Instr} {s t : State} (h : exec i s = .next t) :
    ContextsFollow i s t := by
  cases i with
  | padszZ slen imm =>
    rcases execPadszZ_cases h with ⟨e, -, rfl⟩ | ⟨-, -, -, rfl⟩
    · exact .raise ..
    · exact .finish .none _
  | padszP7 slen imm =>
    rcases execPadszP7_cases h with ⟨e, -, rfl⟩ | ⟨-, -, rfl⟩
    · exact .raise ..
    · exact .finish .none _
  | padszI4 slen imm =>
    rcases execPadszI4_cases h with ⟨e, -, rfl⟩ | ⟨-, -, rfl⟩
    · exact .raise ..
    · exact .finish .none _
  | padZ src slen dst dcap imm | padP7 src slen dst dcap imm | padI4 src slen dst dcap imm =>
    rcases execPad_cases h with ⟨e, -, rfl⟩ | ⟨-, -, -, -, -, -, -, rfl⟩
    · exact .raise ..
    · exact .output .none _ _
  | unpadZ src slen dst dcap | unpadP7 src slen dst dcap | unpadI4 src slen dst dcap =>
    rcases execUnpad_cases h with ⟨e, -, rfl⟩ | ⟨-, -, -, rfl⟩
    · exact .raise ..
    · exact .lateOutput ..
  | cbcInit c scheme src slen =>
    rcases execCbcInit_cases h with ⟨e, -, rfl⟩ | ⟨hc, hl, -, rfl⟩
    · exact .raise ..
    · exact .finish (.cbc (.first hc (hv := scheme.code_lt)) scheme _ (by simpa using hl)) _
  | cbcEncsz c slen =>
    rcases execCbcEncsz_cases h with ⟨e, -, rfl⟩ | ⟨-, -, -, rfl⟩
    · exact .raise ..
    · exact .finish .none _
  | cbcEnc c src slen dst dcap =>
    rcases execCbcEnc_cases h with ⟨e, -, rfl⟩ | ⟨-, -, -, -, -, -, -, rfl⟩
    · exact .raise ..
    · exact .output .none _ _
  | cbcDec c src slen dst dcap =>
    rcases execCbcDec_cases h with ⟨e, -, rfl⟩ | ⟨-, -, -, -, -, -, -, rfl⟩
    · exact .raise ..
    · exact .lateOutput ..
  | p13Init c src slen =>
    rcases execP13Init_cases h with ⟨e, -, rfl⟩ | ⟨hc, -, -, rfl⟩
    · exact .raise ..
    · exact .tick_finish (.p13 (.first hc) (.load ..)) _
  | p13Initsc c h =>
    rcases execP13Initsc_cases ‹_› with ⟨e, -, rfl⟩ | ⟨hc, hh, -, -, rfl⟩
    · exact .raise ..
    · exact .tick_finish (.p13FromHandle (.first hc) (.second hh) ..) _
  | p13Write c src slen =>
    rcases execP13Write_cases h with ⟨e, -, rfl⟩ | ⟨hc, hv, -, rfl⟩
    · exact .raise ..
    · exact .finish (.p13 (.first hc) (.write _ hv)) _
  | p13Sumin c dst dcap =>
    rcases execP13Sumin_cases h with ⟨e, -, rfl⟩ | ⟨hc, -, -, -, rfl⟩
    · exact .raise ..
    · exact .tick_output (.p13 (.first hc) (.consume _)) _ _
  | p13Sum c dst dcap =>
    rcases execP13Sum_cases h with ⟨e, -, rfl⟩ | ⟨-, -, -, -, rfl⟩
    · exact .raise ..
    · exact .output .none _ _
  | p13Clone c d =>
    rcases execP13Clone_cases h with ⟨e, -, rfl⟩ | ⟨-, hd, hv, rfl⟩
    · exact .raise ..
    · exact .finish (.p13 (.second hd) (.clone c hv)) _
  | scInitCc20 h src slen | scInitSs20 h src slen | scInitXcc20 h src slen
  | scInitXss20 h src slen =>
    rcases execScInit_cases ‹_› with ⟨e, -, rfl⟩ | ⟨hh, hl, -, rfl⟩
    · exact .raise ..
    · exact .finish (.sc (.first hh) _ _ _ (by simp [hl]) (by simp [hl, nonceLength])) _
  | aeadInit c h =>
    rcases execAeadInit_cases ‹_› with ⟨e, -, rfl⟩ | ⟨hc, hh, hv, -, rfl⟩
    · exact .raise ..
    · exact .tick_finish (.aeadFromHandle rfl (.first hc) (.second hh) hv ..) _
  | aeadWrad c src slen =>
    rcases execAeadWrad_cases h with ⟨e, -, rfl⟩ | ⟨hc, hv, hg, -, -, rfl⟩
    · exact .raise ..
    · exact .finish (.aead (.first hc) hv (.writeAD _ hg)) _
  | aeadEnc c src slen dst dcap =>
    rcases execAeadEnc_cases h with ⟨e, -, rfl⟩ | ⟨hc, hv, hg, -, -, -, -, -, rfl⟩
    · exact .raise ..
    · exact .output (.aead (.first hc) hv (.data _ _ hg)) _ _
  | aeadDec c src slen dst dcap =>
    rcases execAeadDec_cases h with ⟨e, -, rfl⟩ | ⟨hc, hv, hg, -, -, -, -, -, rfl⟩
    · exact .raise ..
    · exact .output (.aead (.first hc) hv (.data _ _ hg)) _ _
  | aeadFin c dst dcap =>
    rcases execAeadFin_cases h with ⟨e, -, rfl⟩ | ⟨hc, hv, -, -, -, rfl⟩
    · exact .raise ..
    · exact .tick_output (.aead (.first hc) hv (.consume _)) _ _
  | aeadVfy c src slen =>
    rcases execAeadVfy_cases h with ⟨e, -, rfl⟩ | ⟨hc, hv, -, -, -, rfl⟩
    · exact .raise ..
    · exact .tick_finish (.aead (.first hc) hv (.consume _)) _
  | aeadEncsz c slen =>
    rcases execAeadEncsz_cases h with ⟨e, -, rfl⟩ | ⟨-, -, rfl⟩
    · exact .raise ..
    · exact .finish .none _
  | ascInit128 c src slen | ascInit128a c src slen | ascInit80pq c src slen =>
    rcases execAscInit_cases h with ⟨e, -, rfl⟩ | ⟨hc, hl, -, rfl⟩
    · exact .raise ..
    · exact .finish (.asc (.first hc) (.construct _ _ _ ⟨src, slen, by simp⟩ (by simp [hl]))) _
  | ascWrad c src slen =>
    rcases execAscWrad_cases h with ⟨e, -, rfl⟩ | ⟨hc, hv, hg, -, rfl⟩
    · exact .raise ..
    · exact .finish (.asc (.first hc) (.writeAD _ hv hg)) _
  | ascEnc c src slen dst dcap =>
    rcases execAscEnc_cases h with ⟨e, -, rfl⟩ | ⟨hc, hv, hg, -, -, -, -, rfl⟩
    · exact .raise ..
    · exact .output (.asc (.first hc) (.data hv hg (AscCtx.encrypt_inData hg _))) _ _
  | ascDec c src slen dst dcap =>
    rcases execAscDec_cases h with ⟨e, -, rfl⟩ | ⟨hc, hv, hg, -, -, -, -, rfl⟩
    · exact .raise ..
    · exact .output (.asc (.first hc) (.data hv hg (AscCtx.decrypt_inData hg _))) _ _
  | ascFin c dst dcap =>
    rcases execAscFin_cases h with ⟨e, -, rfl⟩ | ⟨hc, hv, -, -, -, rfl⟩
    · exact .raise ..
    · exact .tick_output (.asc (.first hc) (.consume _ hv)) _ _
  | ascVfy c src slen =>
    rcases execAscVfy_cases h with ⟨e, -, rfl⟩ | ⟨hc, hv, -, -, -, rfl⟩
    · exact .raise ..
    · exact .tick_finish (.asc (.first hc) (.consume _ hv)) _
  | ascEncsz c slen =>
    rcases execAscEncsz_cases h with ⟨e, -, rfl⟩ | ⟨-, -, rfl⟩
    · exact .raise ..
    · exact .finish .none _
  | ascClone c d =>
    rcases execAscClone_cases h with ⟨e, -, rfl⟩ | ⟨-, hd, hv, rfl⟩
    · exact .raise ..
    · exact .finish (.asc (.second hd) (.clone c rfl hv)) _
  | ashInitHash c =>
    rcases execAshInitHash_cases h with ⟨e, -, rfl⟩ | ⟨hc, rfl⟩
    · exact .raise ..
    · exact .finish (.ash (.first hc) (.construct _ _ fun _ => rfl)) _
  | ashInitXof c imm =>
    rcases execAshInitXof_cases h with ⟨e, -, rfl⟩ | ⟨hc, rfl⟩
    · exact .raise ..
    · exact .finish (.ash (.first hc) (.construct _ _ (by simp))) _
  | ashWrite c src slen =>
    rcases execAshWrite_cases h with ⟨e, -, rfl⟩ | ⟨hc, hv, -, rfl⟩
    · exact .raise ..
    · exact .finish (.ash (.first hc) (.write _ hv)) _
  | ashSumin c dst dcap =>
    rcases execAshSumin_cases h with ⟨e, -, rfl⟩ | ⟨hc, -, -, -, rfl⟩
    · exact .raise ..
    · exact .tick_output (.ash (.first hc) (.consume _)) _ _
  | ashSum c dst dcap =>
    rcases execAshSum_cases h with ⟨e, -, rfl⟩ | ⟨-, -, -, -, rfl⟩
    · exact .raise ..
    · exact .output .none _ _
  | ashClone c d =>
    rcases execAshClone_cases h with ⟨e, -, rfl⟩ | ⟨-, hd, hv, rfl⟩
    · exact .raise ..
    · exact .finish (.ash (.second hd) (.clone c hv)) _

end Sys2Proof.Machine
end

section
/-! What every step keeps: the limb bounds (10_state.md R27, 42_poly1305.md R162), the sequencing
state (10_state.md R25 to R32), the buffer memory (R23) and the response codes (60_exceptions.md
R280). -/

namespace Sys2Proof.Machine

/-! ### Invariants of a step -/

/-- What every command, a refused descriptor, a host write and the reset signal keep, whatever the
acts still to come, every step keeps. -/
theorem step_keeps {P : State → Prop} (hinputs : ∀ s q, P s → P (s.withInputs q))
    (hexec : ∀ i s t, P s → exec i s = .next t → P t) (hillegal : ∀ s, P s → P (s.raise .illegal))
    (hwrite : ∀ s addr data, P s → (data = [] ∨ addr.toNat + data.length ≤ s.par.memSize) →
      P (s.writeBytes addr data))
    (hreset : ∀ s, P s → P s.platformReset) (s t : State) (hs : P s)
    (h : step s = .next t) : P t := by
  rcases step_cases h with ⟨-, rfl⟩ | ⟨d, rest, i, -, -, hexec'⟩ | ⟨d, rest, e, -, -, rfl⟩ |
    ⟨addr, data, rest, -, hdata, rfl⟩ | ⟨rest, -, rfl⟩
  · exact hs
  · exact hexec i _ t (hinputs s rest hs) hexec'
  · exact hillegal _ (hinputs s rest hs)
  · exact hwrite _ addr data (hinputs s rest hs) hdata
  · exact hreset _ (hinputs s rest hs)

/-- A property of all slots holds after one of them is written with what has it. -/
theorem forall_slot_setSlot {α : Type} {P : Ctx → α → Prop} {v : Vector α 16} {c : Ctx} {x : α}
    (hv : ∀ d, P d (slot v d)) (hx : P c x) (d : Ctx) : P d (slot (setSlot v c x) d) := by
  rw [slot_setSlot]
  split
  case isTrue h => exact h ▸ hx
  case isFalse => exact hv d

/-- No unit holds an instance, as right after reset (R39). -/
def State.NoInstances (s : State) : Prop :=
  ∀ c : Ctx, (s.cbcAt c).valid = false ∧ (s.p13At c).valid = false ∧ (s.scAt c).valid = false ∧
    (s.aeadAt c).valid = false ∧ (s.ascAt c).valid = false ∧ (s.ashAt c).valid = false

theorem State.platformReset_noInstances (s : State) : s.platformReset.NoInstances :=
  fun _ => by simp

/-! ### Limb bounds -/

theorem P13Next.ok {s : State} {c : Ctx} {x : P13State} (h : P13Next s c x)
    (hs : ∀ d, (s.p13At d).Ok) : x.Ok := by
  cases h with
  | load K junk => exact P13State.load_ok K junk
  | write X hv => exact P13State.write_ok (hs c) X
  | consume event => exact P13State.ok_of_not_valid rfl
  | clone b hv => exact hs b

theorem AeadCtx.finalizeAD_poly_ok {x : AeadCtx} (h : x.poly.Ok) : x.finalizeAD.poly.Ok := by
  rcases x.finalizeAD_cases with ⟨-, e⟩ | ⟨-, e⟩ <;> rw [e]
  · exact h
  · exact P13State.write_ok h _

theorem AeadNext.poly_ok {c : Ctx} {x y : AeadCtx} (h : AeadNext x c y) (hx : x.poly.Ok) :
    y.poly.Ok := by
  cases h with
  | writeAD X hg => exact P13State.write_ok hx X
  | data Y calls hg => exact P13State.write_ok (AeadCtx.finalizeAD_poly_ok hx) Y
  | consume event => exact P13State.ok_of_not_valid rfl

theorem State.NoInstances.limbsOk {s : State} (h : s.NoInstances) : s.LimbsOk := by
  refine ⟨fun c => ?_, fun c hv => ?_⟩
  · obtain ⟨-, hp13, -⟩ := h c
    exact P13State.ok_of_not_valid hp13
  · obtain ⟨-, -, -, haead, -⟩ := h c
    simp [haead] at hv

theorem ContextUpdate.limbsOk {i : Instr} {s u : State} (h : ContextUpdate i s u) (hs : s.LimbsOk) :
    u.LimbsOk := by
  obtain ⟨hp13, haead⟩ := hs
  cases h with
  | none => exact ⟨hp13, haead⟩
  | cbc hc sch iv hl => exact ⟨hp13, haead⟩
  | p13 hc hx => exact ⟨forall_slot_setSlot hp13 (hx.ok hp13), haead⟩
  | p13FromHandle hc hh K junk calls =>
    exact ⟨forall_slot_setSlot hp13 (P13State.load_ok K junk), haead⟩
  | sc hh cipher K N hK hN => exact ⟨hp13, haead⟩
  | aead hc hv hx =>
    exact ⟨hp13, forall_slot_setSlot (P := fun _ (y : AeadCtx) => y.valid = true → y.poly.Ok) haead
      fun _ => hx.poly_ok (haead _ hv)⟩
  | aeadFromHandle hi hc hh hv K junk calls event =>
    exact ⟨hp13, forall_slot_setSlot (P := fun _ (y : AeadCtx) => y.valid = true → y.poly.Ok) haead
      fun _ => P13State.load_ok K junk⟩
  | asc hc hx => exact ⟨hp13, haead⟩
  | ash hc hx => exact ⟨hp13, haead⟩

theorem State.LimbsOk.of_sameContexts {s t : State} (hs : s.LimbsOk)
    (h : ∀ c, s.sameContextsAt t c) : t.LimbsOk := by
  obtain ⟨hp13, haead⟩ := hs
  refine ⟨fun c => ?_, fun c => ?_⟩
  · obtain ⟨-, e, -⟩ := h c
    rw [e]
    exact hp13 c
  · obtain ⟨-, -, -, e, -⟩ := h c
    rw [e]
    exact haead c

theorem exec_keeps_limbsOk {i : Instr} {s t : State} (hs : s.LimbsOk) (h : exec i s = .next t) :
    t.LimbsOk := by
  obtain ⟨u, hu, ht⟩ := exec_contexts h
  exact (hu.limbsOk hs).of_sameContexts ht

/-- Settles O11: a key load clamps, a block step keeps the bounds (`P13State.block_limbsBounded`),
and no other operation touches a live accumulator. -/
theorem stepKeepsLimbBounds : Obligations.StepKeepsLimbBounds :=
  step_keeps (fun _ _ hs => hs) (fun _ _ _ => exec_keeps_limbsOk) (fun _ hs => hs)
    (fun _ _ _ hs _ => hs) (fun s _ => s.platformReset_noInstances.limbsOk)

/-! ### Sequencing state of a context -/

theorem Stage.beforeData_iff (g : Stage) :
    g.beforeData = true ↔ g = .init ∨ g = .associatedData := by
  cases g <;> simp [Stage.beforeData, Stage.code]

/-- The padding of the associated data brings the fill pointer to 0, where the ciphertext starts. -/
theorem AeadCtx.finalizeAD_fill {x : AeadCtx} (h : x.Ok) (hv : x.valid = true)
    (hg : x.stage ≠ .done) : x.finalizeAD.poly.fill.toNat = x.ctLen.toNat % 16 := by
  obtain ⟨-, hlive⟩ := h hv
  obtain ⟨-, -, -, hearly, hdata⟩ := hlive hg
  rcases x.finalizeAD_cases with ⟨hb, e⟩ | ⟨hb, e⟩ <;> rw [e]
  · refine hdata ?_
    revert hb hg
    cases x.stage <;> simp [Stage.beforeData, Stage.code]
  · have hnd : x.stage ≠ .data := by
      rcases x.stage.beforeData_iff.mp hb with hs | hs <;> simp [hs]
    obtain ⟨hct, hfill⟩ := hearly hnd
    have hzero : x.ctLen.toNat = 0 := by simp [hct]
    simp only [P13State.write_fill, pad16_length, hfill, hzero]
    omega

theorem AeadNext.ok {c : Ctx} {x y : AeadCtx} (h : AeadNext x c y) (hx : x.Ok)
    (hv : x.valid = true) : y.Ok := by
  cases h with
  | writeAD X hg =>
    have hstage := x.stage.beforeData_iff.mp hg
    obtain ⟨-, hlive⟩ := hx hv
    obtain ⟨hpoly, hsigma, -, hearly, -⟩ := hlive (by rcases hstage with h | h <;> simp [h])
    obtain ⟨hct, hfill⟩ := hearly (by rcases hstage with h | h <;> simp [h])
    refine fun _ => ⟨nofun, fun _ => ⟨?poly, hsigma, nofun, fun _ => ⟨hct, ?fill⟩, nofun⟩⟩
    case poly => simpa [AeadCtx.writeAD] using hpoly
    case fill =>
      simp only [AeadCtx.writeAD, P13State.write_fill, hfill, BitVec.toNat_add, BitVec.toNat_ofNat]
      omega
  | data Y calls hg =>
    obtain ⟨-, hlive⟩ := hx hv
    obtain ⟨hpoly, hsigma, -, -, -⟩ := hlive hg
    have hstage : x.finalizeAD.stage = .data := x.finalizeAD_stage hg
    have hfill := AeadCtx.finalizeAD_fill hx hv hg
    simp only [AeadCtx.Ok, AeadCtx.hashCiphertext, hstage, P13State.write_fill, hfill,
      BitVec.toNat_add, BitVec.toNat_ofNat]
    refine fun _ => ⟨nofun, fun _ => ⟨by simpa using hpoly, ?sigma, nofun, by simp, fun _ => ?fill⟩⟩
    case sigma => simpa [Sigma.Ok] using hsigma
    case fill => simp
  | consume event => exact fun _ => ⟨fun _ => rfl, fun hne => absurd rfl hne⟩

theorem ascVar_rate_pos (v : AscVar) : 0 < v.rate := by cases v <;> decide

/-- A live Ascon context in the data phase needs its cursor and key length only. -/
theorem AscCtx.InData.ok {x y : AscCtx} (h : x.InData y) (hx : x.Ok) (hv : x.valid = true)
    (hg : x.stage ≠ .done) : y.Ok := by
  obtain ⟨hcur, hkey, -, -⟩ := hx hv hg
  intro _ _
  rw [h.var, h.key, h.stage]
  exact ⟨h.var ▸ h.cur_lt hcur, hkey, nofun, fun hne => absurd rfl hne⟩

theorem AscCtx.writeAD_ok {x : AscCtx} (hx : x.Ok) (hv : x.valid = true)
    (hg : x.stage.beforeData = true) (X : List Byte) : (x.writeAD X).Ok := by
  have hstage := x.stage.beforeData_iff.mp hg
  obtain ⟨hcur, hkey, -, hzero⟩ := hx hv (by rcases hstage with h | h <;> simp [h])
  obtain ⟨-, hvar', hkey', hstage', hany', hcur'⟩ := x.writeAD_frame X
  intro _ _
  refine ⟨hvar' ▸ hcur' hcur, by rw [hkey', hvar', hkey], fun h => ?_, fun _ hany => ?_⟩
  · rw [hstage'] at h
    cases h
  · rw [hany', Bool.or_eq_false_iff] at hany
    obtain ⟨hnone, hempty⟩ := hany
    cases X with
    | nil => exact hzero (by rcases hstage with h | h <;> simp [h]) hnone
    | cons v X => simp at hempty

theorem AscCtx.construct_ok (v : AscVar) {K : List Byte} (N : List Byte) (hK : K.length = v.klen) :
    (AscCtx.construct v K N).Ok := fun _ _ =>
  ⟨ascVar_rate_pos v, hK, fun _ => rfl, fun _ _ => rfl⟩

theorem AscNext.ok {i : Instr} {s : State} {c : Ctx} {y : AscCtx} (h : AscNext i s c y)
    (hs : ∀ d, (s.ascAt d).Ok) : y.Ok := by
  cases h with
  | construct v K N hi hK => exact AscCtx.construct_ok v N hK
  | clone b hi hv => exact hs b
  | writeAD X hv hg => exact AscCtx.writeAD_ok (hs c) hv hg X
  | data hv hg hy => exact hy.ok (hs c) hv hg
  | consume event hv => exact fun _ hne => absurd rfl hne

theorem AshNext.ok {s : State} {c : Ctx} {y : AshCtx} (h : AshNext s c y)
    (hs : ∀ d, (s.ashAt d).Ok) : y.Ok := by
  cases h with
  | construct v n hn => exact fun _ => ⟨Nat.zero_lt_succ 7, hn⟩
  | write X hv =>
    obtain ⟨hcur, hlen⟩ := hs c hv
    exact fun _ => ⟨AshCtx.write_cur_lt _ X hcur, by simpa using hlen⟩
  | consume event => exact nofun
  | clone b hv => exact hs b

/-! ### Sequencing state of the units -/

/-- The slots `v` of a unit: one that does not exist holds no instance, and every one is as `Ok`
says. -/
def UnitOk (s : State) {α : Type} (valid : α → Bool) (Ok : Ctx → α → Prop)
    (v : Vector α 16) : Prop :=
  ∀ c, (s.hasCtx c = false → valid (slot v c) = false) ∧ Ok c (slot v c)

theorem UnitOk.setSlot {s : State} {α : Type} {valid : α → Bool} {Ok : Ctx → α → Prop}
    {v : Vector α 16} (h : UnitOk s valid Ok v) {c : Ctx} {x : α} (hc : s.hasCtx c = true)
    (hx : Ok c x) : UnitOk s valid Ok (setSlot v c x) :=
  forall_slot_setSlot (P := fun d y => (s.hasCtx d = false → valid y = false) ∧ Ok d y) h
    ⟨fun habsent => by simp [hc] at habsent, hx⟩

/-- `State.ContextsOk` unit by unit. -/
structure State.UnitsOk (s : State) : Prop where
  cbc : UnitOk s CbcCtx.valid (fun c => CbcCtx.Ok (s.blockSizeAt c)) s.cbc
  p13 : UnitOk s P13State.valid (fun _ _ => True) s.p13
  sc : UnitOk s ScCtx.valid (fun _ => ScCtx.Ok) s.sc
  aead : UnitOk s AeadCtx.valid (fun _ => AeadCtx.Ok) s.aead
  asc : UnitOk s AscCtx.valid (fun _ => AscCtx.Ok) s.asc
  ash : UnitOk s AshCtx.valid (fun _ => AshCtx.Ok) s.ash

theorem State.contextsOk_iff (s : State) : s.ContextsOk ↔ s.UnitsOk := by
  simp only [State.ContextsOk, State.NoAbsentContexts, imp_and, forall_and]
  constructor
  · rintro ⟨⟨hcbc, hp13, hsc, haead, hasc, hash⟩, hcbcOk, hscOk, haeadOk, hascOk, hashOk⟩
    exact ⟨fun c => ⟨hcbc c, hcbcOk c⟩, fun c => ⟨hp13 c, trivial⟩, fun c => ⟨hsc c, hscOk c⟩,
      fun c => ⟨haead c, haeadOk c⟩, fun c => ⟨hasc c, hascOk c⟩, fun c => ⟨hash c, hashOk c⟩⟩
  · intro ⟨hcbc, hp13, hsc, haead, hasc, hash⟩
    exact ⟨⟨fun c => (hcbc c).1, fun c => (hp13 c).1, fun c => (hsc c).1, fun c => (haead c).1,
      fun c => (hasc c).1, fun c => (hash c).1⟩, fun c => (hcbc c).2, fun c => (hsc c).2,
      fun c => (haead c).2, fun c => (hasc c).2, fun c => (hash c).2⟩

theorem ContextUpdate.unitsOk {i : Instr} {s u : State} (h : ContextUpdate i s u)
    (hs : s.UnitsOk) : u.UnitsOk := by
  cases h with
  | none => exact hs
  | cbc hc sch iv hl => exact { hs with cbc := hs.cbc.setSlot hc.present fun _ => hl }
  | p13 hc hx => exact { hs with p13 := hs.p13.setSlot hc.present trivial }
  | p13FromHandle hc hh K junk calls =>
    exact { hs with
      p13 := hs.p13.setSlot hc.present trivial
      sc := hs.sc.setSlot hh.present (hs.sc _).2 }
  | sc hh cipher K N hK hN =>
    exact { hs with sc := hs.sc.setSlot hh.present fun _ => ⟨rfl, hK, hN⟩ }
  | aead hc hv hx =>
    exact { hs with aead := hs.aead.setSlot hc.present (hx.ok (hs.aead _).2 hv) }
  | aeadFromHandle hi hc hh hv K junk calls event =>
    exact { hs with
      aead := hs.aead.setSlot hc.present fun _ => ⟨nofun, fun _ =>
        ⟨rfl, (hs.sc _).2 hv, fun _ => rfl, fun _ => ⟨rfl, rfl⟩, nofun⟩⟩
      sc := hs.sc.setSlot hh.present nofun }
  | asc hc hx =>
    exact { hs with asc := hs.asc.setSlot hc.present (hx.ok fun d => (hs.asc d).2) }
  | ash hc hx =>
    exact { hs with ash := hs.ash.setSlot hc.present (hx.ok fun d => (hs.ash d).2) }

theorem ContextUpdate.par {i : Instr} {s u : State} (h : ContextUpdate i s u) : u.par = s.par := by
  cases h <;> rfl

theorem State.NoInstances.contextsOk {s : State} (h : s.NoInstances) : s.ContextsOk := by
  refine ⟨fun c _ => h c, fun c => ?_⟩
  obtain ⟨hcbc, -, hsc, haead, hasc, hash⟩ := h c
  simp [CbcCtx.Ok, ScCtx.Ok, AeadCtx.Ok, AscCtx.Ok, AshCtx.Ok, hcbc, hsc, haead, hasc, hash]

theorem State.ContextsOk.of_sameContexts {s t : State} (hs : s.ContextsOk) (hpar : t.par = s.par)
    (h : ∀ c, s.sameContextsAt t c) : t.ContextsOk := by
  obtain ⟨habsent, hok⟩ := hs
  have hctx : ∀ c, t.hasCtx c = s.hasCtx c := fun c => by rw [State.hasCtx, State.hasCtx, hpar]
  have hblock : ∀ c, t.blockSizeAt c = s.blockSizeAt c := fun c => by
    simp only [State.blockSizeAt, hpar]
  refine ⟨fun c hc => ?_, fun c => ?_⟩ <;> obtain ⟨hcbc, hp13, hsc, haead, hasc, hash⟩ := h c
  · rw [hcbc, hp13, hsc, haead, hasc, hash]
    exact habsent c (hctx c ▸ hc)
  · rw [hcbc, hsc, haead, hasc, hash, hblock]
    exact hok c

theorem exec_keeps_contextsOk {i : Instr} {s t : State} (hs : s.ContextsOk)
    (h : exec i s = .next t) : t.ContextsOk := by
  obtain ⟨u, hu, ht⟩ := exec_contexts h
  obtain ⟨hpar, -⟩ := exec_par_inputs h
  have huok : u.ContextsOk := u.contextsOk_iff.mpr (hu.unitsOk (s.contextsOk_iff.mp hs))
  exact huok.of_sameContexts (hpar.trans hu.par.symm) ht

/-- Settles O12: every operation of a unit keeps its own sequencing state (`AeadNext.ok`,
`AscNext.ok`, `AshNext.ok`), and a command changes only contexts that exist. -/
theorem stepKeepsSequencingState : Obligations.StepKeepsSequencingState :=
  step_keeps (fun _ _ hs => hs) (fun _ _ _ => exec_keeps_contextsOk) (fun _ hs => hs)
    (fun _ _ _ hs _ => hs) (fun s _ => s.platformReset_noInstances.contextsOk)

/-! ### Memory -/

/-- Bytes written where addresses exist keep `M` below `MEM_SIZE`. -/
theorem State.MemoryOk.writeBytes {s : State} (hs : s.MemoryOk) {addr : Word} {X : List Byte}
    (h : X = [] ∨ addr.toNat + X.length ≤ s.par.memSize) : (s.writeBytes addr X).MemoryOk := by
  obtain ⟨hwf, hbelow⟩ := hs
  refine ⟨s.writeBytes_keeps_wf addr X hwf, fun a ha => ?_⟩
  have hout : ¬ (addr.toNat ≤ a ∧ a < addr.toNat + X.length) := by
    rintro ⟨hlo, hhi⟩
    rcases h with rfl | h
    · simp at hhi
      omega
    · have : s.par.memSize ≤ a := ha
      omega
  rw [State.writeBytes_mem, Memory.get?_writeBytes, if_neg hout]
  exact hbelow a ha

/-- A string no longer than a window in range fits in `M` there. -/
theorem State.fits_of_inRange {s : State} {dst dcap : Word} {X : List Byte}
    (hr : s.inRange dst dcap = true) (hx : X.length ≤ dcap.toNat) :
    X = [] ∨ dst.toNat + X.length ≤ s.par.memSize := by
  simp only [State.inRange, Bool.or_eq_true, beq_iff_eq, decide_eq_true_eq] at hr
  rcases hr with rfl | hr
  · exact .inl (by simpa using hx)
  · exact .inr (by omega)

theorem State.MemoryOk.of_mem_eq {s u : State} (hs : s.MemoryOk) (hmem : u.mem = s.mem)
    (hpar : u.par = s.par) : u.MemoryOk := by
  rw [State.MemoryOk, hmem, hpar]
  exact hs

theorem exec_keeps_memoryOk {i : Instr} {s t : State} (hs : s.MemoryOk) (h : exec i s = .next t) :
    t.MemoryOk := by
  cases exec_effect h with
  | early e he => exact hs
  | quiet u v hd hu =>
    obtain ⟨hmem, hpar, -⟩ := hu
    exact hs.of_mem_eq hmem hpar
  | writes u dst dcap X hd hr hx hu hl =>
    obtain ⟨hmem, hpar, -⟩ := hu
    exact (hs.of_mem_eq hmem hpar).writeBytes (hpar ▸ State.fits_of_inRange hr hx)
  | late e dst dcap hl hd hr he =>
    obtain ⟨W, hW, heq⟩ := s.raiseLate_eq e dst dcap
    rw [heq]
    exact hs.writeBytes (State.fits_of_inRange hr hW.le)

/-- Settles O9: a command writes inside a destination window in range, the host inside `M`. -/
theorem stepKeepsMemoryInMemory : Obligations.StepKeepsMemoryInMemory :=
  step_keeps (fun _ _ hs => hs) (fun _ _ _ => exec_keeps_memoryOk) (fun _ hs => hs)
    (fun _ _ _ hs h => hs.writeBytes h) (fun _ hs => hs)

/-! ### Response codes -/

theorem Err.code_ne_zero (e : Err) : e.code ≠ 0 := by cases e <;> decide

theorem State.responseOk_of_error {t : State} {e : Err} (hstatus : t.status = e.code)
    (hresult : t.result = 0) : t.ResponseOk :=
  ⟨by rw [hstatus]; cases e <;> decide, fun _ => hresult⟩

theorem State.responseOk_of_ok {t : State} (hstatus : t.status = 0) : t.ResponseOk :=
  ⟨by simp [hstatus], fun h => absurd hstatus h⟩

theorem exec_responseOk {i : Instr} {s t : State} (h : exec i s = .next t) : t.ResponseOk := by
  cases exec_effect h with
  | early e he => exact State.responseOk_of_error (e := e) rfl rfl
  | quiet u v hd hu => exact State.responseOk_of_ok rfl
  | writes u dst dcap X hd hr hx hu hl => exact State.responseOk_of_ok rfl
  | late e dst dcap hl hd hr he => exact State.responseOk_of_error (e := e) rfl rfl

/-- Settles O10: every command, a refused descriptor and the reset signal set both registers
together, and a host write sets neither. -/
theorem stepKeepsResponseCodes : Obligations.StepKeepsResponseCodes :=
  step_keeps (fun _ _ hs => hs) (fun _ _ _ _ h => exec_responseOk h)
    (fun _ _ => State.responseOk_of_error (e := .illegal) rfl rfl) (fun _ _ _ hs _ => hs)
    (fun _ _ => State.responseOk_of_ok rfl)

/-! ### Reset -/

theorem State.reset_noInstances : State.reset.NoInstances := fun _ => by
  simp [State.reset, State.cbcAt, State.p13At, State.scAt, State.aeadAt, State.ascAt, State.ashAt,
    slot, CbcCtx.blank, P13State.blank, ScCtx.blank, AeadCtx.blank, AscCtx.blank, AshCtx.blank]

theorem Config.params_wf : Config.params.wf := by
  simp [Params.wf, Config.params]

/-- Settles O8: with no instance anywhere the invariants of contexts ask for nothing, and no byte of
`M` is written. -/
theorem resetMeetsInvariants : Obligations.ResetMeetsInvariants :=
  ⟨rfl, rfl, Config.params_wf, State.reset_noInstances, ⟨State.reset_mem_wf, fun _ _ => rfl⟩,
    State.responseOk_of_ok rfl, State.reset_noInstances.limbsOk, State.reset_noInstances.contextsOk⟩

end Sys2Proof.Machine
end

section
/-! What a command leaves alone: contexts it does not name and units it is not of (10_state.md R24),
the stage and `valid` bit of an instance (R30), bytes outside its destination window (R66, R285),
and, with an absent context or no instance, everything but the response (30_encoding.md R95,
60_exceptions.md R281, R283). -/

namespace Sys2Proof.Machine

/-! ### Contexts -/

theorem Names.ne_of_not_mem {i : Instr} {s : State} {n : Nat} {c d : Ctx} (hc : Names i s n c)
    (hd : d ∉ i.contexts) : d ≠ c := by
  rintro rfl
  exact hd hc.mem_contexts

/-- A context that the command does not name is untouched, and so is, whether named or not, every
unit but the command's own and the handles a P13 or AEAD command takes. -/
theorem ContextUpdate.frame {i : Instr} {s u : State} (h : ContextUpdate i s u) (d : Ctx) :
    (d ∉ i.contexts → s.sameContextsAt u d) ∧
    (i.unit ≠ 2 → u.cbcAt d = s.cbcAt d) ∧
    (i.unit ≠ 3 → u.p13At d = s.p13At d) ∧
    (i.unit ≠ 3 → i.unit ≠ 4 → i.unit ≠ 5 → u.scAt d = s.scAt d) ∧
    (i.unit ≠ 5 → u.aeadAt d = s.aeadAt d) ∧
    (i.unit ≠ 6 → u.ascAt d = s.ascAt d) ∧
    (i.unit ≠ 7 → u.ashAt d = s.ashAt d) := by
  cases h with
  | none => simp [State.sameContextsAt]
  | cbc hc sch iv hl =>
    exact ⟨fun hd => by simp [State.sameContextsAt, hc.ne_of_not_mem hd], by simp [hc.unit_eq]⟩
  | p13 hc hx =>
    exact ⟨fun hd => by simp [State.sameContextsAt, hc.ne_of_not_mem hd], by simp [hc.unit_eq]⟩
  | p13FromHandle hc hh K junk calls =>
    exact ⟨fun hd => by simp [State.sameContextsAt, hc.ne_of_not_mem hd, hh.ne_of_not_mem hd],
      by simp [hc.unit_eq]⟩
  | sc hh cipher K N hK hN =>
    exact ⟨fun hd => by simp [State.sameContextsAt, hh.ne_of_not_mem hd], by simp [hh.unit_eq]⟩
  | aead hc hv hx =>
    exact ⟨fun hd => by simp [State.sameContextsAt, hc.ne_of_not_mem hd], by simp [hc.unit_eq]⟩
  | aeadFromHandle hi hc hh hv K junk calls event =>
    exact ⟨fun hd => by simp [State.sameContextsAt, hc.ne_of_not_mem hd, hh.ne_of_not_mem hd],
      by simp [hc.unit_eq]⟩
  | asc hc hx =>
    exact ⟨fun hd => by simp [State.sameContextsAt, hc.ne_of_not_mem hd], by simp [hc.unit_eq]⟩
  | ash hc hx =>
    exact ⟨fun hd => by simp [State.sameContextsAt, hc.ne_of_not_mem hd], by simp [hc.unit_eq]⟩

/-- Settles O17: the frame of the context update, which the end of the command leaves as it is. -/
theorem commandTouchesOnlyNamedContexts : Obligations.CommandTouchesOnlyNamedContexts := by
  intro i s t c h
  obtain ⟨u, hu, ht⟩ := exec_contexts h
  obtain ⟨hcbc, hp13, hsc, haead, hasc, hash⟩ := ht c
  have hframe := hu.frame c
  simp only [State.sameContextsAt] at hframe ⊢
  rwa [hcbc, hp13, hsc, haead, hasc, hash]

/-! ### Stages -/

theorem Stage.code_le (g : Stage) : g.code ≤ Stage.done.code := by cases g <;> decide

theorem Stage.code_le_data {g : Stage} (h : g ≠ .done) : g.code ≤ Stage.data.code := by
  cases g with
  | done => exact absurd rfl h
  | _ => decide

theorem Stage.code_le_associatedData {g : Stage} (h : g.beforeData = true) :
    g.code ≤ Stage.associatedData.code := by
  rcases g.beforeData_iff.mp h with rfl | rfl <;> decide

theorem AeadNext.keeps_stage {c : Ctx} {x y : AeadCtx} (h : AeadNext x c y)
    (hv : x.valid = true) : y.valid = x.valid ∧ x.stage.code ≤ y.stage.code := by
  cases h with
  | writeAD X hg => exact ⟨rfl, Stage.code_le_associatedData hg⟩
  | data Y calls hg =>
    have hstage : x.finalizeAD.stage = .data := x.finalizeAD_stage hg
    exact ⟨x.finalizeAD_valid, by
      simpa [AeadCtx.hashCiphertext, hstage] using Stage.code_le_data hg⟩
  | consume event => exact ⟨hv.symm, Stage.code_le _⟩

theorem AscNext.keeps_stage {i : Instr} {s : State} {c : Ctx} {y : AscCtx} (h : AscNext i s c y)
    (hmake : ¬ MakesAsc i c) (hclone : ∀ b, i ≠ .ascClone b c) :
    y.valid = (s.ascAt c).valid ∧ (s.ascAt c).stage.code ≤ y.stage.code := by
  cases h with
  | construct v K N hi hK => exact absurd hi hmake
  | clone b hi hv => exact absurd hi (hclone b)
  | writeAD X hv hg =>
    obtain ⟨hvalid, -, -, hstage, -⟩ := (s.ascAt c).writeAD_frame X
    exact ⟨hvalid, hstage ▸ Stage.code_le_associatedData hg⟩
  | data hv hg hy => exact ⟨hy.valid, hy.stage ▸ Stage.code_le_data hg⟩
  | consume event hv => exact ⟨hv.symm, Stage.code_le _⟩

theorem ContextUpdate.keeps_aead_stage {i : Instr} {s u : State} (h : ContextUpdate i s u) (d : Ctx)
    (hinit : ∀ b, i ≠ .aeadInit d b) :
    (u.aeadAt d).valid = (s.aeadAt d).valid ∧
      (s.aeadAt d).stage.code ≤ (u.aeadAt d).stage.code := by
  cases h with
  | aead hc hv hx =>
    rw [State.setAead_aeadAt]
    split
    case isTrue hd => exact hd ▸ hx.keeps_stage hv
    case isFalse => exact ⟨rfl, le_rfl⟩
  | aeadFromHandle hi hc hh hv K junk calls event =>
    rw [State.setSc_aeadAt, State.setAead_aeadAt]
    split
    case isTrue hd =>
      subst hd
      exact absurd hi (hinit _)
    case isFalse => exact ⟨rfl, le_rfl⟩
  | _ => exact ⟨rfl, le_rfl⟩

theorem ContextUpdate.keeps_asc_stage {i : Instr} {s u : State} (h : ContextUpdate i s u) (d : Ctx)
    (hmake : ¬ MakesAsc i d) (hclone : ∀ b, i ≠ .ascClone b d) :
    (u.ascAt d).valid = (s.ascAt d).valid ∧ (s.ascAt d).stage.code ≤ (u.ascAt d).stage.code := by
  cases h with
  | asc hc hx =>
    rw [State.setAsc_ascAt]
    split
    case isTrue hd =>
      subst hd
      exact hx.keeps_stage hmake hclone
    case isFalse => exact ⟨rfl, le_rfl⟩
  | _ => exact ⟨rfl, le_rfl⟩

/-- Settles O52: of the operations on a context only a construction and a clone into it set the
stage without regard to what it was. -/
theorem stageNeverDecreases : Obligations.StageNeverDecreases := by
  intro i s t c h
  obtain ⟨u, hu, ht⟩ := exec_contexts h
  obtain ⟨-, -, -, haead, hasc, -⟩ := ht c
  rw [haead, hasc]
  refine ⟨hu.keeps_aead_stage c, fun hmake hclone => hu.keeps_asc_stage c ?_ hclone⟩
  rintro ⟨src, slen, hi⟩
  obtain ⟨h128, h128a, h80pq⟩ := hmake src slen
  rcases hi with hi | hi | hi
  · exact h128 hi
  · exact h128a hi
  · exact h80pq hi

/-! ### Memory -/

theorem State.readByte_of_mem_eq {s t : State} (h : t.mem = s.mem) (a : Nat) :
    t.readByte a = s.readByte a := by rw [State.readByte, State.readByte, h]

/-- A byte outside a window reads as before a write of no more bytes than the window has. -/
theorem State.readByte_writeBytes_of_not_inWindow {s : State} {dst len : Word} {X : List Byte}
    (hx : X.length ≤ len.toNat) {a : Nat} (ha : ¬ inWindow dst len a) :
    (s.writeBytes dst X).readByte a = s.readByte a :=
  s.readByte_writeBytes_of_outside dst X a (by unfold inWindow at ha; omega)

/-- Settles O14: of the four ways a command can end, an early error and a command without a
destination write nothing, an output writes `RESULT` bytes, a late error the whole window. -/
theorem commandWritesOnlyItsWindow : Obligations.CommandWritesOnlyItsWindow := by
  intro i s t h
  cases exec_effect h with
  | early e he =>
    exact ⟨fun _ => rfl, fun dst dcap _ =>
      ⟨fun _ _ => rfl, fun hok => absurd hok e.code_ne_zero, fun _ _ => rfl⟩⟩
  | quiet u v hd hu =>
    obtain ⟨hmem, -, -⟩ := hu
    exact ⟨fun _ => hmem, fun dst dcap hsome => by simp [hd] at hsome⟩
  | writes u dst dcap X hd hr hx hu hl =>
    obtain ⟨hmem, -, -⟩ := hu
    refine ⟨fun hnone => by simp [hd] at hnone, fun dst' dcap' hsome => ?_⟩
    obtain ⟨rfl, rfl⟩ : dst = dst' ∧ dcap = dcap' := by simpa [hd] using hsome
    have hlen : (u.output dst X).result.toNat = X.length := by
      rw [State.output_result, BitVec.toNat_ofNat]
      exact Nat.mod_eq_of_lt (by omega)
    have houtside : ∀ len : Word, X.length ≤ len.toNat → ∀ a, ¬ inWindow dst len a →
        (u.output dst X).readByte a = s.readByte a := fun len hle a ha => calc
      (u.output dst X).readByte a = u.readByte a :=
        State.readByte_writeBytes_of_not_inWindow hle ha
      _ = s.readByte a := State.readByte_of_mem_eq hmem a
    exact ⟨houtside dcap hx, fun _ => ⟨hlen ▸ hx, houtside _ hlen.ge⟩,
      fun hne => absurd rfl hne⟩
  | late e dst dcap hl hd hr he =>
    refine ⟨fun hnone => by simp [hd] at hnone, fun dst' dcap' hsome => ?_⟩
    obtain ⟨rfl, rfl⟩ : dst = dst' ∧ dcap = dcap' := by simpa [hd] using hsome
    obtain ⟨W, hW, heq⟩ := s.raiseLate_eq e dst dcap
    rw [heq]
    exact ⟨fun a ha => State.readByte_writeBytes_of_not_inWindow hW.le ha,
      fun hok => absurd hok e.code_ne_zero, fun _ hnot => by simp [hl] at hnot⟩

/-! ### The first checks -/

/-- The checks of every command begin with those of the contexts it names (step (4) of R95). -/
theorem exec_checks_contexts (i : Instr) (s : State) :
    ∃ rest body, exec i s = command s (i.contexts.map s.noCtx ++ rest) body := by
  cases i <;> exact ⟨_, _, rfl⟩

/-- The check for an instance follows, where the command makes one (cause (1) of R283). -/
theorem exec_checks_instance {i : Instr} {s : State} (h : i.instanceBit s = some false) :
    ∃ bad rest body, bad = true ∧
      exec i s = command s (i.contexts.map s.noCtx ++ (bad, .usage) :: rest) body := by
  cases i <;> simp only [Instr.instanceBit, Option.some.injEq, reduceCtorEq] at h <;>
    exact ⟨_, _, _, by simp [h], rfl⟩

/-- Behind the checks of some contexts the others count exactly when those contexts exist. -/
theorem firstError_noCtx_append (s : State) (l : List Ctx) (rest : List (Bool × Err)) :
    firstError (l.map s.noCtx ++ rest) =
      if l.all s.hasCtx then firstError rest else some .illegal := by
  induction l with
  | nil => rfl
  | cons c l ih => cases hc : s.hasCtx c <;> simp [State.noCtx, hc, ih]

theorem firstError_contexts_append (i : Instr) (s : State) (rest : List (Bool × Err)) :
    firstError (i.contexts.map s.noCtx ++ rest) =
      if i.wellFormed s.par.nctx then firstError rest else some .illegal :=
  firstError_noCtx_append s i.contexts rest

/-- Settles O6: the checks of the named contexts come first in every command. -/
theorem absentContextIsIllegal : Obligations.AbsentContextIsIllegal := by
  intro i s h
  obtain ⟨rest, body, he⟩ := exec_checks_contexts i s
  have herr : firstError (i.contexts.map s.noCtx ++ rest) = some .illegal := by
    simp [firstError_contexts_append, h]
  rw [he, command_of_error body herr]
  rfl

/-- Settles O19: with every named context present, the check for an instance is the first to
fail. -/
theorem missingInstanceIsUsageError : Obligations.MissingInstanceIsUsageError := by
  intro i s hwf h
  obtain ⟨_, rest, body, rfl, he⟩ := exec_checks_instance h
  have herr : firstError (i.contexts.map s.noCtx ++ (true, .usage) :: rest) = some .usage := by
    simp [firstError_contexts_append, hwf]
  rw [he, command_of_error body herr]
  rfl

end Sys2Proof.Machine
end

section
/-! The commands that answer with a tag or a digest (42_poly1305.md R172 and R173, 43_aead.md R209
to R211, 44_ascon.md R246 to R248 and R255 to R257): all check the context, that it can answer, the
size of a window, and that the window is in range, in this order. -/

namespace Sys2Proof.Machine

/-! ### Their checks -/

section SizedWindow

variable {s : State} {c : Ctx} {held : Bool × Err} {win len : Word} (wrongSize : Bool)
  (body : Host.Outcome State Fault Refusal)

theorem command_sized_passed (hc : s.hasCtx c = true) (hheld : held = (false, .usage))
    (hsize : wrongSize = false) (hr : s.inRange win len = true) :
    command s [s.noCtx c, held, (wrongSize, .capacity), s.offRange win len] body = body := by
  simp [hc, hheld, hsize, hr]

theorem command_sized_failed (hc : s.hasCtx c = true) (hheld : held = (false, .usage))
    (hsize : wrongSize = true) :
    command s [s.noCtx c, held, (wrongSize, .capacity), s.offRange win len] body =
      .next (s.raise .capacity) := by
  simp [hc, hheld, hsize]

end SizedWindow

theorem State.output_of_length (s : State) (dst : Word) {X : List Byte} {n : Nat}
    (h : X.length = n) : s.output dst X = (s.writeBytes dst X).finish n := by
  rw [State.output_eq, h]

/-- The answer of `AEAD.VFY` and `ASC.VFY` as an equality of byte strings. -/
theorem tagAnswer_eq (s : State) {T : List Byte} {src slen : Word} (hT : T.length = 16)
    (hlen : slen.toNat = 16) :
    (if tagsAgree T (s.source src slen) then 1 else 0) =
      if T = s.readBytes src 16 then 1 else 0 := by
  rw [State.source_eq, hlen]
  exact if_congr (tagsAgree_iff T _ hT (s.readBytes_length src 16)) rfl rfl

theorem AeadCtx.finished_of_live {x : AeadCtx} (hv : x.valid = true) (hg : x.stage ≠ .done) :
    x.finished = (false, .usage) := by simp [AeadCtx.finished, hv, hg]

theorem AscCtx.finished_of_live {x : AscCtx} (hv : x.valid = true) (hg : x.stage ≠ .done) :
    x.finished = (false, .usage) := by simp [AscCtx.finished, hv, hg]

/-! ### The answers -/

/-- Settles O37, by the checks both commands share. -/
theorem p13SumAnswers : Obligations.P13SumAnswers := by
  intro c dst dcap s hc hv
  have hheld : (!(s.p13At c).valid, Err.usage) = (false, .usage) := by rw [hv]; rfl
  refine ⟨fun hn hr => ?fits, fun hn => ?short⟩
  case fits =>
    have hsize : decide (dcap.toNat < 16) = false := by simpa using hn
    refine ⟨(command_sized_passed _ _ hc hheld hsize hr).trans ?_,
      consumedP13 s.fresh c, rfl, (command_sized_passed _ _ hc hheld hsize hr).trans ?_⟩
    · rw [State.output_of_length _ _ (P13State.final_length _)]
    · rw [State.output_of_length _ _ (P13State.final_length _)]
  case short =>
    have hsize : decide (dcap.toNat < 16) = true := by simpa using hn
    exact ⟨command_sized_failed _ _ hc hheld hsize, command_sized_failed _ _ hc hheld hsize⟩

/-- Settles O59, by the checks both commands share. -/
theorem ashSumAnswers : Obligations.AshSumAnswers := by
  intro c dst dcap s hc hv
  have hheld : (!(s.ashAt c).valid, Err.usage) = (false, .usage) := by rw [hv]; rfl
  refine ⟨fun hn hr => ?fits, fun hn => ?short⟩
  case fits =>
    have hsize : decide (dcap.toNat < (s.ashAt c).dlen.toNat) = false := by simpa using hn
    refine ⟨(command_sized_passed _ _ hc hheld hsize hr).trans ?_,
      consumedAsh s.fresh c, rfl, (command_sized_passed _ _ hc hheld hsize hr).trans ?_⟩
    · rw [State.output_of_length _ _ (AshCtx.digest_length _)]
    · rw [State.output_of_length _ _ (AshCtx.digest_length _)]
  case short =>
    have hsize : decide (dcap.toNat < (s.ashAt c).dlen.toNat) = true := by simpa using hn
    exact ⟨command_sized_failed _ _ hc hheld hsize, command_sized_failed _ _ hc hheld hsize⟩

/-- Settles O46: `FIN` and `VFY` differ in the size they ask of their window and in the answer. -/
theorem aeadTagAnswers : Obligations.AeadTagAnswers := by
  intro c win len s hc hv hg
  have hheld := AeadCtx.finished_of_live hv hg
  refine ⟨fun hn hr => ⟨consumedAead s.fresh c, rfl, rfl, rfl, ?fin⟩,
    fun hn hr => ⟨consumedAead s.fresh c, rfl, rfl, rfl, ?vfy⟩,
    fun hn => command_sized_failed _ _ hc hheld (by simpa using hn),
    fun hn => command_sized_failed _ _ hc hheld (by simpa using hn)⟩
  case fin =>
    refine (command_sized_passed _ _ hc hheld (by simpa using hn) hr).trans ?_
    rw [State.output_of_length _ _ (AeadCtx.tag_length _)]
  case vfy =>
    refine (command_sized_passed _ _ hc hheld (by simpa using hn) hr).trans ?_
    rw [tagAnswer_eq s (AeadCtx.tag_length _) hn]

/-- Settles O56: `FIN` and `VFY` differ in the size they ask of their window and in the answer. -/
theorem ascTagAnswers : Obligations.AscTagAnswers := by
  intro c win len s hc hv hg
  have hheld := AscCtx.finished_of_live hv hg
  refine ⟨fun hn hr => ⟨consumedAsc s.fresh c, rfl, rfl, ?fin⟩,
    fun hn hr => ⟨consumedAsc s.fresh c, rfl, rfl, ?vfy⟩,
    fun hn => command_sized_failed _ _ hc hheld (by simpa using hn),
    fun hn => command_sized_failed _ _ hc hheld (by simpa using hn)⟩
  case fin =>
    refine (command_sized_passed _ _ hc hheld (by simpa using hn) hr).trans ?_
    rw [State.output_of_length _ _ (AscCtx.tag_length _)]
  case vfy =>
    refine (command_sized_passed _ _ hc hheld (by simpa using hn) hr).trans ?_
    rw [tagAnswer_eq s (AscCtx.tag_length _) hn]

end Sys2Proof.Machine
end

section
/-! The errors of every command in the order of 60_exceptions.md R287, and what the window checks of
20_memory.md R61 and R65 guard. -/

namespace Sys2Proof.Machine

/-! ### The checks of a command are the rows of R287 -/

/-- Rows 2 to 6 of R287 as checks, each with all the causes its row has for a command. -/
def rowChecks (i : Instr) (s : State) : List (Bool × Err) :=
  [(i.instanceBit s == some false || !i.stageOk s, .usage), (!i.constructOk s, .construct),
    (!i.capacityOk s || !i.windowsInRange s, .capacity), (i.windowsOverlap, .overlap)]

theorem earlyError_eq_firstError (i : Instr) (s : State) :
    i.earlyError s = firstError (i.contexts.map s.noCtx ++ rowChecks i s) := by
  rw [firstError_contexts_append]
  simp only [Instr.earlyError, rowChecks, firstError_cons, firstError_nil]
  cases i.wellFormed s.par.nctx <;> rfl

/-- How a command ends that no check stops: well, or in a late error. -/
def Completed (i : Instr) (t : State) : Prop :=
  t.status = 0 ∨ (i.mayFailLate = true ∧ (t.status = 4 ∨ t.status = 5))

/-- Every end a body has is one of a command that no check stops. -/
def Completes (i : Instr) (body : Host.Outcome State Fault Refusal) : Prop :=
  ∀ t, body = .next t → Completed i t

theorem Completes.ok {i : Instr} {t : State} (h : t.status = 0) : Completes i (.next t) := by
  rintro _ ⟨⟩
  exact .inl h

theorem Completes.lateOutput {i : Instr} {s : State} {dst dcap : Word} {U : Option (List Byte)}
    (hl : i.mayFailLate = true) : Completes i (.next (s.lateOutput dst dcap U)) := by
  rintro _ ⟨⟩
  rcases s.lateOutput_cases dst dcap U with ⟨X, -, -, e⟩ | ⟨X, -, -, e⟩ | ⟨-, e⟩ <;> rw [e]
  · exact .inl rfl
  · exact .inr ⟨hl, .inr rfl⟩
  · exact .inr ⟨hl, .inl rfl⟩

theorem Completes.guarded {i : Instr} {p : Prop} [Decidable p] {f : Fault}
    {body : Host.Outcome State Fault Refusal} (h : Completes i body) :
    Completes i (if p then body else .fault f) := by
  intro t ht
  split at ht
  · exact h t ht
  · cases ht

/-- The room `CBC.DEC` asks for beforehand, with and without a subtraction (R148). -/
theorem cbcDec_short_iff (slen dcap : Word) (bs : Nat) :
    (¬ slen = 0#32 ∧ dcap.toNat < slen.toNat - bs) ↔ dcap.toNat + bs < slen.toNat := by
  refine ⟨fun ⟨_, h⟩ => by omega, fun h => ⟨?_, by omega⟩⟩
  rintro rfl
  simp at h

/-- Every command checks its contexts and then, row by row, what the tables of R281 to R284 say: a
row with several causes is several checks in a run with one error, which `ite_or` makes of the row's
disjunction. Its body completes it. -/
theorem exec_rows (i : Instr) (s : State) :
    ∃ rest body, exec i s = command s (i.contexts.map s.noCtx ++ rest) body ∧
      firstError rest = firstError (rowChecks i s) ∧ Completes i body := by
  cases i <;> refine ⟨_, _, rfl, by
    simp [rowChecks, Instr.instanceBit, Instr.stageOk, Instr.constructOk, Instr.capacityOk,
      Instr.windowsInRange, Instr.windowsOverlap, Instr.sourceWindow, Instr.destination,
      State.windowChecks, State.offRange, badBlockSize, AeadCtx.finished, AscCtx.finished,
      AscVar.klen, cbcDec_short_iff, ite_or], ?_⟩
  case cbcEnc => exact .guarded (.ok rfl)
  case cbcDec => exact .guarded (.lateOutput rfl)
  case unpadZ | unpadP7 | unpadI4 => exact .lateOutput rfl
  all_goals exact .ok rfl

/-- Every command in full: its early error where it has one, else a body that completes it. -/
theorem exec_eq_command (i : Instr) (s : State) :
    ∃ checks body, exec i s = command s checks body ∧ firstError checks = i.earlyError s ∧
      Completes i body := by
  obtain ⟨rest, body, heq, hrows, hbody⟩ := exec_rows i s
  refine ⟨_, body, heq, ?_, hbody⟩
  rw [earlyError_eq_firstError, firstError_append, firstError_append, hrows]

theorem exec_of_earlyError {i : Instr} {s : State} {e : Err} (h : i.earlyError s = some e) :
    exec i s = .next (s.raise e) := by
  obtain ⟨checks, body, heq, herr, -⟩ := exec_eq_command i s
  rw [heq, command_of_error body (herr.trans h)]

/-- All a command can answer: its early error, or, where it has none, an end of its body. -/
theorem exec_cases {i : Instr} {s t : State} (h : exec i s = .next t) :
    (∃ e, i.earlyError s = some e ∧ t = s.raise e) ∨
      (i.earlyError s = none ∧ Completed i t) := by
  obtain ⟨checks, body, heq, herr, hbody⟩ := exec_eq_command i s
  rcases command_cases (heq.symm.trans h) with ⟨e, he, ht⟩ | ⟨hnone, ht⟩
  · exact .inl ⟨e, herr.symm.trans he, ht⟩
  · exact .inr ⟨herr.symm.trans hnone, hbody t ht⟩

/-- Settles O15: the checks of every command are the rows of R287 (`exec_rows`), and past them only
`UNPAD.*` and `CBC.DEC` end in an error, with a code no early error of the last clause has. -/
theorem earlyErrorsChangeNothing : Obligations.EarlyErrorsChangeNothing := by
  refine fun i s => ⟨fun e he => exec_of_earlyError he, fun t h => ?_⟩
  rcases exec_cases h with ⟨e, he, rfl⟩ | ⟨-, hdone⟩
  · exact ⟨fun hnone => by simp [he] at hnone, fun _ _ => rfl⟩
  · refine ⟨fun _ => hdone, fun hne hearly => ?_⟩
    rcases hdone with hok | ⟨hlate, hcode⟩
    · exact absurd hok hne
    · rcases hcode with hcode | hcode <;> simp [hlate, hcode] at hearly

/-! ### Windows -/

/-- A window is in range exactly when all its addresses exist (R61). -/
theorem State.inRange_iff (s : State) (addr len : Word) :
    s.inRange addr len = true ↔ ∀ a, inWindow addr len a → a < s.par.memSize := by
  have hzero : len = 0 ↔ len.toNat = 0 := by simp [← BitVec.toNat_inj]
  simp only [State.inRange, inWindow, Bool.or_eq_true, beq_iff_eq, decide_eq_true_eq, hzero]
  refine ⟨fun h a ⟨hlo, hhi⟩ => by omega, fun h => ?_⟩
  by_contra hout
  have hlast := h (addr.toNat + len.toNat - 1)
  omega

/-- Two windows overlap in part exactly when they start apart and share an address (R65): the higher
of the two starts is then one. -/
theorem partialOverlap_iff (src slen dst dcap : Word) :
    partialOverlap src slen dst dcap = true ↔
      src ≠ dst ∧ ∃ a, inWindow src slen a ∧ inWindow dst dcap a := by
  have hzero : ∀ len : Word, len ≠ 0 ↔ len.toNat ≠ 0 := by simp [← BitVec.toNat_inj]
  simp only [partialOverlap, inWindow, Bool.and_eq_true, bne_iff_ne, decide_eq_true_eq, hzero]
  constructor
  · rintro ⟨⟨⟨⟨hslen, hdcap⟩, hne⟩, hsrc⟩, hdst⟩
    exact ⟨hne, max src.toNat dst.toNat, by omega, by omega⟩
  · rintro ⟨hne, a, hsrc, hdst⟩
    exact ⟨⟨⟨⟨by omega, by omega⟩, hne⟩, by omega⟩, by omega⟩

/-- A window of a command that is out of range spoils the range row. -/
theorem windowsInRange_eq_false {i : Instr} {s : State} {addr len : Word}
    (hw : i.sourceWindow = some (addr, len) ∨ i.destination = some (addr, len))
    (h : s.inRange addr len = false) : i.windowsInRange s = false := by
  rcases hw with hw | hw <;> simp [Instr.windowsInRange, hw, h]

section TwoWindows

variable {i : Instr} {src slen dst dcap : Word} (hs : i.sourceWindow = some (src, slen))
  (hd : i.destination = some (dst, dcap))
include hs hd

theorem windowsInRange_iff (s : State) :
    i.windowsInRange s = true ↔ s.inRange src slen = true ∧ s.inRange dst dcap = true := by
  simp [Instr.windowsInRange, hs, hd]

theorem windowsOverlap_eq : i.windowsOverlap = partialOverlap src slen dst dcap := by
  simp [Instr.windowsOverlap, hs, hd]

end TwoWindows

/-- The code of an early error: one of four, or that of an overlap of windows in range. -/
theorem earlyError_code {i : Instr} {s : State} {e : Err} (h : i.earlyError s = some e) :
    e.code ∈ [(1 : BitVec 8), 2, 3, 5] ∨ (e.code = 6 ∧ i.windowsInRange s = true) := by
  simp only [Instr.earlyError] at h
  split_ifs at h with hillegal husage hconstruct hcapacity hoverlap <;> cases h
  · exact .inl (by decide)
  · exact .inl (by decide)
  · exact .inl (by decide)
  · exact .inl (by decide)
  · simp only [Bool.or_eq_true, Bool.not_eq_true', not_or, Bool.not_eq_false] at hcapacity
    obtain ⟨-, hrange⟩ := hcapacity
    exact .inr ⟨rfl, hrange⟩

/-- A command whose windows are at fault answers with an early error. -/
theorem exec_of_badWindows {i : Instr} {s t : State} (h : exec i s = .next t)
    (hbad : i.windowsInRange s = false ∨ i.windowsOverlap = true) :
    ∃ e, i.earlyError s = some e ∧ t = s.raise e := by
  rcases exec_cases h with herr | ⟨hnone, -⟩
  · exact herr
  · obtain ⟨-, hrange, hoverlap⟩ := earlyError_eq_none.mp hnone
    simp [hrange, hoverlap] at hbad

/-- Settles O22: with the meaning of both checks, the range row and the overlap row of R287 give the
response where every earlier row passes, and an early error in any case. -/
theorem windowChecksGuardEveryCommand : Obligations.WindowChecksGuardEveryCommand := by
  refine ⟨State.inRange_iff, partialOverlap_iff,
    fun i s hpassed => ⟨fun addr len hw hout => ?range,
      fun src slen dst dcap hs hd hr hr' ho => ?overlap⟩,
    fun i s t h => ⟨fun addr len hw hout => ?rangeEarly,
      fun src slen dst dcap hs hd ho => ?overlapEarly⟩⟩
  case range =>
    have hbad := windowsInRange_eq_false hw hout
    exact exec_of_earlyError (e := .capacity) (by simp [earlyError_of_checksPassed hpassed, hbad])
  case overlap =>
    have hrange := (windowsInRange_iff hs hd s).mpr ⟨hr, hr'⟩
    have hover := (windowsOverlap_eq hs hd).trans ho
    exact exec_of_earlyError (e := .overlap)
      (by simp [earlyError_of_checksPassed hpassed, hrange, hover])
  case rangeEarly =>
    have hbad := windowsInRange_eq_false hw hout
    obtain ⟨e, he, rfl⟩ := exec_of_badWindows h (.inl hbad)
    refine ⟨rfl, (earlyError_code he).resolve_right fun ⟨_, hrange⟩ => ?_⟩
    simp [hbad] at hrange
  case overlapEarly =>
    obtain ⟨e, he, rfl⟩ := exec_of_badWindows h (.inr ((windowsOverlap_eq hs hd).trans ho))
    refine ⟨rfl, ?_, fun hsix => (windowsInRange_iff hs hd s).mp ?_⟩
    · rcases earlyError_code he with hcode | ⟨hcode, -⟩
      · exact List.mem_append_left [6] hcode
      · simp [hcode]
    · rcases earlyError_code he with hcode | ⟨-, hrange⟩
      · rw [show e.code = 6 from hsix] at hcode
        exact absurd hcode (by decide)
      · exact hrange

end Sys2Proof.Machine
end

section
/-! Reading and writing `M` (20_memory.md R62 to R64), and `CBC.DEC` in place (R77). -/

namespace Sys2Proof.Machine

/-- A string just written reads back (R62, R63). -/
theorem State.readBytes_writeBytes (s : State) (a : Word) (X : List Byte) :
    (s.writeBytes a X).readBytes a X.length = X := by
  refine List.ext_getElem (State.readBytes_length ..) fun i _ hi => ?_
  simp [State.readBytes, State.readByte_writeBytes, hi]

/-- Settles O21: the three laws are those of a read, of a read after a write, and of the frame. -/
theorem memoryReadsWhatWasWritten : Obligations.MemoryReadsWhatWasWritten :=
  fun s a X => ⟨fun n i hi => s.readBytes_getElem? a n i hi, s.readBytes_writeBytes a X,
    fun x hx => s.readByte_writeBytes_of_outside a X x hx⟩

/-! ### `CBC.DEC` in place -/

/-- `RESULT` says how long an output is that fits its window. -/
theorem State.output_result_toNat (s : State) (dst : Word) {X : List Byte} {dcap : Word}
    (h : X.length ≤ dcap.toNat) : (s.output dst X).result.toNat = X.length := by
  rw [State.output_result, BitVec.toNat_ofNat]
  exact Nat.mod_eq_of_lt (by omega)

/-- An output that fits its window reads back from `DST` (R66). -/
theorem State.readBytes_output (s : State) (dst : Word) {X : List Byte} {dcap : Word}
    (h : X.length ≤ dcap.toNat) :
    (s.output dst X).readBytes dst (s.output dst X).result.toNat = X := by
  rw [s.output_result_toNat dst h]
  exact s.readBytes_writeBytes dst X

/-- What `CBC.DEC` of port `c` makes of the bytes of a source window (R147). -/
def State.cbcPlaintext (s : State) (c : Ctx) (src slen : Word) : Option (List Byte) :=
  cbcDecrypt (bcDec c (s.blockSizeAt c)) (s.blockSizeAt c) (s.cbcAt c).scheme (s.cbcAt c).iv
    (s.readBytes src slen.toNat)

/-- A late end that is no error is an output that fits. -/
theorem State.lateOutput_ok {s : State} {dst dcap : Word} {U : Option (List Byte)}
    (h : (s.lateOutput dst dcap U).status = 0) :
    ∃ P, U = some P ∧ P.length ≤ dcap.toNat ∧ s.lateOutput dst dcap U = s.output dst P := by
  rcases s.lateOutput_cases dst dcap U with hok | ⟨P, -, -, he⟩ | ⟨-, he⟩
  · exact hok
  · rw [he] at h
    exact absurd h Err.capacity.code_ne_zero
  · rw [he] at h
    exact absurd h Err.content.code_ne_zero

/-- A `CBC.DEC` that ends well has written its plaintext, which does not depend on `DST`. -/
theorem exec_cbcDec_ok {c : Ctx} {src slen dst dcap : Word} {s t : State}
    (h : exec (.cbcDec c src slen dst dcap) s = .next t) (hok : t.status = 0) :
    ∃ P, s.cbcPlaintext c src slen = some P ∧ P.length ≤ dcap.toNat ∧ t = s.output dst P := by
  rcases execCbcDec_cases h with ⟨e, -, rfl⟩ | ⟨-, -, -, -, -, -, -, rfl⟩
  · exact absurd hok e.code_ne_zero
  · exact State.lateOutput_ok hok

/-- Settles O34: both runs write the one plaintext, the source being read before anything is
written. -/
theorem cbcDecryptsInPlace : Obligations.CbcDecryptsInPlace := by
  intro c src slen dst dcap s t u ht htok hu huok
  obtain ⟨P, hP, hfits, rfl⟩ := exec_cbcDec_ok ht htok
  obtain ⟨Q, hQ, -, rfl⟩ := exec_cbcDec_ok hu huok
  obtain rfl : P = Q := Option.some.inj (hP.symm.trans hQ)
  exact ⟨rfl, (s.readBytes_output src hfits).trans (s.readBytes_output dst hfits).symm⟩

end Sys2Proof.Machine
end

section
/-! The commands that turn a source window into a destination window (41_cbc.md R146 and R148,
43_aead.md R207 and R208, 44_ascon.md R244 and R245): all make checks of their own and then those of
their windows. -/

namespace Sys2Proof.Machine

/-! ### Their checks -/

section TwoWindowCommand

variable {s : State} {own : List (Bool × Err)} (body : Host.Outcome State Fault Refusal)

theorem command_windows_passed {src slen dst dcap : Word} (hown : firstError own = none)
    (hw : s.windowsOk src slen dst dcap) :
    command s (own ++ s.windowChecks src slen dst dcap) body = body :=
  command_of_passed body
    (by rw [firstError_append, hown, Option.none_or, firstError_windowChecks.mpr hw])

theorem command_own_failed {e : Err} (rest : List (Bool × Err)) (hown : firstError own = some e) :
    command s (own ++ rest) body = .next (s.raise e) :=
  command_of_error body (by rw [firstError_append, hown, Option.some_or])

end TwoWindowCommand

/-! ### CBC -/

section Cbc

variable {s : State} {c : Ctx} (hc : s.hasCtx c = true) (hv : (s.cbcAt c).valid = true)
include hc hv

/-- The only check of its own that `CBC.ENC` makes of a live context is of sizes. -/
theorem firstError_cbcEnc (n : Nat) (dcap : Word) :
    firstError [s.noCtx c, (!(s.cbcAt c).valid, .usage),
        (decide (2 ^ 32 ≤ n) || decide (dcap.toNat < n), .capacity)] =
      if dcap.toNat < n ∨ 2 ^ 32 ≤ n then some .capacity else none := by
  simp [hc, hv, or_comm]

/-- The only checks of its own that `CBC.DEC` makes of a live context are of sizes. -/
theorem firstError_cbcDec (bs : Nat) (slen dcap : Word) :
    firstError [s.noCtx c, (!(s.cbcAt c).valid, .usage), (slen.toNat % bs != 0, .capacity),
        (slen != 0 && decide (dcap.toNat < slen.toNat - bs), .capacity)] =
      if slen.toNat % bs ≠ 0 ∨ dcap.toNat + bs < slen.toNat then some .capacity else none := by
  simp [hc, hv, cbcDec_short_iff, ite_or]

end Cbc

/-- Settles O29: a ciphertext has the `encSize` bytes the size check asks for. -/
theorem cbcEncAnswers : Obligations.CbcEncAnswers := by
  intro c src slen dst dcap s hc hv
  refine ⟨fun _ _ hiv hn hw => ?fits, fun hn => ?short⟩
  case fits =>
    refine (command_windows_passed _ ?_ hw).trans ((if_pos hiv).trans ?_)
    · rw [firstError_cbcEnc hc hv, if_neg (by omega)]
    · rw [State.output_of_length _ _ ((cbcEncrypt_length ..).trans
        (congrArg (encSize _ · _) (s.source_length src slen)))]
      rfl
  case short =>
    exact command_own_failed _ _ ((firstError_cbcEnc hc hv _ _).trans (if_pos hn))

/-- Settles O30: past its checks `CBC.DEC` ends in the plaintext where it unpads and fits, else late. -/
theorem cbcDecAnswers : Obligations.CbcDecAnswers := by
  intro c src slen dst dcap s hc hv
  refine ⟨fun hn => ?early, fun hiv hwhole hroom hw => ?passed⟩
  case early =>
    exact command_own_failed _ _ ((firstError_cbcDec hc hv _ _ _).trans (if_pos (by omega)))
  case passed =>
    have hend : ∀ U, s.cbcPlaintext c src slen = U →
        exec (.cbcDec c src slen dst dcap) s = .next (s.lateOutput dst dcap U) := by
      rintro _ rfl
      refine (command_windows_passed _ ?_ hw).trans (if_pos hiv)
      rw [firstError_cbcDec hc hv, if_neg (by omega)]
    refine ⟨fun P hP hfits => ?fits, fun P hP hlong => ⟨_, hend _ hP, ?long⟩,
      fun hP => ⟨_, hend _ hP, rfl, rfl⟩⟩
    case fits => rw [hend _ hP, State.lateOutput, if_neg (by omega), State.output_eq]
    case long =>
      rw [State.lateOutput, if_pos hlong]
      exact ⟨rfl, rfl⟩

/-! ### AEAD and Ascon -/

/-- The only checks of its own that an AEAD data command makes of a live context are of sizes. -/
theorem firstError_aeadData {s : State} {c : Ctx} (hc : s.hasCtx c = true)
    (hv : (s.aeadAt c).valid = true) (hg : (s.aeadAt c).stage ≠ .done) (slen dcap : Word) :
    firstError [s.noCtx c, (s.aeadAt c).finished, (dcap.toNat < slen.toNat, .capacity),
        (2 ^ 64 ≤ (s.aeadAt c).ctLen.toNat + slen.toNat, .capacity)] =
      if dcap.toNat < slen.toNat ∨ 2 ^ 64 ≤ (s.aeadAt c).ctLen.toNat + slen.toNat
      then some .capacity else none := by
  simp [hc, AeadCtx.finished_of_live hv hg, ite_or]

/-- The only check of its own that an Ascon data command makes of a live context is of sizes. -/
theorem firstError_ascData {s : State} {c : Ctx} (hc : s.hasCtx c = true)
    (hv : (s.ascAt c).valid = true) (hg : (s.ascAt c).stage ≠ .done) (slen dcap : Word) :
    firstError [s.noCtx c, (s.ascAt c).finished, (dcap.toNat < slen.toNat, .capacity)] =
      if dcap.toNat < slen.toNat then some .capacity else none := by
  simp [hc, AscCtx.finished_of_live hv hg]

/-- What a data command answers that writes as many bytes as it reads. -/
theorem command_data_passed {s u : State} {own : List (Bool × Err)} {src slen dst dcap : Word}
    {Y : List Byte} (hown : firstError own = none) (hw : s.windowsOk src slen dst dcap)
    (hY : Y.length = slen.toNat) :
    command s (own ++ s.windowChecks src slen dst dcap) (.next (u.output dst Y)) =
      .next ((u.writeBytes dst Y).finish slen.toNat) := by
  rw [command_windows_passed _ hown hw, State.output_of_length u dst hY]

/-- Settles O45: encryption and decryption differ in the bytes that are hashed. -/
theorem aeadDataAnswers : Obligations.AeadDataAnswers := by
  intro c src slen dst dcap s hc hv hg
  have hsizes := firstError_aeadData hc hv hg slen dcap
  refine ⟨fun hn hcount hw => ?fits, fun hn => ?short⟩
  case fits =>
    have hown := hsizes.trans (if_neg (by omega))
    refine ⟨AeadCtx.finalizeAD_stage _ hg, (command_data_passed hown hw (by simp)).trans ?_,
      (command_data_passed hown hw (by simp)).trans ?_⟩
    · simp [AeadCtx.hashCiphertext, State.source_eq]
    · simp [AeadCtx.hashCiphertext, State.source_eq]
  case short =>
    have hown := hsizes.trans (if_pos hn)
    exact ⟨command_own_failed _ _ hown, command_own_failed _ _ hown⟩

/-- Settles O55: `encrypt` and `decrypt` are the two loops after the end of associated data, and put
out a byte for each they take. -/
theorem ascDataAnswers : Obligations.AscDataAnswers := by
  intro c src slen dst dcap s hc hv hg
  have hsizes := firstError_ascData hc hv hg slen dcap
  refine ⟨fun hn hw => ?fits, fun hn => ?short⟩
  case fits =>
    have hown := hsizes.trans (if_neg (by omega))
    exact ⟨AscCtx.finalizeAD_stage _ hg, command_data_passed hown hw (by simp),
      command_data_passed hown hw (by simp)⟩
  case short =>
    have hown := hsizes.trans (if_pos hn)
    exact ⟨command_own_failed _ _ hown, command_own_failed _ _ hown⟩

end Sys2Proof.Machine
end

section
/-! The encoding (30_encoding.md R90 to R96): a descriptor is the words of one command exactly if it
decodes to that command, and what does not decode raises `E_ILLEGAL`. -/

namespace Sys2Proof

/-! ### A descriptor and its fields (R91) -/

theorem Descriptor.unit_of_opcode (d : Descriptor) : d.unit = d.opcode / 2 ^ 12 := by
  simp only [Descriptor.opcode, Descriptor.unit, Descriptor.op, Descriptor.var, Word.bits]
  omega

theorem Descriptor.op_of_opcode (d : Descriptor) : d.op = d.opcode / 2 ^ 8 % 2 ^ 4 := by
  simp only [Descriptor.opcode, Descriptor.unit, Descriptor.op, Descriptor.var, Word.bits]
  omega

theorem Descriptor.var_of_opcode (d : Descriptor) : d.var = d.opcode % 2 ^ 8 := by
  simp only [Descriptor.opcode, Descriptor.unit, Descriptor.op, Descriptor.var, Word.bits]
  omega

/-- With `RSV` 0 the first word is put together from its fields: no bit is outside them. -/
theorem Descriptor.w0_eq_header {d : Descriptor} (h : d.rsv = 0) :
    d.w0 = header d.unit d.op d.ctx d.ctx2 d.var := by
  apply BitVec.eq_of_toNat_eq
  simp only [Descriptor.rsv, Descriptor.unit, Descriptor.op, Descriptor.var, Descriptor.ctx,
    Descriptor.ctx2, Word.bits, header, BitVec.toNat_ofNat] at h ⊢
  omega

/-- A descriptor with `RSV` 0 is put together from its opcode, its contexts and its other words. -/
theorem Descriptor.eq_words {d : Descriptor} (h : d.rsv = 0) :
    d = ⟨header (d.opcode / 2 ^ 12) (d.opcode / 2 ^ 8 % 2 ^ 4) d.ctx d.ctx2 (d.opcode % 2 ^ 8),
      d.w1, d.w2, d.w3, d.w4, d.w5⟩ := by
  rw [← d.unit_of_opcode, ← d.op_of_opcode, ← d.var_of_opcode, ← d.w0_eq_header h]

/-! ### The fields of a command's words -/

section Words

variable {i : Instr} {unit op var : Nat} {c e : Ctx} {w1 w2 w3 w4 w5 : Word}
  (h : encode i = ⟨header unit op c e var, w1, w2, w3, w4, w5⟩ := by rfl)
  (hu : unit < 16 := by decide) (ho : op < 16 := by decide)
  (hv : var < 256 := by simp [Scheme.code_lt])
include h hu ho hv

theorem encode_rsv_of_words : (encode i).rsv = 0 := by
  rw [h, header_rsv c e w1 w2 w3 w4 w5 hu ho hv]

theorem encode_ctx_of_words : (encode i).ctx = c := by
  rw [h, header_ctx c e w1 w2 w3 w4 w5 hu ho hv]

theorem encode_ctx2_of_words : (encode i).ctx2 = e := by
  rw [h, header_ctx2 c e w1 w2 w3 w4 w5 hu ho hv]

theorem encode_unit_op_var_of_words :
    (encode i).unit = unit ∧ (encode i).op = op ∧ (encode i).var = var := by
  rw [h]
  exact ⟨header_unit c e w1 w2 w3 w4 w5 hu ho hv, header_op c e w1 w2 w3 w4 w5 hu ho hv,
    header_var c e w1 w2 w3 w4 w5 hu ho hv⟩

theorem encode_opcode_of_words : (encode i).opcode = unit * 4096 + op * 256 + var := by
  obtain ⟨hunit, hop, hvar⟩ := encode_unit_op_var_of_words h hu ho hv
  rw [Descriptor.opcode, hunit, hop, hvar]

theorem encode_unit_op_mem {l : List (Nat × Nat)} (hl : (unit, op) ∈ l := by decide) :
    ((encode i).unit, (encode i).op) ∈ l := by
  obtain ⟨hunit, hop, -⟩ := encode_unit_op_var_of_words h hu ho hv
  rwa [hunit, hop]

end Words

/-! ### The opcode map (R94) -/

/-- Steps (1) to (3) of R95 passed: `RSV` is 0, and the row of the opcode accepts. -/
theorem decode_eq_ok {d : Descriptor} {i : Instr} :
    decode d = .ok i ↔ d.rsv = 0 ∧ d.row = .ok i := by
  by_cases hr : d.rsv = 0 <;> simp [decode, hr]

theorem accept_eq_ok {b : Bool} {i j : Instr} : accept b i = .ok j ↔ b = true ∧ i = j := by
  cases b <;> simp [accept]

/-- What a row of R94 accepts is the words of the command it reads: the opcode and the operands are
those of the descriptor, and the fields the row's format does not use are 0. -/
theorem encode_of_row {d : Descriptor} {i : Instr} (hr : d.rsv = 0) (h : d.row = .ok i) :
    encode i = d := by
  have hd := d.eq_words hr
  unfold Descriptor.row at h
  split at h
  -- no row has the opcode
  case h_49 => cases h
  all_goals
    rename_i hop
    obtain ⟨hunused, rfl⟩ := accept_eq_ok.1 h
    simp only [Bool.and_eq_true, beq_iff_eq] at hunused
    simp only [hop, hunused] at hd
    exact hd.symm

/-- The decoder gives a command back where the row of its opcode does. -/
theorem decode_encode_of_row {i : Instr} {unit op var : Nat} {c e : Ctx} {w1 w2 w3 w4 w5 : Word}
    (hwords : encode i = ⟨header unit op c e var, w1, w2, w3, w4, w5⟩)
    (hrow : (encode i).opcode = unit * 4096 + op * 256 + var → (encode i).ctx = c →
      (encode i).ctx2 = e → (encode i).row = .ok i)
    (hu : unit < 16 := by decide) (ho : op < 16 := by decide) (hv : var < 256 := by decide) :
    decode (encode i) = .ok i :=
  decode_eq_ok.2 ⟨encode_rsv_of_words hwords hu ho hv,
    hrow (encode_opcode_of_words hwords hu ho hv) (encode_ctx_of_words hwords hu ho hv)
      (encode_ctx2_of_words hwords hu ho hv)⟩

/-- The opcode of a command picks its row, the contexts read back from the header word, and the
other words are the operands themselves. -/
theorem decode_encode (i : Instr) : decode (encode i) = .ok i := by
  cases i with
  | cbcInit c scheme src slen =>
    cases scheme <;>
    · refine decode_encode_of_row rfl fun hopcode hctx hctx2 => ?_
      simp only [Descriptor.row, hopcode, Scheme.code, Descriptor.formatCS, hctx, hctx2]
      rfl
  | _ =>
    refine decode_encode_of_row rfl fun hopcode hctx hctx2 => ?_
    simp only [Descriptor.row, hopcode, Descriptor.formatC, Descriptor.formatCC,
      Descriptor.formatCI, Descriptor.formatCS, Descriptor.formatCD, Descriptor.formatCSD,
      Descriptor.formatCL, Descriptor.formatLI, Descriptor.formatSDI, Descriptor.formatSD, hctx,
      hctx2]
    rfl

/-- Encoder and decoder are inverse to each other: a descriptor decodes to the command, if any,
whose words it is. -/
theorem decode_eq_ok_iff_encode {d : Descriptor} {i : Instr} :
    decode d = .ok i ↔ encode i = d := by
  constructor
  · intro h
    obtain ⟨hr, hrow⟩ := decode_eq_ok.1 h
    exact encode_of_row hr hrow
  · rintro rfl
    exact decode_encode i

/-- Settles O1, command by command (`decode_encode`). -/
theorem decodeInvertsEncode : Obligations.DecodeInvertsEncode := decode_encode

/-- Settles O2: each row of the opcode map accepts only the words of its commands
(`encode_of_row`). -/
theorem encodeInvertsDecode : Obligations.EncodeInvertsDecode :=
  fun _ _ h => decode_eq_ok_iff_encode.1 h

/-- Settles O3: the words are those the commands encode to. -/
theorem specWordsDecode : Obligations.SpecWordsDecode :=
  ⟨decode_encode (.padszP7 5 8), decode_encode (.cbcInit 0 .pkcs7 0x10 4),
    decode_encode (.p13Write 0 0x120 34), decode_encode (.scInitCc20 1 0x300 44),
    decode_encode (.aeadInit 2 1), decode_encode (.ascEnc 0 0x150 4 0x200 4),
    decode_encode (.ashInitXof 2 20)⟩

/-! ### What no command encodes (R92, R94, R96) -/

/-- The rows of the opcode map by number (R94): which operations a unit has, and which variants. -/
abbrev Listed (unit op var : Nat) : Prop :=
  (unit = 1 ∧ op < 3 ∧ var < 3) ∨
  (unit = 2 ∧ (op = 0 ∧ var < 3 ∨ 0 < op ∧ op < 4 ∧ var = 0)) ∨
  (unit = 3 ∧ op < 6 ∧ var = 0) ∨
  (unit = 4 ∧ op = 0 ∧ var < 4) ∨
  (unit = 5 ∧ op < 7 ∧ var = 0) ∨
  (unit = 6 ∧ (op = 0 ∧ var < 3 ∨ 0 < op ∧ op < 8 ∧ var = 0)) ∨
  (unit = 7 ∧ (op = 0 ∧ var < 2 ∨ 0 < op ∧ op < 5 ∧ var = 0))

theorem encode_listed_of_words {i : Instr} {unit op var : Nat} {c e : Ctx} {w1 w2 w3 w4 w5 : Word}
    (h : encode i = ⟨header unit op c e var, w1, w2, w3, w4, w5⟩ := by rfl)
    (hl : Listed unit op var := by decide) :
    Listed (encode i).unit (encode i).op (encode i).var := by
  obtain ⟨hunit, hop, hvar⟩ := encode_unit_op_var_of_words h (by omega) (by omega) (by omega)
  rwa [hunit, hop, hvar]

/-- The fields `UNIT`, `OP` and `VAR` of a command are of a row of the opcode map. -/
theorem encode_listed (i : Instr) : Listed (encode i).unit (encode i).op (encode i).var := by
  cases i with
  | cbcInit c scheme src slen => cases scheme <;> exact encode_listed_of_words
  | _ => exact encode_listed_of_words

/-- `PAD` commands name no context. -/
theorem encode_ctx_of_unit {i : Instr} (h : (encode i).unit = 1) : (encode i).ctx = 0 := by
  cases i with
  | padszZ | padszP7 | padszI4 | padZ | padP7 | padI4 | unpadZ | unpadP7 | unpadI4 =>
    exact encode_ctx_of_words
  | cbcInit c scheme =>
    exact absurd (h.symm.trans (Machine.unit_of_encode rfl (hv := scheme.code_lt))) (by decide)
  | _ => exact absurd (h.symm.trans (Machine.unit_of_encode rfl)) (by decide)

/-- The commands that use `CTX2`. -/
theorem encode_ctx2_used {i : Instr} (h : (encode i).ctx2 ≠ 0) :
    ((encode i).unit, (encode i).op) ∈ [(3, 1), (3, 5), (5, 0), (6, 7), (7, 4)] := by
  cases i with
  | p13Initsc | p13Clone | aeadInit | ascClone | ashClone => exact encode_unit_op_mem
  | _ => exact absurd encode_ctx2_of_words h

/-- The commands that use `SRC`. -/
theorem encode_w1_used {i : Instr} (h : (encode i).w1 ≠ 0) :
    ((encode i).unit, (encode i).op) ∈ [(1, 1), (1, 2), (2, 0), (2, 2), (2, 3), (3, 0), (3, 2),
      (4, 0), (5, 1), (5, 2), (5, 3), (5, 5), (6, 0), (6, 1), (6, 2), (6, 3), (6, 5), (7, 1)] := by
  cases i with
  | padszZ | padszP7 | padszI4 | cbcEncsz | p13Initsc | p13Sumin | p13Sum | p13Clone | aeadInit
  | aeadFin | aeadEncsz | ascFin | ascEncsz | ascClone | ashInitHash | ashInitXof | ashSumin
  | ashSum | ashClone => exact absurd rfl h
  | _ => exact encode_unit_op_mem

/-- The commands that use `SLEN`. -/
theorem encode_w2_used {i : Instr} (h : (encode i).w2 ≠ 0) :
    ((encode i).unit, (encode i).op) ∈ [(1, 0), (1, 1), (1, 2), (2, 0), (2, 1), (2, 2), (2, 3),
      (3, 0), (3, 2), (4, 0), (5, 1), (5, 2), (5, 3), (5, 5), (5, 6), (6, 0), (6, 1), (6, 2),
      (6, 3), (6, 5), (6, 6), (7, 1)] := by
  cases i with
  | p13Initsc | p13Sumin | p13Sum | p13Clone | aeadInit | aeadFin | ascFin | ascClone | ashInitHash
  | ashInitXof | ashSumin | ashSum | ashClone => exact absurd rfl h
  | _ => exact encode_unit_op_mem

/-- The commands that use `DST` and `DCAP`. -/
theorem encode_w3_w4_used {i : Instr} (h : (encode i).w3 ≠ 0 ∨ (encode i).w4 ≠ 0) :
    ((encode i).unit, (encode i).op) ∈ [(1, 1), (1, 2), (2, 2), (2, 3), (3, 3), (3, 4), (5, 2),
      (5, 3), (5, 4), (6, 2), (6, 3), (6, 4), (7, 2), (7, 3)] := by
  cases i with
  | padZ | padP7 | padI4 | unpadZ | unpadP7 | unpadI4 | cbcEnc | cbcDec | p13Sumin | p13Sum
  | aeadEnc | aeadDec | aeadFin | ascEnc | ascDec | ascFin | ashSumin | ashSum =>
    exact encode_unit_op_mem
  | _ => exact absurd ⟨rfl, rfl⟩ (not_and_or.mpr h)

/-- The commands that use `IMM`. -/
theorem encode_w5_used {i : Instr} (h : (encode i).w5 ≠ 0) :
    ((encode i).unit, (encode i).op) ∈ [(1, 0), (1, 1)] ∨
      ((encode i).unit, (encode i).op, (encode i).var) = (7, 0, 1) := by
  cases i with
  | padszZ | padszP7 | padszI4 | padZ | padP7 | padI4 => exact .inl encode_unit_op_mem
  | ashInitXof c imm =>
    obtain ⟨hunit, hop, hvar⟩ := encode_unit_op_var_of_words (i := .ashInitXof c imm)
    rw [hunit, hop, hvar]
    exact .inr rfl
  | _ => exact absurd rfl h

/-- A descriptor that steps (1) to (3) of R95 refuse raises `E_ILLEGAL` (R281). -/
theorem Machine.step_refused {s : Machine.State} {d : Descriptor} {rest : List Machine.HostAction}
    {e : Illegal} (h : s.inputs = .command d :: rest) (hd : decode d = .error e) :
    Machine.step s = .next ((s.withInputs rest).raise .illegal) := by
  simp [Machine.step, h, hd, Machine.State.rejectDescriptor]

/-- Settles O4: the step refuses what does not decode, and what decodes is the words of a command
(`decode_eq_ok_iff_encode`), which have none of the faults that are named. -/
theorem reservedEncodingsAreIllegal : Obligations.ReservedEncodingsAreIllegal := by
  intro d s rest hin hbad
  cases hd : decode d with
  | error e => exact Machine.step_refused hin hd
  | ok i =>
    exfalso
    obtain ⟨hr, -⟩ := decode_eq_ok.1 hd
    obtain rfl := decode_eq_ok_iff_encode.1 hd
    have hrow := encode_listed i
    rcases hbad with ⟨e, he⟩ | hrsv | h | h | h | h | h | h | h | h | h | ⟨hctx, hunit⟩ |
      ⟨hctx2, hno⟩ | ⟨hw1, hno⟩ | ⟨hw2, hno⟩ | ⟨hw34, hno⟩ | ⟨hw5, hno, hno'⟩
    · simp [hd] at he
    · exact hrsv hr
    -- the nine clauses on `UNIT`, `OP` and `VAR` are outside every row
    iterate 9 omega
    · exact hctx (encode_ctx_of_unit hunit)
    · exact hno (encode_ctx2_used hctx2)
    · exact hno (encode_w1_used hw1)
    · exact hno (encode_w2_used hw2)
    · exact hno (encode_w3_w4_used hw34)
    · exact (encode_w5_used hw5).elim hno hno'

end Sys2Proof
end

section
/-! The PAD unit (40_pad.md): what unpads to what under each scheme (R122, R123, R133, R286), and the
answers of its nine commands (R124 to R132). -/

namespace Sys2Proof.Machine

/-! ### Zero -/

theorem stripZeros_append (X : List Byte) (n : Nat) : stripZeros (X ++ zeros n) = stripZeros X := by
  have hblock : X ++ zeros n = stripZeros X ++ zeros (X.length - (stripZeros X).length + n) := by
    conv_lhs => rw [← stripZeros_append_zeros X]
    simp [zeros]
  rw [hblock, stripZeros_of_append _ _ (stripZeros_getLast? X)]

theorem stripZeros_eq_self_iff {X : List Byte} : stripZeros X = X ↔ X.getLast? ≠ some 0 := by
  refine ⟨fun h => h ▸ stripZeros_getLast? X, fun h => ?_⟩
  simpa [zeros] using stripZeros_of_append X 0 h

theorem unpad_zero_pad (X : List Byte) (bs : Nat) :
    unpad .zero (pad .zero X bs) = some (stripZeros X) :=
  congrArg some (stripZeros_append X _)

/-! ### ISO/IEC 7816-4 -/

theorem unpad_iso7816_eq_some_iff_stripZeros {B X : List Byte} :
    unpad .iso7816 B = some X ↔ stripZeros B = X ++ [0x80] := by
  simp only [unpad, unpadIso7816]
  rcases List.eq_nil_or_concat (stripZeros B) with h | ⟨Y, m, h⟩
  · simp [h]
  · by_cases hm : m = 0x80 <;> simp [h, hm, and_comm (a := Y = X)]

/-- A block unpads to `X` exactly if it is `X`, the marker and zero bytes: the marker is not a zero
byte, so it is where stripping stops. -/
theorem unpad_iso7816_eq_some_iff {B X : List Byte} :
    unpad .iso7816 B = some X ↔ ∃ k, B = X ++ [0x80] ++ zeros k := by
  rw [unpad_iso7816_eq_some_iff_stripZeros]
  constructor
  · intro h
    exact ⟨_, h ▸ (stripZeros_append_zeros B).symm⟩
  · rintro ⟨k, rfl⟩
    exact stripZeros_of_append _ k (by simp)

theorem pad_iso7816 (X : List Byte) (bs : Nat) :
    pad .iso7816 X bs = X ++ [0x80] ++ zeros (bs - X.length - 1) := by
  simp [pad]

/-! ### PKCS#7 -/

theorem unpad_pkcs7_append (X : List Byte) {N : Byte} (hN : N ≠ 0) :
    unpad .pkcs7 (X ++ List.replicate N.toNat N) = some X := by
  have hpos : N.toNat ≠ 0 := by simpa [← BitVec.toNat_inj] using hN
  have hlast : (X ++ List.replicate N.toNat N).getLast? = some N := by
    simp [List.getLast?_append, List.getLast?_replicate, hpos]
  simpa [unpad, unpadPkcs7, hlast] using hN

theorem unpad_pkcs7_pad {X : List Byte} {bs : Nat} (h : X.length < bs) (hbs : bs ≤ 255) :
    unpad .pkcs7 (pad .pkcs7 X bs) = some X := by
  have hN : (BitVec.ofNat 8 (bs - X.length)).toNat = bs - X.length := by
    rw [BitVec.toNat_ofNat]; omega
  have hne : BitVec.ofNat 8 (bs - X.length) ≠ 0 := fun h0 => by
    simp only [h0, BitVec.ofNat_eq_ofNat, BitVec.toNat_ofNat] at hN
    omega
  simpa only [pad, hN] using unpad_pkcs7_append X hne

theorem unpad_pkcs7_eq_none_iff {B : List Byte} :
    unpad .pkcs7 B = none ↔
      ∀ N : Byte, B.getLast? = some N →
        N = 0 ∨ B.length < N.toNat ∨ ∃ b ∈ B.drop (B.length - N.toNat), b ≠ N := by
  simp only [unpad, unpadPkcs7]
  cases hB : B.getLast? with
  | none => simp
  | some N => simp [or_iff_not_imp_left]

/-! ### Round trip and content errors -/

/-- Settles O26: each scheme's padding is of the form its unpadding takes off; Zero takes off the
trailing zero bytes of the input too. -/
theorem paddingRoundTrip : Obligations.PaddingRoundTrip := by
  intro X bs hX hbs
  refine ⟨unpad_pkcs7_pad hX hbs, ?iso, ?zero, stripZeros X, _, unpad_zero_pad X bs,
    (stripZeros_append_zeros X).symm, stripZeros_getLast? X⟩
  case iso => exact unpad_iso7816_eq_some_iff.mpr ⟨_, pad_iso7816 X bs⟩
  case zero =>
    have hempty : X = [] → X.getLast? ≠ some 0 := by rintro rfl; simp
    rw [unpad_zero_pad, Option.some_inj, stripZeros_eq_self_iff, or_iff_right_of_imp hempty]

/-- Settles O27: a block is a content error if it is not of the form its scheme takes off. -/
theorem contentErrorCauses : Obligations.ContentErrorCauses := by
  refine fun B => ⟨unpad_pkcs7_eq_none_iff, ?_, Option.some_ne_none _⟩
  simp only [Option.eq_none_iff_forall_ne_some, ne_eq, unpad_iso7816_eq_some_iff, zeros, not_exists]

/-! ### PADSZ -/

section BlockSize

variable {imm : Word} {s : State} {rest : List (Bool × Err)}
  (body : Host.Outcome State Fault Refusal)

theorem command_goodBlockSize (hlo : 1 ≤ imm.toNat) (hhi : imm.toNat ≤ 255) :
    command s (badBlockSize imm :: rest) body = command s rest body := by
  rw [badBlockSize_eq, decide_eq_false (by omega), command_passed]

theorem command_badBlockSize (h : imm.toNat < 1 ∨ 255 < imm.toNat) :
    command s (badBlockSize imm :: rest) body = .next (s.raise .capacity) := by
  rw [badBlockSize_eq, decide_eq_true h, command_failed]

end BlockSize

/-- Settles O23: the words are those the commands encode to, and past the check of the block size
only `PADSZ.Z` has an error left. -/
theorem padszAnswers : Obligations.PadszAnswers := by
  refine ⟨fun d slen imm => ?words, fun slen imm s => ⟨fun hlo hhi => ?size, fun hbad =>
    ⟨command_badBlockSize _ hbad, command_badBlockSize _ hbad, command_badBlockSize _ hbad⟩⟩⟩
  case words =>
    simp only [decode_eq_ok_iff_encode, eq_comm (a := d)]
    exact ⟨.rfl, .rfl, .rfl⟩
  case size =>
    refine ⟨fun hlt => (command_goodBlockSize _ hlo hhi).trans ?room, fun heq =>
      (command_goodBlockSize _ hlo hhi).trans ?full, fun hlong =>
      (command_goodBlockSize _ hlo hhi).trans ?long, command_goodBlockSize _ hlo hhi,
      command_goodBlockSize _ hlo hhi⟩
    case room => simp [padSize, hlt, hlt.not_gt]
    case full => simp [padSize, heq]
    case long => simp [hlong]

/-! ### PAD -/

section Pad

variable {sch : Scheme} {tooLong : Prop} [Decidable tooLong] {src slen dst dcap imm : Word}
  {s : State}

/-- The checks of its own that `PAD.*` makes are all of sizes. -/
theorem firstError_pad :
    firstError [badBlockSize imm, (decide tooLong, .capacity),
        (decide (dcap.toNat < imm.toNat), .capacity)] =
      if imm.toNat < 1 ∨ 255 < imm.toNat ∨ dcap.toNat < imm.toNat ∨ tooLong
      then some .capacity else none := by
  simp [badBlockSize_eq, ite_or, or_comm (b := tooLong)]

theorem execPad_short (h : imm.toNat < 1 ∨ 255 < imm.toNat ∨ dcap.toNat < imm.toNat ∨ tooLong) :
    execPad sch (decide tooLong) src slen dst dcap imm s = .next (s.raise .capacity) :=
  command_own_failed _ _ (firstError_pad.trans (if_pos h))

theorem execPad_fits (h : ¬(imm.toNat < 1 ∨ 255 < imm.toNat ∨ dcap.toNat < imm.toNat ∨ tooLong))
    (hw : s.windowsOk src slen dst dcap)
    (hlen : (pad sch (s.source src slen) imm.toNat).length = imm.toNat) :
    execPad sch (decide tooLong) src slen dst dcap imm s =
      .next ((s.writeBytes dst (pad sch (s.source src slen) imm.toNat)).finish imm.toNat) := by
  rw [← State.output_of_length s dst hlen]
  exact command_windows_passed _ (firstError_pad.trans (if_neg h)) hw

end Pad

/-- Settles O24: the checks are of sizes, and a padded block has `IMM` bytes. -/
theorem padAnswers : Obligations.PadAnswers := by
  intro src slen dst dcap imm s
  refine ⟨fun hlo hhi hroom hw => ⟨fun hle => ?full, fun hlt => ⟨?pkcs7, ?iso⟩⟩,
    fun h => execPad_short h, fun h => ⟨execPad_short h, execPad_short h⟩⟩
  case full =>
    refine (execPad_fits (by omega) hw (pad_zero_length _ _ (by simpa using hle))).trans ?_
    simp [pad, zeros, State.source_eq]
  case pkcs7 | iso =>
    refine (execPad_fits (by omega) hw (pad_length _ _ _ (by simpa using hlt))).trans ?_
    simp [pad, zeros, State.source_eq]

/-! ### UNPAD -/

theorem execUnpad_passed (sch : Scheme) {src slen dst dcap : Word} {s : State}
    (hw : s.windowsOk src slen dst dcap) :
    execUnpad sch src slen dst dcap s =
      .next (s.lateOutput dst dcap (unpad sch (s.readBytes src slen.toNat))) :=
  command_windows_passed (own := []) _ rfl hw

/-- Settles O25: past the windows all three commands end as `lateOutput` does. -/
theorem unpadAnswers : Obligations.UnpadAnswers := by
  intro sch i src slen dst dcap s hi hw
  have hend : ∀ U, unpad sch (s.readBytes src slen.toNat) = U →
      exec i s = .next (s.lateOutput dst dcap U) := by
    rintro _ rfl
    simp only [Prod.mk.injEq] at hi
    rcases hi with ⟨rfl, rfl⟩ | ⟨rfl, rfl⟩ | ⟨rfl, rfl⟩ <;> exact execUnpad_passed _ hw
  refine ⟨fun U hU hfits => ?fits, fun U hU hlong => ⟨_, hend _ hU, ?long⟩,
    fun hU => ⟨_, hend _ hU, rfl, rfl⟩⟩
  case fits => rw [hend _ hU, State.lateOutput, if_neg (by omega), State.output_eq]
  case long =>
    rw [State.lateOutput, if_pos hlong]
    exact ⟨rfl, rfl⟩

end Sys2Proof.Machine
end

section
/-! The CBC unit (41_cbc.md): what `CBC.INIT` and `CBC.ENCSZ` answer (R141 to R144), the length of a
ciphertext (R143), and the laws of the chain (R149). -/

namespace Sys2Proof.Machine

/-! ### Sizes -/

theorem padSize_usedOf {bs : Nat} (hbs : 1 ≤ bs) (sch : Scheme) (n : Nat) :
    padSize sch (usedOf n bs) bs = if sch = .zero ∧ bs ∣ n then 0 else bs := by
  cases sch
  case zero =>
    have hlt : n % bs < bs := Nat.mod_lt n hbs
    by_cases h : n % bs = 0 <;> simp [padSize, usedOf, Nat.dvd_iff_mod_eq_zero, h, hlt]
  case pkcs7 => simp [padSize]
  case iso7816 => simp [padSize]

/-- The size of a ciphertext: the whole blocks of the plaintext, and one more unless the scheme is
Zero and there is no remainder (R143). -/
theorem encSize_eq {bs : Nat} (hbs : 1 ≤ bs) (sch : Scheme) (n : Nat) :
    encSize sch n bs = n / bs * bs + if sch = .zero ∧ bs ∣ n then 0 else bs := by
  rw [encSize, padSize_usedOf hbs, Nat.div_mul_self_eq_mod_sub_self]

theorem dvd_encSize {bs : Nat} (hbs : 1 ≤ bs) (sch : Scheme) (n : Nat) : bs ∣ encSize sch n bs := by
  rw [encSize_eq hbs]
  refine Nat.dvd_add (Nat.dvd_mul_left ..) ?_
  split
  · exact Nat.dvd_zero bs
  · exact Nat.dvd_refl bs

/-- Settles O32: a ciphertext has `encSize` bytes, and `encSize` counts blocks. -/
theorem cbcCiphertextLength : Obligations.CbcCiphertextLength := by
  intro c bs sch iv P hbs _
  refine ⟨cbcEncrypt_length .., dvd_encSize hbs .., fun hsch => ?padded, fun hsch hdvd => ?whole⟩
  case padded =>
    have hsize : encSize sch P.length bs = P.length / bs * bs + bs := by simp [encSize_eq hbs, hsch]
    rw [hsize]
    refine ⟨?_, fun hdvd => by rw [Nat.div_mul_cancel hdvd]⟩
    rw [← Nat.succ_mul]
    exact Nat.lt_mul_of_div_lt (Nat.lt_succ_self _) hbs
  case whole => simp [encSize_eq hbs, hsch, hdvd, Nat.div_mul_cancel hdvd]

/-! ### The plaintext blocks -/

theorem flatten_map_slice (bs k : Nat) (X : List Byte) :
    ((List.range k).map fun i => slice X (i * bs) (i * bs + bs)).flatten = X.take (k * bs) := by
  induction k with
  | zero => simp
  | succ k ih =>
    rw [List.range_succ, List.map_append, List.flatten_append, ih, Nat.succ_mul, List.take_add]
    simp [slice]

theorem flatten_wholeBlocks (bs : Nat) (X : List Byte) :
    (wholeBlocks bs X).flatten = X.take (X.length - X.length % bs) := by
  rw [wholeBlocks, flatten_map_slice, Nat.div_mul_self_eq_mod_sub_self]

theorem remainder_length (bs : Nat) (X : List Byte) :
    (X.drop (X.length - X.length % bs)).length = X.length % bs := by
  rw [List.length_drop, Nat.sub_sub_self (Nat.mod_le ..)]

theorem length_of_mem_plainBlocks {bs : Nat} (hbs : 1 ≤ bs) {sch : Scheme} {P B : List Byte}
    (h : B ∈ plainBlocks sch bs P) : B.length = bs := by
  rcases List.mem_append.mp h with h | h
  · exact length_of_mem_wholeBlocks h
  · obtain ⟨-, hB⟩ := List.mem_ite_nil_right.mp h
    rw [List.mem_singleton.mp hB]
    exact pad_length _ _ _ (by rw [remainder_length]; exact Nat.mod_lt _ hbs)

/-- `T` is what of the plaintext `P` its last block holds, and `Bs` are the blocks before (R145).
Under Zero a whole block may be the last, padded with nothing; under the other schemes there is room
for a pad byte. -/
structure LastBlock (sch : Scheme) (bs : Nat) (P : List Byte) (Bs : List (List Byte))
    (T : List Byte) : Prop where
  blocks : plainBlocks sch bs P = Bs ++ [pad sch T bs]
  plaintext : Bs.flatten ++ T = P
  nonempty_of_zero : sch = .zero → T ≠ []
  room : sch ≠ .zero → T.length < bs

/-- A plaintext that gets padding has its remainder in the last block. -/
theorem lastBlock_remainder {bs : Nat} (hbs : 1 ≤ bs) {sch : Scheme} {P : List Byte}
    (hpad : ¬(sch = .zero ∧ bs ∣ P.length)) :
    LastBlock sch bs P (wholeBlocks bs P) (P.drop (P.length - P.length % bs)) where
  blocks := by rw [plainBlocks, padSize_usedOf hbs, if_neg hpad, if_pos (Nat.lt_of_succ_le hbs)]
  plaintext := by rw [flatten_wholeBlocks, List.take_append_drop]
  nonempty_of_zero hsch hT := by
    have hlen := remainder_length bs P
    rw [hT, List.length_nil] at hlen
    exact hpad ⟨hsch, Nat.dvd_of_mod_eq_zero hlen.symm⟩
  room _ := by
    rw [remainder_length]
    exact Nat.mod_lt _ hbs

/-- Under Zero a plaintext of whole blocks ends in the last of them. -/
theorem lastBlock_whole {bs : Nat} (hbs : 1 ≤ bs) {P T : List Byte} {Bs : List (List Byte)}
    (hdvd : bs ∣ P.length) (hBs : wholeBlocks bs P = Bs ++ [T]) : LastBlock .zero bs P Bs T := by
  have hT : T.length = bs := length_of_mem_wholeBlocks (X := P) (by simp [hBs])
  have hflat : (wholeBlocks bs P).flatten = P := by
    rw [flatten_wholeBlocks, Nat.mod_eq_zero_of_dvd hdvd, Nat.sub_zero, List.take_length]
  exact
    { blocks := by simp [plainBlocks, padSize_usedOf hbs, hdvd, hBs, pad, hT, zeros]
      plaintext := by simpa [hBs] using hflat
      nonempty_of_zero := fun _ => List.ne_nil_of_length_pos (by omega)
      room := fun hne => absurd rfl hne }

/-- Every plaintext has a last block, but for the empty one under Zero. -/
theorem exists_lastBlock {bs : Nat} (hbs : 1 ≤ bs) (sch : Scheme) (P : List Byte)
    (h : sch = .zero → P ≠ []) : ∃ Bs T, LastBlock sch bs P Bs T := by
  by_cases hpad : sch = .zero ∧ bs ∣ P.length
  case neg => exact ⟨_, _, lastBlock_remainder hbs hpad⟩
  case pos =>
    obtain ⟨rfl, hdvd⟩ := hpad
    have hcount : (wholeBlocks bs P).length ≠ 0 := by
      rw [wholeBlocks_length]
      exact (Nat.div_ne_zero_iff_of_dvd hdvd).mpr ⟨by simpa using h rfl, by omega⟩
    rcases List.eq_nil_or_concat (wholeBlocks bs P) with hnil | ⟨Bs, T, hBs⟩
    · exact absurd (congrArg List.length hnil) hcount
    · exact ⟨Bs, T, lastBlock_whole hbs hdvd (hBs.trans (List.concat_eq_append ..))⟩

/-! ### The round trip -/

/-- Decryption of a ciphertext finds the plaintext blocks again. -/
theorem chainDec_wholeBlocks_cbcEncrypt {bs : Nat} (hbs : 1 ≤ bs) (c : Ctx) (sch : Scheme)
    {iv : List Byte} (P : List Byte) (hiv : iv.length = bs) :
    chainDec (bcDec c bs) iv (wholeBlocks bs (cbcEncrypt (bcEnc c bs) bs sch iv P)) =
      plainBlocks sch bs P := by
  rw [cbcEncrypt, wholeBlocks_flatten hbs _ fun _ => length_of_mem_chainEnc,
    chainDec_chainEnc hiv fun _ => length_of_mem_plainBlocks hbs]

theorem cbcDecrypt_of_chainDec_eq_nil {dec : List Byte → List Byte} {bs : Nat} {iv E : List Byte}
    (sch : Scheme) (h : chainDec dec iv (wholeBlocks bs E) = []) :
    cbcDecrypt dec bs sch iv E = some [] := by simp [cbcDecrypt, h]

theorem cbcDecrypt_of_chainDec_eq_append {dec : List Byte → List Byte} {bs : Nat}
    {iv E B : List Byte} {Qs : List (List Byte)} (sch : Scheme)
    (h : chainDec dec iv (wholeBlocks bs E) = Qs ++ [B]) :
    cbcDecrypt dec bs sch iv E = (unpad sch B).map (Qs.flatten ++ ·) := by simp [cbcDecrypt, h]

/-- A plaintext comes back exactly if its last block unpads to what was padded. -/
theorem LastBlock.roundTrip_iff {sch : Scheme} {bs : Nat} {P T : List Byte} {Bs : List (List Byte)}
    (h : LastBlock sch bs P Bs T) (hbs : 1 ≤ bs) (c : Ctx) {iv : List Byte} (hiv : iv.length = bs) :
    cbcDecrypt (bcDec c bs) bs sch iv (cbcEncrypt (bcEnc c bs) bs sch iv P) = some P ↔
      unpad sch (pad sch T bs) = some T := by
  rw [cbcDecrypt_of_chainDec_eq_append sch
    ((chainDec_wholeBlocks_cbcEncrypt hbs c sch P hiv).trans h.blocks), ← h.plaintext]
  simp

/-- Settles O31: the chain gives the plaintext blocks back, so the round trip is that of the last
block under its padding scheme. -/
theorem cbcRoundTrip : Obligations.CbcRoundTrip := by
  intro c bs iv P hbs hmax hiv
  refine ⟨?pkcs7, ?iso, ?zero⟩
  case pkcs7 =>
    obtain ⟨Bs, T, h⟩ := exists_lastBlock hbs .pkcs7 P nofun
    exact (h.roundTrip_iff hbs c hiv).mpr (unpad_pkcs7_pad (h.room nofun) hmax)
  case iso =>
    obtain ⟨Bs, T, h⟩ := exists_lastBlock hbs .iso7816 P nofun
    exact (h.roundTrip_iff hbs c hiv).mpr (unpad_iso7816_eq_some_iff.mpr ⟨_, pad_iso7816 T bs⟩)
  case zero =>
    by_cases hP : P = []
    · subst hP
      have hnil : plainBlocks .zero bs [] = [] := by
        simp [plainBlocks, wholeBlocks, padSize_usedOf hbs]
      exact iff_of_true (cbcDecrypt_of_chainDec_eq_nil _
        ((chainDec_wholeBlocks_cbcEncrypt hbs c _ _ hiv).trans hnil)) (.inl rfl)
    · obtain ⟨Bs, T, h⟩ := exists_lastBlock hbs .zero P fun _ => hP
      have hlast : P.getLast? = T.getLast? := by
        rw [← h.plaintext, List.getLast?_append_of_ne_nil _ (h.nonempty_of_zero rfl)]
      rw [h.roundTrip_iff hbs c hiv, unpad_zero_pad, Option.some_inj, stripZeros_eq_self_iff, hlast,
        or_iff_right hP]

/-! ### Error propagation -/

/-- Every plaintext block is made of its ciphertext block and the one before it, which for the first
block is the IV (R147). -/
theorem chainDec_eq_zipWith (dec : List Byte → List Byte) (prev : List Byte)
    (Cs : List (List Byte)) :
    chainDec dec prev Cs = List.zipWith (fun C D => xorBytes (dec C) D) Cs (prev :: Cs) := by
  induction Cs generalizing prev with
  | nil => rfl
  | cons C Cs ih => rw [chainDec_cons, ih, List.zipWith_cons_cons]

/-- Settles O33: plaintext block `j` looks at the ciphertext blocks `j` and `j - 1` only. -/
theorem cbcErrorPropagation : Obligations.CbcErrorPropagation := by
  intro dec iv Cs Ds i j _ hsame hj hnext
  have hprev : (iv :: Cs)[j]? = (iv :: Ds)[j]? := by
    cases j with
    | zero => rfl
    | succ k => exact hsame k (by omega)
  rw [chainDec_eq_zipWith, chainDec_eq_zipWith, List.getElem?_zipWith, List.getElem?_zipWith,
    hsame j hj, hprev]

/-! ### `CBC.INIT` and `CBC.ENCSZ` -/

/-- The only check of its own that `CBC.ENCSZ` makes of a live context is of the size. -/
theorem firstError_cbcEncsz {s : State} {c : Ctx} (hc : s.hasCtx c = true)
    (hv : (s.cbcAt c).valid = true) (n : Nat) :
    firstError [s.noCtx c, (!(s.cbcAt c).valid, .usage), (decide (2 ^ 32 ≤ n), .capacity)] =
      if 2 ^ 32 ≤ n then some .capacity else none := by
  simp [hc, hv]

/-- Settles O28: the checks of `CBC.INIT` pass, and `CBC.ENCSZ` has that of the size left. -/
theorem cbcInitAndEncszAnswer : Obligations.CbcInitAndEncszAnswer := by
  intro c sch src slen s hc
  refine ⟨fun hlen hr => command_of_passed _ ?init, fun hv =>
    ⟨fun hn => command_of_passed _ ?fits, fun hn => command_of_error _ ?long⟩⟩
  case init => simp [hc, hlen, hr]
  case fits => rw [firstError_cbcEncsz hc hv, if_neg hn.not_ge]
  case long => rw [firstError_cbcEncsz hc hv, if_pos hn]

end Sys2Proof.Machine
end

section
/-! The commands that load or feed a Poly1305 accumulator (42_poly1305.md R161 to R164, 43_aead.md
R202 and R205), and the three clones (42_poly1305.md R174, 44_ascon.md R250 and R258). -/

namespace Sys2Proof

/-! ### The words of a command with two contexts -/

/-- Numbers in different bit fields: the sum is the bitwise OR. -/
theorem mul_two_pow_add_eq_or {a b i : Nat} (h : b < 2 ^ i) : a * 2 ^ i + b = a * 2 ^ i ||| b := by
  rw [Nat.mul_comm, Nat.two_pow_add_eq_or_of_lt h]

/-- The contexts of a header word are OR-ed into the word that has its unit and operation. -/
theorem header_eq_or {unit op : Nat} (hu : unit < 16) (ho : op < 16) (c d : Ctx) :
    header unit op c d 0 =
      header unit op 0 0 0 ||| (c.setWidth 32 <<< 20 ||| d.setWidth 32 <<< 16) := by
  have hc := c.isLt
  have hd := d.isLt
  apply BitVec.eq_of_toNat_eq
  have hfields : (c.setWidth 32 <<< 20 ||| d.setWidth 32 <<< 16 : Word).toNat =
      c.toNat * 2 ^ 20 + d.toNat * 2 ^ 16 := by
    simp only [BitVec.toNat_or, BitVec.toNat_shiftLeft, BitVec.toNat_setWidth,
      Nat.shiftLeft_eq]
    rw [mul_two_pow_add_eq_or (by omega)]
    congr 1 <;> omega
  have hbase : (header unit op 0 0 0).toNat = (unit * 2 ^ 4 + op) * 2 ^ 24 := by
    rw [header_toNat 0 0 hu ho (by decide), show (0 : Ctx).toNat = 0 from rfl]
    omega
  rw [BitVec.toNat_or, hfields, hbase, ← mul_two_pow_add_eq_or (by omega),
    header_toNat c d hu ho (by decide)]
  omega

/-- The words that are a command of format `CC`, with its contexts shifted into their fields. -/
theorem decode_eq_ok_iff_two_contexts {i : Instr} {unit op : Nat} {c d : Ctx} (w : Descriptor)
    (base : Word) (h : encode i = ⟨header unit op c d 0, 0, 0, 0, 0, 0⟩ := by rfl)
    (hbase : header unit op 0 0 0 = base := by decide) (hu : unit < 16 := by decide)
    (ho : op < 16 := by decide) :
    decode w = .ok i ↔
      w = ⟨base ||| (c.setWidth 32 <<< 20 ||| d.setWidth 32 <<< 16), 0, 0, 0, 0, 0⟩ := by
  rw [decode_eq_ok_iff_encode, h, header_eq_or hu ho, hbase, eq_comm]

namespace Machine

/-! ### Construction and absorbing -/

/-- What `P13.INITSC` and `AEAD.INIT` check: both contexts, the handle, and its block size. -/
theorem firstError_fromHandle {s : State} {c h : Ctx} (hc : s.hasCtx c = true)
    (hh : s.hasCtx h = true) (hv : (s.scAt h).valid = true) (n : Nat) :
    firstError [s.noCtx c, s.noCtx h, (!(s.scAt h).valid, .usage), (decide (n < 32), .construct)] =
      if n < 32 then some .construct else none := by
  simp [hc, hh, hv]

/-- Settles O35: the checks of both commands pass, and the buffer holds `State.junkBuffer`. -/
theorem p13ConstructionAnswers : Obligations.P13ConstructionAnswers := by
  intro c h src slen s hc
  refine ⟨fun hlen hr => ⟨s.junkBuffer, ?init⟩, fun hh hv hn => ⟨s.junkBuffer, ?initsc⟩⟩
  case init =>
    rw [← hlen]
    exact command_of_passed _ (by simp [hc, hlen, hr])
  case initsc =>
    rw [← hv]
    exact command_of_passed _ ((firstError_fromHandle hc hh hv _).trans (if_neg hn.not_gt))

/-- Settles O36: the checks of `P13.WRITE` pass. -/
theorem p13WriteAnswers : Obligations.P13WriteAnswers := by
  intro c src slen s hc hv hr
  exact command_of_passed _ (by simp [hc, hv, hr])

/-- Settles O43: past the checks it shares with `P13.INITSC`, `AEAD.INIT` leaves `consumedSc` in the
handle. -/
theorem aeadInitAnswers : Obligations.AeadInitAnswers := by
  intro c h s hc hh hv
  have hchecks := firstError_fromHandle hc hh hv (s.par.streamBlock (s.scAt h).cipher)
  refine ⟨fun hn => ⟨s.junkBuffer, consumedSc s.fresh h, rfl, ?long⟩, fun hn => ?short⟩
  case long => exact command_of_passed _ (hchecks.trans (if_neg hn.not_gt))
  case short =>
    have herror := hchecks.trans (if_pos hn)
    exact ⟨command_of_error _ herror, command_of_error _ herror⟩

/-! ### Clones -/

/-- A clone with a context absent, whatever it copies. -/
theorem command_clone_absent {s : State} {c d : Ctx} (h : s.hasCtx c = false ∨ s.hasCtx d = false)
    (held : Bool) (body : Host.Outcome State Fault Refusal) :
    command s [s.noCtx c, s.noCtx d, (!held, .usage)] body = .next (s.raise .illegal) := by
  apply command_of_error
  cases hc : s.hasCtx c
  · simp [hc]
  · simp [hc, h.resolve_left (by simp [hc])]

/-- A clone with both contexts present, whatever it copies. -/
theorem command_clone_present {s : State} {c d : Ctx} (hc : s.hasCtx c = true)
    (hd : s.hasCtx d = true) (held : Bool) (body : Host.Outcome State Fault Refusal) :
    command s [s.noCtx c, s.noCtx d, (!held, .usage)] body =
      if held then body else .next (s.raise .usage) := by
  cases held <;> simp [hc, hd]

/-- Settles O38: the three clones make the same checks of their own unit. -/
theorem clonesAnswer : Obligations.ClonesAnswer := by
  refine ⟨fun w c d => ⟨decode_eq_ok_iff_two_contexts w _, decode_eq_ok_iff_two_contexts w _,
    decode_eq_ok_iff_two_contexts w _⟩, fun c d s habsent i hi => ?absent,
    fun c d s hc hd => ?present⟩
  case absent =>
    simp only [List.mem_cons, List.not_mem_nil, or_false] at hi
    rcases hi with rfl | rfl | rfl <;> exact command_clone_absent habsent _ _
  case present =>
    exact ⟨command_clone_present hc hd _ _, command_clone_present hc hd _ _,
      command_clone_present hc hd _ _, s.setP13_self c, s.setAsc_self c, s.setAsh_self c⟩

end Machine

end Sys2Proof
end

section
/-! The block step of the Poly1305 limb machine as arithmetic (42_poly1305.md R165 to R167 and
R175 (2)): what each stage does to the number its limbs stand for. -/

namespace Sys2Proof.Machine

open Finset (range)

/-! ### The number a limb vector stands for -/

theorem limbValue_append (w : Nat) (l m : List Nat) :
    limbValue w (l ++ m) = limbValue w l + 2 ^ (w * l.length) * limbValue w m := by
  induction l with
  | nil => simp [limbValue]
  | cons d l ih =>
    simp only [List.cons_append, limbValue, ih, List.length_cons, Nat.mul_succ, pow_add]
    ring

theorem limbValue_zipWith_add (w : Nat) {l m : List Nat} (h : l.length = m.length) :
    limbValue w (List.zipWith (· + ·) l m) = limbValue w l + limbValue w m := by
  induction l generalizing m with
  | nil => simp [List.eq_nil_of_length_eq_zero h.symm, limbValue]
  | cons d l ih =>
    obtain _ | ⟨e, m⟩ := m
    · simp at h
    · simp only [List.zipWith_cons_cons, limbValue, ih (by simpa using h)]
      ring

theorem limbValue_eq_sum (w : Nat) (l : List Nat) :
    limbValue w l = ∑ i ∈ range l.length, 2 ^ (w * i) * l.getD i 0 := by
  induction l with
  | nil => simp [limbValue]
  | cons d l ih =>
    rw [limbValue, ih, List.length_cons, Finset.sum_range_succ', Finset.mul_sum]
    simp only [List.getD_cons_succ, List.getD_cons_zero, Nat.mul_zero, pow_zero, one_mul]
    rw [add_comm]
    exact congrArg (· + d) (Finset.sum_congr rfl fun i _ => by ring)

/-- A number cut into its low 13 bits and the rest. -/
theorem and_add_shiftRight (x : Nat) : (x &&& 0x1fff) + 2 ^ 13 * (x >>> 13) = x := by
  rw [show 0x1fff = 2 ^ 13 - 1 from rfl, Nat.and_two_pow_sub_one_eq_mod, Nat.shiftRight_eq_div_pow,
    Nat.mod_add_div]

/-! ### Adding a block (R165) -/

/-- The block and its high bit, R165's number: bit 11 of limb 9 is bit 128. -/
theorem limbValue_blockLimbs {B : List Byte} (hB : B.length = 16) (final : Bool) :
    limbValue 13 (blockLimbs B final) = leNat B + if final then 0 else 2 ^ 128 := by
  have hlt : leNat B < 2 ^ 128 := by simpa [hB] using leNat_lt B
  have hhigh : leNat B >>> 117 < 2 ^ 11 := by rw [Nat.shiftRight_eq_div_pow]; omega
  have htop : leNat B >>> 117 ||| (if final then 0 else 0x0800) =
      leNat B / 2 ^ 117 + if final then 0 else 2 ^ 11 := by
    rw [← Nat.shiftRight_eq_div_pow]
    cases final
    · rw [if_neg (by decide), if_neg (by decide), Nat.or_comm, add_comm]
      exact (Nat.two_pow_add_eq_or_of_lt hhigh 1).symm
    · simp
  rw [blockLimbs, htop, limbValue_append, limbValue_limbsOf, limbsOf_length]
  have := Nat.mod_add_div (leNat B) (2 ^ 117)
  cases final <;> simp only [limbValue, Bool.false_eq_true, if_true, if_false] <;> omega

@[simp] theorem blockLimbs_length (B : List Byte) (final : Bool) :
    (blockLimbs B final).length = 10 := by simp [blockLimbs]

@[simp] theorem addBlock_length {a : List Nat} (ha : a.length = 10) (B : List Byte) (final : Bool) :
    (addBlock a B final).length = 10 := by simp [addBlock, ha]

theorem limbValue_addBlock {a : List Nat} (ha : a.length = 10) {B : List Byte} (hB : B.length = 16)
    (final : Bool) : limbValue 13 (addBlock a B final) =
      limbValue 13 a + leNat B + if final then 0 else 2 ^ 128 := by
  rw [addBlock, limbValue_zipWith_add 13 (by simp [ha]), limbValue_blockLimbs hB, Nat.add_assoc]

/-! ### The columns of the product (R166) -/

theorem halfColumn_add_halfColumn (a r : List Nat) (i : Nat) :
    halfColumn a r i 0 + halfColumn a r i 5 = ∑ j ∈ range 10, a.getD j 0 * mulFactor r i j := by
  simp [halfColumn, Finset.sum_range_succ, List.range_succ]
  ring

/-- The two carries of a column lose nothing. -/
theorem column_value (a r : List Nat) (i c : Nat) :
    (column a r i c).1 + 2 ^ 13 * (column a r i c).2 =
      c + ∑ j ∈ range 10, a.getD j 0 * mulFactor r i j := by
  have hd := and_add_shiftRight (c + halfColumn a r i 0)
  have he := and_add_shiftRight (((c + halfColumn a r i 0) &&& 0x1fff) + halfColumn a r i 5)
  rw [← halfColumn_add_halfColumn]
  simp only [column]
  omega

theorem columns_length (a r : List Nat) (n : Nat) : (columns a r n).1.length = n := by
  induction n with
  | zero => rfl
  | succ n ih => simp [columns, ih]

theorem columns_value (a r : List Nat) (n : Nat) :
    limbValue 13 (columns a r n).1 + 2 ^ (13 * n) * (columns a r n).2 =
      ∑ i ∈ range n, 2 ^ (13 * i) * ∑ j ∈ range 10, a.getD j 0 * mulFactor r i j := by
  induction n with
  | zero => simp [columns, limbValue]
  | succ n ih =>
    rw [Finset.sum_range_succ, ← ih, columns, limbValue_append, columns_length]
    have hcolumn := column_value a r n (columns a r n).2
    simp only [limbValue, Nat.mul_succ, pow_add]
    linear_combination 2 ^ (13 * n) * hcolumn

/-! ### The wrap factor 5 (R166) -/

theorem two_pow_130_modEq_five : 2 ^ 130 ≡ 5 [MOD poly1305P] := by decide

/-- The factors of limb `j`, over all output limbs, are the multiplier moved up by `j` limbs, those
pushed past limb 9 coming back with weight 5. -/
theorem sum_mulFactor_modEq {r : List Nat} (hr : r.length = 10) {j : Nat} (hj : j < 10) :
    ∑ i ∈ range 10, 2 ^ (13 * i) * mulFactor r i j ≡
      2 ^ (13 * j) * limbValue 13 r [MOD poly1305P] := by
  obtain ⟨n, hn⟩ : ∃ n, 10 = j + n := ⟨10 - j, by omega⟩
  have hstay : ∀ k, mulFactor r (j + k) j = r.getD k 0 := by simp [mulFactor]
  have hwrap : ∀ i < j, mulFactor r i j = 5 * r.getD (n + i) 0 := by
    intro i hi
    rw [mulFactor, if_neg (by omega), show i + 10 - j = n + i by omega]
  calc ∑ i ∈ range 10, 2 ^ (13 * i) * mulFactor r i j
      = ∑ i ∈ range j, 2 ^ (13 * i) * mulFactor r i j +
          ∑ k ∈ range n, 2 ^ (13 * (j + k)) * mulFactor r (j + k) j := by
        rw [hn, Finset.sum_range_add]
    _ = ∑ i ∈ range j, 5 * (2 ^ (13 * i) * r.getD (n + i) 0) +
          ∑ k ∈ range n, 2 ^ (13 * (j + k)) * r.getD k 0 := by
        refine congrArg₂ _ (Finset.sum_congr rfl fun i hi => ?_)
          (Finset.sum_congr rfl fun k _ => by rw [hstay])
        rw [hwrap i (Finset.mem_range.mp hi)]
        ring
    _ ≡ ∑ i ∈ range j, 2 ^ 130 * (2 ^ (13 * i) * r.getD (n + i) 0) +
          ∑ k ∈ range n, 2 ^ (13 * (j + k)) * r.getD k 0 [MOD poly1305P] :=
        (Nat.ModEq.sum fun i _ => two_pow_130_modEq_five.symm.mul_right _).add_right _
    _ = 2 ^ (13 * j) * limbValue 13 r := by
        rw [limbValue_eq_sum, hr, show 10 = n + j by omega, Finset.sum_range_add, mul_add,
          Finset.mul_sum, Finset.mul_sum, add_comm]
        refine congrArg₂ _ (Finset.sum_congr rfl fun k _ => ?_) (Finset.sum_congr rfl fun i _ => ?_)
        · rw [← mul_assoc, ← pow_add, Nat.mul_add]
        · rw [← mul_assoc, ← mul_assoc, ← pow_add, ← pow_add]
          congr 2
          omega

/-- The columns are the product of the two numbers, modulo P. -/
theorem columns_value_modEq {a r : List Nat} (ha : a.length = 10) (hr : r.length = 10) :
    limbValue 13 (columns a r 10).1 + 2 ^ 130 * (columns a r 10).2 ≡
      limbValue 13 a * limbValue 13 r [MOD poly1305P] := by
  calc limbValue 13 (columns a r 10).1 + 2 ^ 130 * (columns a r 10).2
      = ∑ i ∈ range 10, 2 ^ (13 * i) * ∑ j ∈ range 10, a.getD j 0 * mulFactor r i j :=
        columns_value a r 10
    _ = ∑ j ∈ range 10, a.getD j 0 * ∑ i ∈ range 10, 2 ^ (13 * i) * mulFactor r i j := by
        simp only [Finset.mul_sum]
        rw [Finset.sum_comm]
        exact Finset.sum_congr rfl fun j _ => Finset.sum_congr rfl fun i _ => Nat.mul_left_comm ..
    _ ≡ ∑ j ∈ range 10, a.getD j 0 * (2 ^ (13 * j) * limbValue 13 r) [MOD poly1305P] :=
        Nat.ModEq.sum fun j hj => (sum_mulFactor_modEq hr (Finset.mem_range.mp hj)).mul_left _
    _ = limbValue 13 a * limbValue 13 r := by
        rw [limbValue_eq_sum 13 a, ha, Finset.sum_mul]
        exact Finset.sum_congr rfl fun j _ => by ring

/-! ### The fold (R167) -/

theorem limbValue_foldCarry {D : List Nat} (hD : 2 ≤ D.length) (c : Nat) :
    limbValue 13 (foldCarry D c) = limbValue 13 D + 5 * c := by
  obtain _ | ⟨d₀, _ | ⟨d₁, D⟩⟩ := D
  · simp at hD
  · simp at hD
  · have h := and_add_shiftRight (5 * c + d₀)
    simp only [foldCarry, limbValue, List.getD_cons_zero, List.getD_cons_succ, List.set_cons_zero,
      List.set_cons_succ]
    omega

@[simp] theorem mulLimbs_length (a r : List Nat) : (mulLimbs a r).length = 10 := by
  simp [mulLimbs, foldCarry, columns_length]

/-- The block step multiplies modulo P, on any limbs. -/
theorem limbValue_mulLimbs_modEq {a r : List Nat} (ha : a.length = 10) (hr : r.length = 10) :
    limbValue 13 (mulLimbs a r) ≡ limbValue 13 a * limbValue 13 r [MOD poly1305P] := by
  calc limbValue 13 (mulLimbs a r)
      = limbValue 13 (columns a r 10).1 + 5 * (columns a r 10).2 :=
        limbValue_foldCarry (by simp [columns_length]) _
    _ ≡ limbValue 13 (columns a r 10).1 + 2 ^ 130 * (columns a r 10).2 [MOD poly1305P] :=
        (two_pow_130_modEq_five.symm.mul_right _).add_left _
    _ ≡ limbValue 13 a * limbValue 13 r [MOD poly1305P] := columns_value_modEq ha hr

/-! ### Storage

Limbs of 16 bits are enough for the result of a block step on any accumulator, also outside the
bounds of 10_state.md R27. -/

/-- The bound on the carry from one output limb to the next where `carryBound` does not apply,
because the accumulator limbs may be any of 16 bits. -/
def storedCarryBound : Nat := 3700000

theorem limbs_lt {w n : Nat} (v : Vector (BitVec w) n) : ∀ x ∈ limbs v, x < 2 ^ w := by
  intro x hx
  simp only [limbs, List.mem_map] at hx
  obtain ⟨d, -, rfl⟩ := hx
  exact d.isLt

theorem addBlock_le_of_stored {a : List Nat} {B : List Byte} (ha : ∀ x ∈ a, x < 2 ^ 16)
    (hB : B.length ≤ 16) (final : Bool) : ∀ x ∈ addBlock a B final, x ≤ 0xffff + 0x1fff := by
  intro x hx
  obtain ⟨i, hi, rfl⟩ := List.getElem_of_mem hx
  rw [addBlock, List.length_zipWith, Nat.lt_min] at hi
  obtain ⟨hia, hib⟩ := hi
  simp only [addBlock, List.getElem_zipWith]
  exact Nat.add_le_add (Nat.le_of_lt_succ (ha _ (List.getElem_mem hia)))
    (blockLimbs_le hB final _ (List.getElem_mem hib))

theorem column_carry_le_of_stored {a r : List Nat} (ha : ∀ x ∈ a, x ≤ 0xffff + 0x1fff)
    (hr : ∀ x ∈ r, x ≤ 0x1fff) (i : Nat) {c : Nat} (hc : c ≤ storedCarryBound) :
    (column a r i c).2 ≤ storedCarryBound := by
  have h₀ := halfColumn_le ha hr i 0
  have h₅ := halfColumn_le ha hr i 5
  have hlow := Nat.and_le_right (n := c + halfColumn a r i 0) (m := 0x1fff)
  simp only [column, Nat.shiftRight_eq_div_pow]
  unfold storedCarryBound at *
  omega

theorem columns_carry_le_of_stored {a r : List Nat} (ha : ∀ x ∈ a, x ≤ 0xffff + 0x1fff)
    (hr : ∀ x ∈ r, x ≤ 0x1fff) (n : Nat) : (columns a r n).2 ≤ storedCarryBound := by
  induction n with
  | zero => simp [columns]
  | succ n ih => exact column_carry_le_of_stored ha hr n ih

theorem columns_limb_le (a r : List Nat) (n : Nat) : ∀ x ∈ (columns a r n).1, x ≤ 0x1fff := by
  induction n with
  | zero => simp [columns]
  | succ n ih =>
    intro x hx
    rw [columns, List.mem_append, List.mem_singleton] at hx
    rcases hx with hx | rfl
    · exact ih x hx
    · exact column_fst_le ..

theorem mulLimbs_lt_of_stored {a r : List Nat} (ha : ∀ x ∈ a, x ≤ 0xffff + 0x1fff)
    (hr : ∀ x ∈ r, x ≤ 0x1fff) : ∀ x ∈ mulLimbs a r, x < 2 ^ 16 := by
  have hD := columns_limb_le a r 10
  have hc := columns_carry_le_of_stored ha hr 10
  intro x hx
  rcases List.mem_or_eq_of_mem_set hx with hx | rfl
  · rcases List.mem_or_eq_of_mem_set hx with hx | rfl
    · have := hD x hx
      omega
    · exact Nat.lt_of_le_of_lt Nat.and_le_right (by decide)
  · have h₀ := getD_le_of_forall_mem hD 0
    have h₁ := getD_le_of_forall_mem hD 1
    rw [Nat.shiftRight_eq_div_pow]
    unfold storedCarryBound at hc
    omega

/-- Nothing of the product is lost in storage. -/
theorem P13State.limbs_block_a (st : P13State) {B : List Byte} (hB : B.length ≤ 16) (final : Bool) :
    limbs (st.block B final).a = mulLimbs (addBlock (limbs st.a) B final) (limbs st.r) := by
  rw [block_a]
  exact limbs_storeLimbs (mulLimbs_length ..) (mulLimbs_lt_of_stored
    (addBlock_le_of_stored (limbs_lt st.a) hB final) st.limbs_r_le)

/-- Settles O39: the block is added, the limbs are multiplied modulo P, and the result fits its
storage. -/
theorem blockStepMultipliesModP : Obligations.BlockStepMultipliesModP := by
  intro st B final hB
  have ha : (limbs st.a).length = 10 := limbs_length st.a
  calc (st.block B final).val
      = limbValue 13 (mulLimbs (addBlock (limbs st.a) B final) (limbs st.r)) % poly1305P := by
        rw [P13State.val, P13State.accumulator, st.limbs_block_a hB.le]
    _ = (st.accumulator + leNat B + if final then 0 else 2 ^ 128) * st.multiplier % poly1305P := by
        rw [limbValue_mulLimbs_modEq (addBlock_length ha B final) (limbs_length st.r),
          limbValue_addBlock ha hB]
        rfl
    _ = (st.val + leNat B + if final then 0 else 2 ^ 128) * st.multiplier % poly1305P :=
        (((Nat.mod_modEq ..).symm.add_right _).add_right _).mul_right _

end Sys2Proof.Machine
end

section
/-! The finalization of the Poly1305 limb machine as arithmetic (42_poly1305.md R168 to R171,
R175 (3)): full carry, choice of the reduced number, and the tag. -/

namespace Sys2Proof.Machine

/-! ### Carry propagation -/

@[simp] theorem ripple_length (c : Nat) (l : List Nat) : (ripple c l).1.length = l.length := by
  induction l generalizing c with
  | nil => rfl
  | cons d l ih => simp [ripple, ih]

theorem ripple_value (c : Nat) (l : List Nat) :
    limbValue 13 (ripple c l).1 + 2 ^ (13 * l.length) * (ripple c l).2 = c + limbValue 13 l := by
  induction l generalizing c with
  | nil => simp [ripple, limbValue]
  | cons d l ih =>
    have hlow := and_add_shiftRight (d + c)
    have hrest := ih ((d + c) >>> 13)
    simp only [ripple, limbValue, List.length_cons, Nat.mul_succ, pow_add]
    linear_combination hlow + 2 ^ 13 * hrest

theorem ripple_limb_le (c : Nat) (l : List Nat) : ∀ x ∈ (ripple c l).1, x ≤ 0x1fff := by
  induction l generalizing c with
  | nil => simp [ripple]
  | cons d l ih => simpa [ripple] using ⟨Nat.and_le_right, ih _⟩

theorem limbValue_lt {w : Nat} {l : List Nat} (h : ∀ x ∈ l, x < 2 ^ w) :
    limbValue w l < 2 ^ (w * l.length) := by
  induction l with
  | nil => simp [limbValue]
  | cons d l ih =>
    obtain ⟨hd, hl⟩ := List.forall_mem_cons.mp h
    calc limbValue w (d :: l) < 2 ^ w * (limbValue w l + 1) := by rw [limbValue]; linarith
      _ ≤ 2 ^ w * 2 ^ (w * l.length) := Nat.mul_le_mul_left _ (ih hl)
      _ = 2 ^ (w * (d :: l).length) := by
        rw [← pow_add, List.length_cons, Nat.mul_succ, Nat.add_comm]

theorem limbValue_13_lt {l : List Nat} (h : ∀ x ∈ l, x ≤ 0x1fff) :
    limbValue 13 l < 2 ^ (13 * l.length) :=
  limbValue_lt fun x hx => Nat.lt_succ_of_le (h x hx)

/-! ### The full carry (R169) -/

/-- What the full carry leaves: 10 limbs of 13 bits, for a number that is the same modulo P. -/
structure FullyCarried (a h : List Nat) : Prop where
  length_eq : h.length = 10
  limb_le : ∀ x ∈ h, x ≤ 0x1fff
  value_modEq : limbValue 13 h ≡ limbValue 13 a [MOD poly1305P]

/-- The end of the full carry, once the upward pass has left `u₀ :: u₁ :: up` and the carry `k`:
limb 0 is `x₀` and limb 1 `x₁` with what they get. -/
theorem fullyCarried_of_upward {a₀ k u₀ u₁ x₀ x₁ : Nat} {l up : List Nat}
    (hlength : up.length = 7) (hup : ∀ x ∈ u₀ :: u₁ :: up, x ≤ 0x1fff)
    (hvalue : limbValue 13 (u₀ :: u₁ :: up) + 2 ^ 117 * k = limbValue 13 l)
    (hx₀ : x₀ = a₀ + 5 * k) (hx₁ : x₁ = u₀ + x₀ >>> 13) (htop : u₁ + x₁ >>> 13 ≤ 0x1fff) :
    FullyCarried (a₀ :: l) ((x₀ &&& 0x1fff) :: (x₁ &&& 0x1fff) :: (u₁ + x₁ >>> 13) :: up) where
  length_eq := by simpa using hlength
  limb_le := by
    simp only [List.forall_mem_cons] at hup ⊢
    obtain ⟨-, -, hup⟩ := hup
    exact ⟨Nat.and_le_right, Nat.and_le_right, htop, hup⟩
  value_modEq := by
    have hsplit₀ := and_add_shiftRight x₀
    have hsplit₁ := and_add_shiftRight x₁
    have hwrapped : limbValue 13 (a₀ :: l) = limbValue 13 ((x₀ &&& 0x1fff) :: (x₁ &&& 0x1fff) ::
        (u₁ + x₁ >>> 13) :: up) + poly1305P * k := by
      simp only [limbValue, poly1305P] at hvalue ⊢
      omega
    rw [hwrapped]
    exact (Nat.add_mul_mod_self_left ..).symm

/-- A carry out of limb 9 leaves nothing above limb 1, so that what limb 0 then gets back ends at
limb 1. -/
theorem fullyCarried_fullCarry_cons {a₀ a₁ : Nat} {l : List Nat} (hl : l.length = 8)
    (h₀ : a₀ ≤ 0x1fff) (h₁ : a₁ ≤ 0x1fff + 0x3ff) (h : ∀ x ∈ l, x ≤ 0x1fff) :
    FullyCarried (a₀ :: a₁ :: l) (fullCarry (a₀ :: a₁ :: l)) := by
  have hvalue := ripple_value 0 (a₁ :: l)
  have hup := ripple_limb_le 0 (a₁ :: l)
  have hlength := ripple_length 0 (a₁ :: l)
  have hlt := limbValue_13_lt h
  rw [List.length_cons, hl] at hvalue hlength
  rw [hl] at hlt
  rw [fullCarry, List.tail_cons, List.getD_cons_zero]
  generalize (ripple 0 (a₁ :: l)).1 = up at *
  generalize (ripple 0 (a₁ :: l)).2 = k at *
  obtain _ | ⟨u₀, _ | ⟨u₁, up⟩⟩ := up
  · simp at hlength
  · simp at hlength
  · have huplt := limbValue_13_lt hup
    obtain ⟨hu₀, hu₁, -⟩ : u₀ ≤ 0x1fff ∧ u₁ ≤ 0x1fff ∧ ∀ x ∈ up, x ≤ 0x1fff := by simpa using hup
    refine fullyCarried_of_upward (by simpa using hlength) hup (hvalue.trans (Nat.zero_add _))
      rfl rfl ?_
    rw [hlength] at huplt
    simp only [limbValue] at hvalue huplt
    simp only [List.getD_cons_zero, List.getD_cons_succ, Nat.shiftRight_eq_div_pow]
    have hk : k ≤ 1 := by omega
    omega

/-- The same for an accumulator in the form of R27. -/
theorem P13State.fullyCarried {st : P13State} (h : st.limbsBounded) :
    FullyCarried (limbs st.a) (fullCarry (limbs st.a)) := by
  have hlength := limbs_length st.a
  have hbound : ∀ i, (hi : i < (limbs st.a).length) →
      (limbs st.a)[i] ≤ if i = 1 then 0x1fff + 0x3ff else 0x1fff := by
    intro i hi
    simpa [limbs] using h ⟨i, by omega⟩
  generalize limbs st.a = a at *
  obtain _ | ⟨a₀, _ | ⟨a₁, l⟩⟩ := a
  · simp at hlength
  · simp at hlength
  · refine fullyCarried_fullCarry_cons (by simpa using hlength) (hbound 0 (by simp))
      (hbound 1 (by simp)) fun x hx => ?_
    obtain ⟨i, hi, rfl⟩ := List.getElem_of_mem hx
    exact (hbound (i + 2) (by simpa using hi)).trans (if_neg (by omega)).le

/-! ### The reduced number (R170) -/

/-- A mask of ones keeps a limb, and the other limb is masked away. -/
theorem limb_or_masked {x y : Nat} (hx : x ≤ 0x1fff) : x &&& 0x1fff ||| y &&& 0 = x := by
  rw [Nat.and_zero, Nat.or_zero, show 0x1fff = 2 ^ 13 - 1 from rfl, Nat.and_two_pow_sub_one_eq_mod]
  exact Nat.mod_eq_of_lt (Nat.lt_succ_of_le hx)

/-- The masks take one of the two vectors whole. -/
theorem selectReduced_eq_ite {a : List Nat} (ha : ∀ x ∈ a, x ≤ 0x1fff) :
    selectReduced a = if (ripple 5 a).2 = 1 then (ripple 5 a).1 else a := by
  by_cases hborrow : (ripple 5 a).2 = 1
  · simp only [selectReduced, if_pos hborrow, Nat.xor_self]
    refine List.ext_getElem (by simp) fun i _ hi => ?_
    rw [List.getElem_zipWith, Nat.or_comm]
    exact limb_or_masked (ripple_limb_le 5 a _ (List.getElem_mem hi))
  · simp only [selectReduced, if_neg hborrow, Nat.zero_xor]
    refine List.ext_getElem (by simp) fun i _ hi => ?_
    rw [List.getElem_zipWith]
    exact limb_or_masked (ha _ (List.getElem_mem hi))

/-- `A - P` or `A`, whichever is the remainder. -/
theorem limbValue_selectReduced {a : List Nat} (hn : a.length = 10) (ha : ∀ x ∈ a, x ≤ 0x1fff) :
    limbValue 13 (selectReduced a) = limbValue 13 a % poly1305P := by
  have hg := ripple_value 5 a
  have hlt := limbValue_13_lt ha
  have hglt := limbValue_13_lt (ripple_limb_le 5 a)
  rw [ripple_length] at hglt
  rw [hn] at hg hlt hglt
  rw [selectReduced_eq_ite ha]
  unfold poly1305P
  split <;> omega

/-! ### The tag (R171) -/

theorem limbValue_addAddend (f : Nat) {u s : List Nat} (h : u.length = s.length) :
    limbValue 16 (addAddend f u s) =
      (f + limbValue 16 u + limbValue 16 s) % 2 ^ (16 * u.length) := by
  induction u generalizing f s with
  | nil => simp [addAddend, limbValue, Nat.mod_one]
  | cons d u ih =>
    obtain _ | ⟨e, s⟩ := s
    · simp at h
    · have hsplit : f + limbValue 16 (d :: u) + limbValue 16 (e :: s) =
          (d + e + f) + 2 ^ 16 * (limbValue 16 u + limbValue 16 s) := by
        simp only [limbValue]
        ring
      rw [hsplit, List.length_cons, Nat.mul_succ, Nat.add_comm (16 * u.length), pow_add,
        Nat.mod_mul, Nat.add_mul_mod_self_left, Nat.add_mul_div_left _ _ (by decide), addAddend,
        limbValue, ih _ (by simpa using h), Nat.shiftRight_eq_div_pow, Nat.add_assoc (_ / _)]
      exact congrArg (· + _) (Nat.and_two_pow_sub_one_eq_mod _ 16)

theorem addAddend_lt (f : Nat) (u s : List Nat) : ∀ x ∈ addAddend f u s, x < 256 ^ 2 := by
  induction u generalizing f s with
  | nil => simp [addAddend]
  | cons d u ih =>
    obtain _ | ⟨e, s⟩ := s
    · simp [addAddend]
    · exact List.forall_mem_cons.mpr ⟨Nat.lt_succ_of_le Nat.and_le_right, ih _ _⟩

theorem toLE_append {x m : Nat} (hx : x < 256 ^ m) (y n : Nat) :
    toLE x m ++ toLE y n = toLE (x + 256 ^ m * y) (m + n) := by
  induction m generalizing x with
  | zero => simp_all [toLE]
  | succ m ih =>
    rw [pow_succ] at hx ⊢
    rw [Nat.add_right_comm, toLE, toLE, List.cons_append, ih (by omega)]
    have hdiv : (x + 256 ^ m * 256 * y) / 256 = x / 256 + 256 ^ m * y := by
      rw [Nat.mul_right_comm, Nat.add_mul_div_right _ _ (by decide)]
    have hmod : (x + 256 ^ m * 256 * y) % 256 = x % 256 := by
      rw [Nat.mul_right_comm, Nat.add_mul_mod_self_right]
    rw [hdiv]
    congr 1
    apply BitVec.eq_of_toNat_eq
    simpa using hmod.symm

/-- Limbs of 16 bits, written out two bytes each, are the number they stand for. -/
theorem flatten_toLE_limbs {l : List Nat} (h : ∀ x ∈ l, x < 256 ^ 2) :
    (l.map fun u => toLE u 2).flatten = toLE (limbValue 16 l) (2 * l.length) := by
  induction l with
  | nil => rfl
  | cons d l ih =>
    obtain ⟨hd, hl⟩ := List.forall_mem_cons.mp h
    rw [List.map_cons, List.flatten_cons, ih hl, toLE_append hd, limbValue, List.length_cons,
      Nat.mul_succ, Nat.add_comm 2, show 256 ^ 2 = 2 ^ 16 from rfl]

theorem emitTag_eq (h : List Nat) {s : List Nat} (hs : s.length = 8) :
    emitTag h s = toLE ((limbValue 13 h + limbValue 16 s) % 2 ^ 128) 16 := by
  rw [emitTag, flatten_toLE_limbs (addAddend_lt 0 _ s), limbValue_addAddend 0 (by simp [hs]),
    addAddend_length, limbsOf_length, limbValue_limbsOf, hs, Nat.zero_add, Nat.mod_mod,
    Nat.mod_add_mod, Nat.min_self]

/-- Finalize steps 2 to 4 (R169 to R171) on an accumulator in the form of R27. -/
theorem P13State.emitTag_of_limbsBounded {st : P13State} (h : st.limbsBounded) :
    emitTag (selectReduced (fullCarry (limbs st.a))) (limbs st.s) =
      toLE ((st.val + st.addend) % 2 ^ 128) 16 := by
  obtain ⟨hlength, hlimb, hvalue⟩ := P13State.fullyCarried h
  rw [emitTag_eq _ (limbs_length st.s), limbValue_selectReduced hlength hlimb, hvalue]
  rfl

/-- Settles O40: with no byte waiting there is no last block, and the other steps give the tag. -/
theorem finalizationReducesModP : Obligations.FinalizationReducesModP := by
  intro st h hfill
  have hclosed : st.closeLast = st := by simp [P13State.closeLast, hfill]
  rw [P13State.final, hclosed]
  exact P13State.emitTag_of_limbsBounded h

end Sys2Proof.Machine
end

section
/-! The limb accumulator against the formula of RFC 8439 (42_poly1305.md R160, R164, R168, R175,
R176): what an accumulator stands for once it is loaded and has absorbed a message, however the
message was cut, and the tag it then gives. -/

namespace Sys2Proof.Machine

/-! ### The blocks of a message (R160) -/

theorem messageBlocks_append {B : List Byte} (hB : B.length = 16) (m : List Byte) :
    messageBlocks (B ++ m) = B :: messageBlocks m := by
  have hcount : ((B ++ m).length + 15) / 16 = (m.length + 15) / 16 + 1 := by
    rw [List.length_append]
    omega
  rw [messageBlocks, messageBlocks, hcount, List.range_succ_eq_map, List.map_cons, List.map_map]
  refine congrArg₂ _ (by simp [slice, hB]) (List.map_congr_left fun k _ => ?_)
  have hdrop : (B ++ m).drop (16 * (k + 1)) = m.drop (16 * k) := by
    rw [List.drop_append, List.drop_eq_nil_of_le (by omega), List.nil_append, hB,
      Nat.mul_succ, Nat.add_sub_cancel]
  simp [slice, hdrop]

theorem messageBlocks_short {T : List Byte} (hT : T.length < 16) :
    messageBlocks T = if T = [] then [] else [T] := by
  split
  case isTrue h => rw [h]; rfl
  case isFalse h =>
    have hcount : (T.length + 15) / 16 = 1 := by
      have := List.length_pos_of_ne_nil h
      omega
    simp [messageBlocks, hcount, slice, hT.le]

/-- Whole blocks and a rest put together are cut into these blocks and the rest, if any. -/
theorem messageBlocks_flatten_append {Bs : List (List Byte)} {T : List Byte}
    (hBs : ∀ B ∈ Bs, B.length = 16) (hT : T.length < 16) :
    messageBlocks (Bs.flatten ++ T) = Bs ++ if T = [] then [] else [T] := by
  induction Bs with
  | nil => exact messageBlocks_short hT
  | cons B Bs ih =>
    obtain ⟨hB, hBs⟩ := List.forall_mem_cons.mp hBs
    rw [List.flatten_cons, List.append_assoc, messageBlocks_append hB, ih hBs, List.cons_append]

/-! ### One block -/

theorem P13State.val_block_full (st : P13State) {B : List Byte} (hB : B.length = 16) :
    (st.block B false).val = rfcBlock st.multiplier st.val B := by
  rw [blockStepMultipliesModP st B false hB, rfcBlock, hB]
  rfl

/-- The `01` byte after a short block is the bit that R160 adds (R168). -/
theorem P13State.val_block_last (st : P13State) {T : List Byte} (hT : T.length < 16) :
    (st.block (T ++ 0x01 :: zeros (15 - T.length)) true).val =
      rfcBlock st.multiplier st.val T := by
  have hlength : (T ++ 0x01 :: zeros (15 - T.length)).length = 16 := by
    simp
    omega
  have hvalue : leNat (T ++ 0x01 :: zeros (15 - T.length)) = leNat T + 2 ^ (8 * T.length) := by
    simp [leNat_append, leNat, pow_mul]
  rw [blockStepMultipliesModP st _ true hlength, hvalue, rfcBlock, if_pos rfl, Nat.add_zero,
    Nat.add_assoc]

/-! ### What an accumulator has absorbed -/

/-- The accumulator was loaded with `K`, the blocks `Bs` are hashed, and the bytes `T` wait. -/
structure P13State.Holds (K : List Byte) (Bs : List (List Byte)) (T : List Byte) (st : P13State) :
    Prop where
  multiplier_eq : st.multiplier = leNat (slice K 0 16) &&& clampMask
  addend_eq : st.addend = leNat (slice K 16 32)
  bounded : st.limbsBounded
  blocks : ∀ B ∈ Bs, B.length = 16
  val_eq : st.val = Bs.foldl (rfcBlock (leNat (slice K 0 16) &&& clampMask)) 0
  fill_eq : st.fill.toNat = T.length
  waiting : st.buf.toList.take T.length = T

/-- The accumulator was loaded with `K` and has then absorbed `m`. -/
def P13State.Absorbed (K m : List Byte) (st : P13State) : Prop :=
  ∃ Bs T, Bs.flatten ++ T = m ∧ st.Holds K Bs T

theorem P13State.load_addend (K : List Byte) (junk : Vector Byte 16) :
    (P13State.load K junk).addend = leNat (slice K 16 32) := by
  have hlt : leNat (slice K 16 32) < 2 ^ (16 * 8) := calc
    leNat (slice K 16 32) < 256 ^ (slice K 16 32).length := leNat_lt _
    _ ≤ 256 ^ 16 := Nat.pow_le_pow_right (by decide) (by simp)
  rw [P13State.addend, P13State.load,
    limbs_storeLimbs (limbsOf_length ..) fun _ => lt_of_mem_limbsOf, limbValue_limbsOf]
  exact Nat.mod_eq_of_lt hlt

theorem P13State.load_absorbed (K : List Byte) (junk : Vector Byte 16) :
    (P13State.load K junk).Absorbed K [] :=
  ⟨[], [], rfl,
    { multiplier_eq := load_multiplier K junk
      addend_eq := load_addend K junk
      bounded := load_limbsBounded K junk
      blocks := by simp
      val_eq := rfl
      fill_eq := rfl
      waiting := rfl }⟩

theorem P13State.Holds.waiting_lt {K T : List Byte} {Bs : List (List Byte)} {st : P13State}
    (h : st.Holds K Bs T) : T.length < 16 := h.fill_eq ▸ st.fill.isLt

/-- A byte joins the waiting ones. -/
theorem P13State.Holds.take_set {K T : List Byte} {Bs : List (List Byte)} {st : P13State}
    (h : st.Holds K Bs T) (b : Byte) :
    ((st.buf.set st.fill.toNat b (by omega)).toList).take (T.length + 1) = T ++ [b] := by
  have hlt : T.length < st.buf.toList.length := by simpa using h.waiting_lt
  simp only [Vector.toList_set, h.fill_eq]
  rw [List.take_succ_eq_append_getElem (by simpa using hlt), List.getElem_set_self,
    List.take_set_of_le le_rfl, h.waiting]

theorem P13State.Holds.absorb {K T : List Byte} {Bs : List (List Byte)} {st : P13State}
    (h : st.Holds K Bs T) (b : Byte) : (st.absorb b).Absorbed K (Bs.flatten ++ T ++ [b]) := by
  have htake := h.take_set b
  obtain ⟨hmultiplier, haddend, hbounded, hblocks, hval, hfill, -⟩ := h
  rcases st.absorb_cases b with ⟨hroom, e⟩ | ⟨hlast, e⟩
  · refine ⟨Bs, T ++ [b], (List.append_assoc ..).symm, ?_⟩
    rw [e]
    exact
      { multiplier_eq := hmultiplier
        addend_eq := haddend
        bounded := hbounded
        blocks := hblocks
        val_eq := hval
        fill_eq := by
          rw [BitVec.toNat_add_of_lt (by simp; omega), hfill, List.length_append]
          rfl
        waiting := by rwa [List.length_append] }
  · have hbuf : (st.buf.set st.fill.toNat b (by omega)).toList = T ++ [b] := by
      rw [← htake, List.take_of_length_le (by simp; omega)]
    have hlength : (T ++ [b]).length = 16 := by simp; omega
    refine ⟨Bs ++ [T ++ [b]], [], by simp, ?_⟩
    rw [e, hbuf]
    exact
      { multiplier_eq := hmultiplier
        addend_eq := haddend
        bounded :=
          P13State.block_limbsBounded (st := { st with buf := _ }) hbounded hlength.le false
        blocks := by simpa [or_imp, forall_and] using ⟨hblocks, by simpa using hlength⟩
        val_eq := by
          rw [List.foldl_append, ← hval, ← hmultiplier]
          exact P13State.val_block_full { st with buf := _ } hlength
        fill_eq := rfl
        waiting := rfl }

theorem P13State.Absorbed.write {K m : List Byte} {st : P13State} (h : st.Absorbed K m)
    (X : List Byte) : (st.write X).Absorbed K (m ++ X) := by
  induction X generalizing st m with
  | nil => rwa [List.append_nil]
  | cons b X ih =>
    obtain ⟨Bs, T, rfl, hold⟩ := h
    simpa using ih (hold.absorb b)

/-- Feeding a message in pieces feeds their concatenation. -/
theorem P13State.Absorbed.foldl_write {K m : List Byte} {st : P13State} (h : st.Absorbed K m)
    (pieces : List (List Byte)) :
    (pieces.foldl P13State.write st).Absorbed K (m ++ pieces.flatten) := by
  induction pieces generalizing st m with
  | nil => simpa
  | cons X pieces ih => simpa using ih (h.write X)

/-! ### The tag -/

theorem P13State.Holds.closeLast {K T : List Byte} {Bs : List (List Byte)} {st : P13State}
    (h : st.Holds K Bs T) :
    st.closeLast.limbsBounded ∧
      st.closeLast.val = (messageBlocks (Bs.flatten ++ T)).foldl
        (rfcBlock (leNat (slice K 0 16) &&& clampMask)) 0 := by
  rw [messageBlocks_flatten_append h.blocks h.waiting_lt, List.foldl_append, ← h.val_eq,
    P13State.closeLast, h.fill_eq, h.waiting]
  by_cases hT : T = []
  · simpa [hT] using h.bounded
  · rw [if_pos (List.length_pos_of_ne_nil hT), if_neg hT, ← h.multiplier_eq]
    refine ⟨P13State.block_limbsBounded h.bounded ?_ true, st.val_block_last h.waiting_lt⟩
    have := h.waiting_lt
    simp
    omega

theorem P13State.closeLast_s (st : P13State) : st.closeLast.s = st.s := by
  unfold P13State.closeLast
  split <;> rfl

/-- An accumulator gives the tag of what it has absorbed. -/
theorem P13State.Absorbed.final_eq {K m : List Byte} {st : P13State} (h : st.Absorbed K m) :
    st.final = rfcTag K m := by
  obtain ⟨Bs, T, rfl, hold⟩ := h
  obtain ⟨hbounded, hval⟩ := hold.closeLast
  have haddend : st.closeLast.addend = leNat (slice K 16 32) := by
    rw [P13State.addend, closeLast_s]
    exact hold.addend_eq
  rw [P13State.final, ← closeLast_s, P13State.emitTag_of_limbsBounded hbounded, hval, haddend,
    rfcTag]

/-- Settles O41: the loaded accumulator has absorbed the empty message, and absorbs the pieces. -/
theorem poly1305MatchesRfc : Obligations.Poly1305MatchesRfc := by
  intro K pieces junk _
  exact ((P13State.load_absorbed K junk).foldl_write pieces).final_eq

end Sys2Proof.Machine
end

section
/-! The composer (43_aead.md R204 to R209): the MAC input of R217 is what its running hash has
absorbed, however the data was cut into commands. -/

namespace Sys2Proof.Machine

/-! ### The associated data -/

theorem pad16_eq_zeros (n : Nat) : pad16 n = zeros ((16 - n % 16) % 16) := by
  have h := Nat.mod_lt n (by decide : 16 > 0)
  unfold pad16
  split
  case isTrue h₀ => simp [h₀, zeros]
  case isFalse h₀ => rw [Nat.mod_eq_of_lt (a := 16 - n % 16) (by omega)]

/-- The composer was keyed with `K` and has taken the associated data `AD`. -/
structure AeadCtx.HoldsAD (K AD : List Byte) (x : AeadCtx) : Prop where
  before : x.stage.beforeData = true
  absorbed : x.poly.Absorbed K AD
  adLen_eq : x.adLen = BitVec.ofNat 64 AD.length
  ctLen_eq : x.ctLen = 0

theorem AeadCtx.HoldsAD.writeAD {K AD : List Byte} {x : AeadCtx} (h : x.HoldsAD K AD)
    (X : List Byte) : (x.writeAD X).HoldsAD K (AD ++ X) where
  before := rfl
  absorbed := h.absorbed.write X
  adLen_eq := by rw [List.length_append, BitVec.ofNat_add, ← h.adLen_eq]; rfl
  ctLen_eq := h.ctLen_eq

theorem AeadCtx.HoldsAD.foldl_writeAD {K AD : List Byte} {x : AeadCtx} (h : x.HoldsAD K AD)
    (ADs : List (List Byte)) : (ADs.foldl AeadCtx.writeAD x).HoldsAD K (AD ++ ADs.flatten) := by
  induction ADs generalizing x AD with
  | nil => simpa
  | cons X ADs ih => simpa using ih (h.writeAD X)

/-! ### The ciphertext -/

/-- The associated data of R217, closed with its padding. -/
def paddedAD (AD : List Byte) : List Byte := AD ++ zeros ((16 - AD.length % 16) % 16)

/-- Once its associated data is closed, the composer keyed with `K` has taken the associated data
`AD` and the ciphertext `CT`. -/
structure AeadCtx.HoldsData (K AD CT : List Byte) (x : AeadCtx) : Prop where
  closed : x.finalizeAD.stage.beforeData = false
  absorbed : x.finalizeAD.poly.Absorbed K (paddedAD AD ++ CT)
  adLen_eq : x.adLen = BitVec.ofNat 64 AD.length
  ctLen_eq : x.ctLen = BitVec.ofNat 64 CT.length

theorem AeadCtx.HoldsAD.holdsData {K AD : List Byte} {x : AeadCtx} (h : x.HoldsAD K AD)
    (hAD : AD.length < 2 ^ 64) : x.HoldsData K AD [] := by
  obtain ⟨hbefore, habsorbed, hadLen, hctLen⟩ := h
  have hpad : pad16 x.adLen.toNat = zeros ((16 - AD.length % 16) % 16) := by
    rw [pad16_eq_zeros, hadLen, BitVec.toNat_ofNat, Nat.mod_eq_of_lt hAD]
  rcases x.finalizeAD_cases with ⟨hdata, -⟩ | ⟨-, e⟩
  · simp [hbefore] at hdata
  · refine ⟨by rw [e]; rfl, ?_, hadLen, hctLen⟩
    rw [e, List.append_nil, paddedAD, ← hpad]
    exact habsorbed.write _

/-- Hashing ciphertext, after the end of associated data and whatever becomes of the keystream. -/
theorem AeadCtx.HoldsData.hashCiphertext {K AD CT : List Byte} {x : AeadCtx}
    (h : x.HoldsData K AD CT) (Y : List Byte) (σ : Sigma) :
    AeadCtx.HoldsData K AD (CT ++ Y) { x.finalizeAD.hashCiphertext Y with sigma := σ } := by
  obtain ⟨hclosed, habsorbed, hadLen, hctLen⟩ := h
  rcases AeadCtx.finalizeAD_cases { x.finalizeAD.hashCiphertext Y with sigma := σ } with
    ⟨-, e⟩ | ⟨hbefore, -⟩
  · refine ⟨by rw [e]; exact hclosed, ?_, ?_, ?_⟩
    · rw [e, ← List.append_assoc]
      exact habsorbed.write Y
    · exact x.finalizeAD_adLen.trans hadLen
    · rw [List.length_append, BitVec.ofNat_add, ← hctLen, ← x.finalizeAD_ctLen]
      rfl
  · exact absurd (hbefore.symm.trans hclosed) (by decide)

/-- One `AEAD.ENC`, whose output is hashed, or `AEAD.DEC`, whose input is; and the ciphertext that
it adds to that of the commands before. -/
def AeadCtx.takeData (bs : Nat) (y : AeadCtx × List Byte) (piece : Bool × List Byte) :
    AeadCtx × List Byte :=
  if piece.1 then ((y.1.encrypt bs piece.2).1, y.2 ++ (y.1.encrypt bs piece.2).2)
  else ((y.1.decrypt bs piece.2).1, y.2 ++ piece.2)

theorem AeadCtx.HoldsData.takeData {K AD : List Byte} {y : AeadCtx × List Byte}
    (h : y.1.HoldsData K AD y.2) (bs : Nat) (piece : Bool × List Byte) :
    (AeadCtx.takeData bs y piece).1.HoldsData K AD (AeadCtx.takeData bs y piece).2 := by
  obtain ⟨encrypting, X⟩ := piece
  cases encrypting
  case false => exact h.hashCiphertext X _
  case true => exact h.hashCiphertext (scXor bs y.1.sigma X).2 _

theorem AeadCtx.HoldsData.foldl_takeData {K AD : List Byte} {y : AeadCtx × List Byte}
    (h : y.1.HoldsData K AD y.2) (bs : Nat) (data : List (Bool × List Byte)) :
    (data.foldl (AeadCtx.takeData bs) y).1.HoldsData K AD
      (data.foldl (AeadCtx.takeData bs) y).2 := by
  induction data generalizing y with
  | nil => exact h
  | cons piece data ih => exact ih (h.takeData bs piece)

theorem AeadCtx.takeData_length (bs : Nat) (y : AeadCtx × List Byte) (piece : Bool × List Byte) :
    (AeadCtx.takeData bs y piece).2.length = y.2.length + piece.2.length := by
  obtain ⟨encrypting, X⟩ := piece
  cases encrypting <;> simp [takeData]

/-- There is as much ciphertext as there was data. -/
theorem AeadCtx.foldl_takeData_length (bs : Nat) (data : List (Bool × List Byte))
    (y : AeadCtx × List Byte) : (data.foldl (AeadCtx.takeData bs) y).2.length =
      y.2.length + (data.map (·.2)).flatten.length := by
  induction data generalizing y with
  | nil => simp
  | cons piece data ih =>
    rw [List.foldl_cons, ih, takeData_length, List.map_cons, List.flatten_cons, List.length_append,
      Nat.add_assoc]

/-! ### The tag -/

/-- The tag of a composer is that of the MAC input, padding and counters being put behind the
ciphertext. -/
theorem AeadCtx.HoldsData.tag_eq {K AD CT : List Byte} {x : AeadCtx} (h : x.HoldsData K AD CT)
    (hAD : AD.length < 2 ^ 64) (hCT : CT.length < 2 ^ 64) : x.tag = rfcTag K (macInput AD CT) := by
  have hadLen : x.finalizeAD.adLen.toNat = AD.length := by
    rw [x.finalizeAD_adLen, h.adLen_eq, BitVec.toNat_ofNat, Nat.mod_eq_of_lt hAD]
  have hctLen : x.finalizeAD.ctLen.toNat = CT.length := by
    rw [x.finalizeAD_ctLen, h.ctLen_eq, BitVec.toNat_ofNat, Nat.mod_eq_of_lt hCT]
  have hinput : macInput AD CT = paddedAD AD ++ CT ++ zeros ((16 - CT.length % 16) % 16) ++
      (toLE AD.length 8 ++ toLE CT.length 8) := by
    rw [macInput, paddedAD, List.append_assoc]
  simp only [AeadCtx.tag, hadLen, hctLen, pad16_eq_zeros]
  rw [hinput]
  exact ((h.absorbed.write _).write _).final_eq

theorem sixteen_dvd_macInput_length (AD CT : List Byte) : 16 ∣ (macInput AD CT).length := by
  simp only [macInput, List.length_append, zeros_length, toLE_length]
  omega

/-- Settles O50: associated data and ciphertext are absorbed in the order of R217, and `finalizeAD`
puts the padding between them. -/
theorem aeadTagAuthenticatesMacInput : Obligations.AeadTagAuthenticatesMacInput := by
  intro bs cipher σ K junk ADs data _ hADs hdata x y
  have hx : x.HoldsAD K [] := ⟨rfl, P13State.load_absorbed K junk, rfl, rfl⟩
  have hy : y.1.HoldsData K ADs.flatten y.2 :=
    AeadCtx.HoldsData.foldl_takeData (y := (ADs.foldl AeadCtx.writeAD x, []))
      ((hx.foldl_writeAD ADs).holdsData hADs) bs data
  have hlength : y.2.length = (data.map (·.2)).flatten.length :=
    (AeadCtx.foldl_takeData_length bs data _).trans (Nat.zero_add _)
  exact ⟨hy.tag_eq hADs (hlength ▸ hdata), sixteen_dvd_macInput_length _ _⟩

end Sys2Proof.Machine
end

section
/-! The stream-cipher port (43_aead.md R200), its handles (R201, R213 to R216), and what is left of
the two AEAD units: associated data (R206), the order of stages (R203, R240, 60_exceptions.md R283),
sizes (R212, 44_ascon.md R249), and decryption of the composer's own ciphertext (R219 (1)). -/

namespace Sys2Proof

/-! ### The words of a command with one context -/

/-- The words of a command with one context, no variant, and its other words, with the context shifted
into its field. -/
theorem decode_eq_ok_iff_one_context {i : Instr} {unit op : Nat} {c : Ctx}
    {w1 w2 w3 w4 w5 : Word} (w : Descriptor) (base : Word)
    (h : encode i = ⟨header unit op c 0 0, w1, w2, w3, w4, w5⟩ := by rfl)
    (hbase : header unit op 0 0 0 = base := by decide) (hu : unit < 16 := by decide)
    (ho : op < 16 := by decide) :
    decode w = .ok i ↔ w = ⟨base ||| c.setWidth 32 <<< 20, w1, w2, w3, w4, w5⟩ := by
  have hword : header unit op c 0 0 = base ||| c.setWidth 32 <<< 20 := by
    rw [header_eq_or hu ho, hbase]
    simp
  rw [decode_eq_ok_iff_encode, h, hword, eq_comm]

namespace Machine

/-! ### The stream-cipher port -/

/-- Law L3: a longer keystream begins with the shorter one. -/
theorem keystream_eq_take (bs : Nat) (σ : Sigma) {n m : Nat} (h : n ≤ m) :
    keystream bs σ n = (keystream bs σ m).take n := by
  simp [keystream, ← List.map_take, List.take_range, h]

/-- Law L4: a call of whole blocks leaves the instance at the next byte of the keystream. -/
theorem keystream_add (bs : Nat) (σ : Sigma) {n : Nat} (h : bs ∣ n) (m : Nat) :
    keystream bs σ (n + m) =
      keystream bs σ n ++ keystream bs { σ with calls := n :: σ.calls } m := by
  have hsplit := sinceBoundary_whole bs n σ.calls (Nat.mod_eq_zero_of_dvd h)
  simp only [keystream, hsplit, List.range_add, List.map_append, List.map_map,
    Function.comp_def, Nat.add_assoc]

/-- Decryption is encryption: the same keystream XORed in twice cancels. -/
theorem scXor_scXor (bs : Nat) (σ : Sigma) (X : List Byte) :
    scXor bs σ (scXor bs σ X).2 = ((scXor bs σ X).1, X) := by
  refine Prod.ext (by simp) ?_
  rw [scXor_output, scXor_output_length, scXor_output]
  exact xorBytes_cancel X _ (by simp)

/-- Settles O48, law by law; an instance counts the length of a call and nothing else of it. -/
theorem streamPortLaws : Obligations.StreamPortLaws := by
  refine fun bs σ X Y n m => ⟨scXor_output bs σ X, scXor_output_length bs σ X, fun hlen => ?next,
    scXor_scXor bs σ X, keystream_eq_take bs σ, fun hdvd => ?whole⟩
  case next => rw [scXor_instance, scXor_instance, hlen]
  case whole => rw [scXor_instance, zeros_length, keystream_add bs σ hdvd]

/-- Settles O49: encryption hashes its output and decryption its input, both the ciphertext. -/
theorem aeadDecryptInvertsEncrypt : Obligations.AeadDecryptInvertsEncrypt := by
  intro bs x X
  have hxor := scXor_scXor bs x.sigma X
  simp only [AeadCtx.encrypt, AeadCtx.decrypt, hxor]

/-! ### Handles -/

/-- A longer read from an address begins with the shorter one. -/
theorem State.take_readBytes (s : State) (a : Word) {n m : Nat} (h : n ≤ m) :
    (s.readBytes a m).take n = s.readBytes a n := by
  simp [State.readBytes, ← List.map_take, List.take_range, h]

/-- A slice that ends where the string ends. -/
theorem slice_eq_drop {X : List Byte} {j : Nat} (h : X.length = j) (i : Nat) :
    slice X i j = X.drop i :=
  List.take_of_length_le (by simp [h])

/-- What the four constructors answer to a source window of the length they ask for. -/
theorem execScInit_fits (cipher : Cipher) {nlen : Nat} {h : Ctx} {src slen : Word} {s : State}
    (hh : s.hasCtx h = true) (hr : s.inRange src slen = true) (hlen : slen.toNat = 32 + nlen) :
    execScInit cipher nlen h src slen s =
      .next ((s.setSc h ⟨true, cipher, scFresh cipher (s.readBytes src 32)
        ((s.readBytes src slen.toNat).drop 32)⟩).finish 0) := by
  have hkey : slice (s.source src slen) 0 32 = s.readBytes src 32 :=
    s.take_readBytes src (by omega)
  have hnonce : slice (s.source src slen) 32 (32 + nlen) = (s.readBytes src slen.toNat).drop 32 :=
    slice_eq_drop ((s.source_length src slen).trans hlen) 32
  rw [← hkey, ← hnonce]
  exact command_of_passed _ (by simp [hh, hlen, hr])

/-- Settles O42: the constructors differ in the cipher and the length of the nonce. -/
theorem handleConstructionAnswers : Obligations.HandleConstructionAnswers := by
  intro h src slen s hh hr made
  exact ⟨fun hlen => execScInit_fits .chacha20 hh hr hlen,
    fun hlen => execScInit_fits .salsa20 hh hr hlen,
    fun hlen => execScInit_fits .xchacha20 hh hr hlen,
    fun hlen => execScInit_fits .xsalsa20 hh hr hlen⟩

/-! ### Associated data -/

/-- On a context that takes associated data `AEAD.WRAD` has the check of its counter left, and those
behind it. -/
theorem firstError_aeadWrad {s : State} {c : Ctx} (hc : s.hasCtx c = true)
    (hv : (s.aeadAt c).valid = true) (hg : (s.aeadAt c).stage.beforeData = true)
    (rest : List (Bool × Err)) (n : Nat) :
    firstError ([s.noCtx c, (!(s.aeadAt c).valid || !(s.aeadAt c).stage.beforeData, .usage),
        (decide (2 ^ 64 ≤ (s.aeadAt c).adLen.toNat + n), .capacity)] ++ rest) =
      if 2 ^ 64 ≤ (s.aeadAt c).adLen.toNat + n then some .capacity else firstError rest := by
  simp [hc, hv, hg]

/-- Settles O44: past the counter only the window is checked, and `writeAD` counts its bytes. -/
theorem aeadWradAnswers : Obligations.AeadWradAnswers := by
  intro c src slen s hc hv hg x X
  have hchecks := firstError_aeadWrad hc hv ((Stage.beforeData_iff _).mpr hg)
    [s.offRange src slen] slen.toNat
  refine ⟨fun hn hr => ?counts, fun hn => command_of_error _ (hchecks.trans (if_pos hn))⟩
  case counts =>
    refine (command_of_passed _ (hchecks.trans ((if_neg hn.not_ge).trans ?_))).trans ?_
    · simp [hr]
    · rw [AeadCtx.writeAD, s.source_length]
      rfl

/-! ### Sizes -/

/-- What both commands do whose answer is their operand, whatever bit says there is an instance. -/
theorem command_encsz_present {s : State} {c : Ctx} (hc : s.hasCtx c = true) (held : Bool)
    (slen : Word) :
    command s [s.noCtx c, (!held, .usage)] (.next (s.finish slen.toNat)) =
      if held then .next { s with status := 0, result := slen } else .next (s.raise .usage) := by
  cases held
  case false => simp [hc]
  case true => simp [hc, State.finish]

/-- Settles O47: both commands make the same checks, of their own unit. -/
theorem encszAnswers : Obligations.EncszAnswers := by
  refine ⟨fun w c slen => ⟨decode_eq_ok_iff_one_context w _, decode_eq_ok_iff_one_context w _⟩,
    fun c slen s hc => ?absent, fun c slen s hc =>
      ⟨command_encsz_present hc _ slen, command_encsz_present hc _ slen⟩⟩
  case absent => exact ⟨command_of_error _ (by simp [hc]), command_of_error _ (by simp [hc])⟩

/-! ### The order of stages -/

/-- A command out of stage order is a usage error, whether or not there is an instance. -/
theorem exec_of_wrongStage {i : Instr} {s : State} {c : Ctx} (hi : i.contexts = [c])
    (hc : s.hasCtx c = true) (hg : i.stageOk s = false) : exec i s = .next (s.raise .usage) := by
  have hwf : i.wellFormed s.par.nctx = true := by
    simpa [Instr.wellFormed, hi, State.hasCtx] using hc
  exact exec_of_earlyError (by simp [Instr.earlyError, hwf, hg])

theorem Stage.beforeData_eq_false {g : Stage} (h : g = .data ∨ g = .done) :
    g.beforeData = false := by
  rcases h with rfl | rfl <;> rfl

/-- Settles O51: the stage each command needs is that of `Instr.stageOk`. -/
theorem stageOrderErrors : Obligations.StageOrderErrors := by
  intro c src slen dst dcap s hc
  refine ⟨fun hg => exec_of_wrongStage rfl hc (Stage.beforeData_eq_false hg),
    fun hg => exec_of_wrongStage rfl hc (Stage.beforeData_eq_false hg), fun hg => ?aead,
    fun hg => ?asc⟩
  case aead =>
    have hdone : ((s.aeadAt c).stage != .done) = false := by simp [hg]
    exact ⟨exec_of_wrongStage rfl hc hdone, exec_of_wrongStage rfl hc hdone,
      exec_of_wrongStage rfl hc hdone, exec_of_wrongStage rfl hc hdone⟩
  case asc =>
    have hdone : ((s.ascAt c).stage != .done) = false := by simp [hg]
    exact ⟨exec_of_wrongStage rfl hc hdone, exec_of_wrongStage rfl hc hdone,
      exec_of_wrongStage rfl hc hdone, exec_of_wrongStage rfl hc hdone⟩

end Machine

end Sys2Proof
end

section
/-! The two Ascon units (44_ascon.md R231 to R259): the three AEAD constructions, associated data
and the laws of encryption; the two hash constructions, absorbing, and digests of two lengths. -/

namespace Sys2Proof.Machine

/-! ### Construction of an AEAD context -/

/-- The key and the nonce of R236 stand in the seed as they do in the source. -/
theorem AscCtx.construct_take_drop (v : AscVar) (X : List Byte) :
    AscCtx.construct v (X.take v.klen) (X.drop v.klen) =
      ⟨true, v,
        xorInto (perm (toVec 40 ([BitVec.ofNat 8 (8 * v.klen), BitVec.ofNat 8 (8 * v.rate),
          BitVec.ofNat 8 v.aRounds, BitVec.ofNat 8 v.bRounds] ++ zeros (20 - v.klen) ++ X))
          v.aRounds) (40 - v.klen) (X.take v.klen),
        0, .init, false, X.take v.klen⟩ := by
  rw [AscCtx.construct, ascSeed, List.append_assoc _ (X.take v.klen), List.take_append_drop]

/-- What the three constructions answer to a source window of the length they ask for. -/
theorem execAscInit_fits {v : AscVar} {c : Ctx} {src slen : Word} {s : State}
    (hc : s.hasCtx c = true) (hr : s.inRange src slen = true) (hlen : slen.toNat = v.klen + 16) :
    execAscInit v c src slen s =
      .next ((s.setAsc c (AscCtx.construct v ((s.readBytes src slen.toNat).take v.klen)
        ((s.readBytes src slen.toNat).drop v.klen))).finish 0) := by
  have hnonce : slice (s.source src slen) v.klen (v.klen + 16) =
      (s.readBytes src slen.toNat).drop v.klen :=
    slice_eq_drop ((s.source_length src slen).trans hlen) v.klen
  rw [← hnonce]
  exact command_of_passed _ (by simp [hc, hlen, hr])

/-- Settles O53: the constructions differ in their variant, whose parameters are the header. -/
theorem asconConstructionAnswers : Obligations.AsconConstructionAnswers := by
  intro c src slen s hc hr X made
  have answers : ∀ v : AscVar, slen.toNat = v.klen + 16 → execAscInit v c src slen s =
      .next (made v [BitVec.ofNat 8 (8 * v.klen), BitVec.ofNat 8 (8 * v.rate),
        BitVec.ofNat 8 v.aRounds, BitVec.ofNat 8 v.bRounds] v.klen) := by
    intro v hlen
    have hrounds : v.aRounds = 12 := by cases v <;> rfl
    rw [execAscInit_fits hc hr hlen, AscCtx.construct_take_drop, hrounds]
    rfl
  exact ⟨answers .ascon128, answers .ascon128a, answers .ascon80pq⟩

/-! ### Associated data -/

theorem AscCtx.advance_with_adAny (x : AscCtx) (seen : Bool) :
    AscCtx.advance { x with adAny := seen } = { x.advance with adAny := seen } := by
  by_cases h : x.cur.toNat + 1 = x.var.rate
  · simp only [AscCtx.advance, if_pos h]
  · simp only [AscCtx.advance, if_neg h]

/-- Absorbing neither reads nor writes the flag for associated data. -/
theorem AscCtx.absorb_with_adAny (x : AscCtx) (seen : Bool) (v : Byte) :
    AscCtx.absorb { x with adAny := seen } v = { x.absorb v with adAny := seen } :=
  (x.put (x.here ^^^ v)).advance_with_adAny seen

/-- The flag is set by the first byte, so a call without bytes leaves it. -/
theorem AscCtx.writeAD_eq (x : AscCtx) (X : List Byte) :
    x.writeAD X = { X.foldl AscCtx.absorb x with
      adAny := x.adAny || !X.isEmpty, stage := .associatedData } := by
  induction X generalizing x with
  | nil => simp [AscCtx.writeAD]
  | cons v X ih =>
    have hflag : X.foldl AscCtx.absorb { x.absorb v with adAny := true } =
        { X.foldl AscCtx.absorb (x.absorb v) with adAny := true } :=
      List.foldl_hom (fun y : AscCtx => { y with adAny := true })
        fun y w => y.absorb_with_adAny true w
    calc x.writeAD (v :: X)
      _ = AscCtx.writeAD { x.absorb v with adAny := true } X := rfl
      _ = _ := by rw [ih, hflag]; simp

theorem State.isEmpty_readBytes (s : State) (src slen : Word) :
    (s.readBytes src slen.toNat).isEmpty = (slen == 0) := by
  rw [Bool.eq_iff_iff, List.isEmpty_iff_length_eq_zero, State.readBytes_length, beq_iff_eq,
    BitVec.toNat_eq]
  rfl

/-- Settles O54: `writeAD` absorbs the source bytes, and there is one exactly where the source is
not empty. -/
theorem ascWradAnswers : Obligations.AscWradAnswers := by
  intro c src slen s hc hv hg hr x
  rw [bne, ← s.isEmpty_readBytes src slen, ← AscCtx.writeAD_eq]
  exact command_of_passed _ (by simp [hc, hv, hr, (Stage.beforeData_iff _).mpr hg])

/-! ### Encryption and decryption -/

/-- Each byte that decryption puts into the state is the one that encryption left there. -/
theorem AscCtx.decLoop_encLoop (x : AscCtx) (X : List Byte) :
    x.decLoop (x.encLoop X).2 = ((x.encLoop X).1, X) := by
  induction X generalizing x with
  | nil => rfl
  | cons v X ih =>
    have hnext := ih (x.absorb v)
    have hbyte : x.here ^^^ (x.here ^^^ v) = v := by simp
    rw [AscCtx.absorb] at hnext
    simp only [AscCtx.encLoop, AscCtx.decLoop, AscCtx.absorb, hnext, hbyte]

theorem AscCtx.encLoop_append (x : AscCtx) (X Y : List Byte) :
    x.encLoop (X ++ Y) =
      (((x.encLoop X).1.encLoop Y).1, (x.encLoop X).2 ++ ((x.encLoop X).1.encLoop Y).2) := by
  induction X generalizing x with
  | nil => rfl
  | cons v X ih => simp [AscCtx.encLoop, ih]

theorem AscCtx.finalizeAD_of_not_beforeData {x : AscCtx} (h : x.stage.beforeData = false) :
    x.finalizeAD = x := by simp [AscCtx.finalizeAD, h]

theorem AscCtx.finalizeAD_not_beforeData (x : AscCtx) :
    x.finalizeAD.stage.beforeData = false := by
  rcases x.finalizeAD_cases with ⟨hafter, h⟩ | ⟨-, -, h⟩ | ⟨-, -, h⟩
  case inl => rwa [h]
  all_goals rw [h, AscCtx.separate_stage]; rfl

/-- Once data is taken there is no associated data left to close. -/
theorem AscCtx.finalizeAD_encrypt (x : AscCtx) (X : List Byte) :
    (x.encrypt X).1.finalizeAD = (x.encrypt X).1 := by
  obtain ⟨-, -, hstage, -⟩ := x.finalizeAD.encLoop_frame X
  refine AscCtx.finalizeAD_of_not_beforeData ?_
  rw [AscCtx.encrypt, hstage]
  exact x.finalizeAD_not_beforeData

/-- Settles O57: both loops leave the ciphertext in the state; the domains are separated once. -/
theorem asconDecryptInvertsEncrypt : Obligations.AsconDecryptInvertsEncrypt := by
  intro x X Y
  have hcut : x.encrypt (X ++ Y) = (((x.encrypt X).1.encrypt Y).1,
      (x.encrypt X).2 ++ ((x.encrypt X).1.encrypt Y).2) := by
    have hnext : (x.encrypt X).1.encrypt Y = (x.encrypt X).1.encLoop Y :=
      congrArg (AscCtx.encLoop · Y) (x.finalizeAD_encrypt X)
    rw [hnext]
    exact x.finalizeAD.encLoop_append X Y
  rw [hcut]
  exact ⟨x.finalizeAD.decLoop_encLoop X, rfl, rfl⟩

/-! ### Ascon hash contexts -/

/-- Settles O58: the header of the variant is the one of R251. -/
theorem ashConstructionAndWriteAnswer : Obligations.AshConstructionAndWriteAnswer := by
  intro c imm src slen s hc
  refine ⟨?hash, ?xof, fun hv hr => ?write⟩
  case hash => exact command_of_passed _ (by simp [hc])
  case xof => exact command_of_passed _ (by simp [hc])
  case write => exact command_of_passed _ (by simp [hc, hv, hr])

/-- More output blocks begin with the fewer. -/
theorem squeeze_eq_take (S : Vector Byte 40) {n m : Nat} (h : n ≤ m) :
    squeeze S n = (squeeze S m).take (8 * n) := by
  induction n generalizing S m with
  | zero => rfl
  | succ n ih =>
    obtain ⟨m, rfl⟩ : ∃ k, m = k + 1 := ⟨m - 1, by omega⟩
    have hblock : (slice S.toList 0 8).length = 8 := by simp
    rw [squeeze, squeeze, List.take_append, hblock, List.take_of_length_le (by omega),
      show 8 * (n + 1) - 8 = 8 * n by omega, ← ih (perm S 12) (by omega)]

/-- Settles O60: the length cuts one stream of output blocks. -/
theorem xofDigestIsPrefix : Obligations.XofDigestIsPrefix := by
  intro x n m hnm
  refine ⟨AshCtx.digest_length _, ?cut⟩
  case cut =>
    simp only [AshCtx.digest]
    rw [squeeze_eq_take _ (show (n.toNat + 7) / 8 ≤ (m.toNat + 7) / 8 by omega), List.take_take,
      List.take_take, Nat.min_eq_left (by omega), Nat.min_eq_left hnm]

end Sys2Proof.Machine
end

section
/-! Errors (60_exceptions.md): what an error of any command leaves in the response and the contexts
(R285, R288), and the lengths that the constructions reject (R282). -/

namespace Sys2Proof.Machine

/-! ### What an error leaves -/

/-- An error, early or late, gives no result and leaves the contexts (R285, R288); what it leaves of
`M` is part of `commandWritesOnlyItsWindow`. -/
theorem exec_error_leaves {i : Instr} {s t : State} (h : exec i s = .next t) (hne : t.status ≠ 0) :
    t.result = 0 ∧ ∀ c : Ctx, s.sameContextsAt t c := by
  cases exec_effect h with
  | early e he => exact ⟨rfl, s.sameContextsAt_refl⟩
  | quiet u v hd hu => exact absurd rfl hne
  | writes u dst dcap X hd hr hx hu hl => exact absurd rfl hne
  | late e dst dcap hl hd hr he => exact ⟨s.raiseLate_result e dst dcap, s.sameContextsAt_refl⟩

/-- Settles O16: no error of any command changes a context (`exec_error_leaves`), and no command
writes outside its destination window, so that `UNPAD.*` and `CBC.DEC` are no exception. -/
theorem lateErrorsDisturbOnlyTheWindow : Obligations.LateErrorsDisturbOnlyTheWindow := by
  intro i s t dst dcap _ hd h hne
  obtain ⟨hresult, hcontexts⟩ := exec_error_leaves h hne
  obtain ⟨hpar, hinputs⟩ := exec_par_inputs h
  obtain ⟨-, hwindow⟩ := commandWritesOnlyItsWindow i s t h
  obtain ⟨houtside, -, -⟩ := hwindow dst dcap hd
  exact ⟨hresult, hpar, hinputs, hcontexts, houtside⟩

/-! ### Wrong lengths -/

/-- A construction that takes its key material from a window asks for no instance and no stage, so
that on a context that exists a wrong length is its first error. -/
theorem exec_of_wrongLength {i : Instr} {s : State} {c : Ctx} (hc : s.hasCtx c = true)
    (hlen : i.constructOk s = false) (hi : i.contexts = [c] := by rfl)
    (hheld : i.instanceBit s = none := by rfl) (hg : i.stageOk s = true := by rfl) :
    exec i s = .next (s.raise .construct) := by
  have hwf : i.wellFormed s.par.nctx = true := by
    simpa [Instr.wellFormed, hi, State.hasCtx] using hc
  exact exec_of_earlyError (by simp [Instr.earlyError, hwf, hheld, hg, hlen])

/-- Settles O20: the length that each construction asks for is that of `Instr.constructOk`. -/
theorem wrongLengthIsConstructionError : Obligations.WrongLengthIsConstructionError := by
  intro c sch src slen s hc
  have differs {n : Nat} (h : slen.toNat ≠ n) : (slen.toNat == n) = false :=
    beq_eq_false_iff_ne.mpr h
  refine ⟨?cbc, ?p13, ?cc20, ?ss20, ?xcc20, ?xss20, ?asc128, ?asc128a, ?asc80pq⟩
  all_goals exact fun h => exec_of_wrongLength hc (differs h)

end Sys2Proof.Machine
end
